-- ==== Sys2Proof/Word.lean ====
section
/-! DEFINITION. The word and byte types of the bus, and the type of an IEEE 754 binary32 datum (R21, R22, R90). -/

namespace Sys2Proof

/-- A register, a RAM word, a data word of the bus (R31, R91, R92). -/
abbrev Word := BitVec 32

/-- One byte of the host address space (R80, R90). -/
abbrev Byte := BitVec 8

/-- A binary32 datum (R21). A finite datum is an exact number: `fin neg mag` is `mag * 2^(-149)`, negated when `neg`;
2^(-149) is the smallest subnormal, so every finite binary32 value is a natural multiple of it, and the two zeros are
`fin false 0` and `fin true 0`. All NaNs are one datum: no rule lets a NaN made by arithmetic reach a result (U20). -/
inductive F32 where
  | nan
  | inf (neg : Bool)
  | fin (neg : Bool) (mag : Nat)
deriving DecidableEq, Repr

/-- The positive zero `+0.0` of R22. -/
def F32.zero : F32 := .fin false 0

end Sys2Proof
end

