-- ==== Sys2Proof/Config.lean ====
section
/-! DEFINITION. What one DTMFDEC fixes: the constants of 00_scope.md, and the free values the spec leaves open. -/

namespace Sys2Proof.Config

/-- `P_FS`, the sample rate in Hz (R8). -/
def sampleRate : Nat := 44100

/-- `P_WIN`, the detection window length in samples (R11). -/
def windowLength : Nat := 2205

/-- `P_NFFT`, the transform size (R17, R186). -/
def transformSize : Nat := 4096

/-- The two values of `P_STRIDE` (R12). -/
def fullStride : Nat := 2205

/-- The 50%-overlapping value of `P_STRIDE` (R12). -/
def halfStride : Nat := 1102

/-- The largest `P_BUF_LEN`, which this hardware takes (R9). -/
def maxBufLen : Nat := 0x100000

/-- The largest `P_OUT_LEN`, which this hardware takes (R10). -/
def maxOutLen : Nat := 0x400

/-- The ID constant (R32). -/
def idWord : Word := 0x464D5444

/-- Byte offset of SAMPLE_RAM word 0 (R82). -/
def sampleBase : Nat := 0x400000

/-- Byte offset of OUT_RAM entry 0 (R83). -/
def outBase : Nat := 0x1000

/-- FREE VALUE: the byte a RAM address holds while its contents are unspecified (R332, U1, U2): an arbitrary value that
may differ with the number of hardware resets, with how often the byte became unspecified since the latest of them, and
with the address. Log entry 7. -/
opaque ramByte : Nat → Nat → Nat → Byte

/-- FREE VALUE: the (key, presses) pair of a symbol's character code, where `P_SYMTAB` is OPEN (R15, R50, U15).
Log entry 8. -/
opaque openSymbol : Byte → Option (BitVec 4 × Byte)

/-- FREE VALUE: the pattern of a NaN made by arithmetic (U20); no reachable operation stores it. Log entry 10. -/
opaque nanPattern : Word

end Sys2Proof.Config
end

