-- ==== Sys2Proof/Syntax.lean ====
section
/-! DEFINITION. The syntax of DTMFDEC's operations: one constructor of `Instr` per row of the opcode table (R2, R121),
the raw encoded operation a decoder reads, and the register map's names and offsets (R31). -/

namespace Sys2Proof

/-- The size of a bus transaction in bytes (R110): 1, 2 or 4. -/
inductive Size where
  | byte
  | half
  | word
deriving DecidableEq, Repr

/-- The encoded forms that select an operation (30_encoding.md, R111, R116, R119, R120). -/
inductive Format where
  | bus
  | cls
  | seq
  | det
deriving DecidableEq, Repr

/-- An encoded operation as it stands on its wires: which format, and its bytes, the first at the lowest place.
A bus transaction is eight bytes: SEL and the SIZE code, then WDATA (log entry 2); the other formats are one byte. -/
structure RawOp where
  fmt : Format
  bytes : List Byte
deriving DecidableEq, Repr

/-- The 28 registers of the register map (R31). -/
inductive Reg where
  | id
  | caps
  | winCfg
  | bufLen
  | outLen
  | ctrl
  | status
  | sampleCount
  | outCount
  | winCount
  | errInfo
  | fsmCfg
  | placeholder
  | gateFactor
  | normEps
  | noiseFloor
  | toneFloor
  | ratioThr
  | emphCoef
  | bpB0
  | bpB1
  | bpB2
  | bpB3
  | bpB4
  | bpA1
  | bpA2
  | bpA3
  | bpA4
deriving DecidableEq, Repr

/-- The byte offset of a register (R31). -/
def Reg.offset : Reg → BitVec 24
  | .id => 0x000
  | .caps => 0x004
  | .winCfg => 0x008
  | .bufLen => 0x00C
  | .outLen => 0x010
  | .ctrl => 0x014
  | .status => 0x018
  | .sampleCount => 0x01C
  | .outCount => 0x020
  | .winCount => 0x024
  | .errInfo => 0x028
  | .fsmCfg => 0x02C
  | .placeholder => 0x030
  | .gateFactor => 0x034
  | .normEps => 0x038
  | .noiseFloor => 0x03C
  | .toneFloor => 0x040
  | .ratioThr => 0x044
  | .emphCoef => 0x048
  | .bpB0 => 0x04C
  | .bpB1 => 0x050
  | .bpB2 => 0x054
  | .bpB3 => 0x058
  | .bpB4 => 0x05C
  | .bpA1 => 0x060
  | .bpA2 => 0x064
  | .bpA3 => 0x068
  | .bpA4 => 0x06C

/-- The register map in the order of its table (R31). -/
def Reg.all : List Reg :=
  [.id, .caps, .winCfg, .bufLen, .outLen, .ctrl, .status]
  ++ [.sampleCount, .outCount, .winCount, .errInfo, .fsmCfg, .placeholder, .gateFactor]
  ++ [.normEps, .noiseFloor, .toneFloor, .ratioThr, .emphCoef, .bpB0, .bpB1]
  ++ [.bpB2, .bpB3, .bpB4, .bpA1, .bpA2, .bpA3, .bpA4]

/-- The operations of DTMFDEC, one constructor per row of the opcode table (R2, R121). -/
inductive Instr where
  | busIllegal (we : Bool) (addr : BitVec 24) (size : Size) (wdata : Word)
  | rdId
  | wrId (wdata : Word)
  | rdCaps
  | wrCaps (wdata : Word)
  | rdWinCfg
  | wrWinCfg (wdata : Word)
  | rdBufLen
  | wrBufLen (wdata : Word)
  | rdOutLen
  | wrOutLen (wdata : Word)
  | rdCtrl
  | wrCtrl (wdata : Word)
  | rdStatus
  | wrStatus (wdata : Word)
  | rdSampleCount
  | wrSampleCount (wdata : Word)
  | rdOutCount
  | wrOutCount (wdata : Word)
  | rdWinCount
  | wrWinCount (wdata : Word)
  | rdErrInfo
  | wrErrInfo (wdata : Word)
  | rdFsmCfg
  | wrFsmCfg (wdata : Word)
  | rdPlaceholder
  | wrPlaceholder (wdata : Word)
  | rdGateFactor
  | wrGateFactor (wdata : Word)
  | rdNormEps
  | wrNormEps (wdata : Word)
  | rdNoiseFloor
  | wrNoiseFloor (wdata : Word)
  | rdToneFloor
  | wrToneFloor (wdata : Word)
  | rdRatioThr
  | wrRatioThr (wdata : Word)
  | rdEmphCoef
  | wrEmphCoef (wdata : Word)
  | rdBpB0
  | wrBpB0 (wdata : Word)
  | rdBpB1
  | wrBpB1 (wdata : Word)
  | rdBpB2
  | wrBpB2 (wdata : Word)
  | rdBpB3
  | wrBpB3 (wdata : Word)
  | rdBpB4
  | wrBpB4 (wdata : Word)
  | rdBpA1
  | wrBpA1 (wdata : Word)
  | rdBpA2
  | wrBpA2 (wdata : Word)
  | rdBpA3
  | wrBpA3 (wdata : Word)
  | rdBpA4
  | wrBpA4 (wdata : Word)
  | rdSample (n : BitVec 20)
  | wrSample (n : BitVec 20) (wdata : Word)
  | rdOut (i : BitVec 10)
  | wrOut (i : BitVec 10) (wdata : Word)
  | busReserved (we : Bool) (addr : BitVec 24) (wdata : Word)
  | fsmStepSilence
  | fsmStepKey1
  | fsmStepKey2
  | fsmStepKey3
  | fsmStepKey4
  | fsmStepKey5
  | fsmStepKey6
  | fsmStepKey7
  | fsmStepKey8
  | fsmStepKey9
  | fsmStepKey10
  | fsmStepKey11
  | fsmStepKey12
  | clsReserved13
  | clsReserved1415 (low : Bool)
  | seqStatsStep
  | seqStatsEnd
  | seqVarStep
  | seqVarEnd
  | seqGateStep
  | seqGateEnd
  | seqFilterStep
  | seqFilterEnd
  | seqDetectStep
  | seqDetectEnd
  | seqFlush
  | detClassifyGoertzel
  | detClassifyGoertzelStrict
  | detClassifySpectral
  | detReserved
deriving DecidableEq, Repr

end Sys2Proof
end

