-- ==== Sys2Proof/Machine/State.lean ====
section
/-! DEFINITION. The state of DTMFDEC (R30), its value after reset (R58, R330), and why a step can stop. -/

namespace Sys2Proof.Machine

/-- The build options and parameters (R4, R9, R10, R59): constants of one DTMFDEC, arguments of its step relation.
No step changes them (log entry 6). -/
structure Build where
  /-- `P_DETECTOR` as CAPS.DETECTOR shows it: 0 GOERTZEL, 1 GOERTZEL_STRICT, 2 SPECTRAL, 3 no such build (R13, R33), which
  every step refuses (R120, R122) -/
  detector : BitVec 2
  /-- `P_STRIDE` as CAPS.HALF_STRIDE shows it: 1102 when set, 2205 when not (R12, R33) -/
  halfStride : Bool
  /-- `P_BUF_LEN` (R9) -/
  bufLen : Nat
  /-- `P_OUT_LEN` (R10) -/
  outLen : Nat
deriving DecidableEq, Repr

/-- This hardware's build: the defaults of R9, R10, R12 and R13. -/
def Build.default : Build := ⟨0, false, Config.maxBufLen, Config.maxOutLen⟩

/-- The response codes of the bus (R97, R110). -/
inductive Resp where
  | okay
  | error
deriving DecidableEq, Repr

/-- The response of one transaction: RESP and, for a read, RDATA (R110). -/
structure Response where
  resp : Resp
  rdata : Option Word
deriving DecidableEq, Repr

/-- What happens next to the block, chosen outside it: the total order of host transactions and micro-steps (R95, R261)
as plain data (log entry 1). -/
inductive Stimulus where
  /-- an encoded operation is presented: a host transaction, or, in phase DETECT, a class code or a detector selector
  (log entry 5), or the selector the sequencer itself would take -/
  | op (raw : RawOp)
  /-- the sequencer may perform its next micro-step -/
  | tick
  /-- the reset input `rst` is asserted and released (R330) -/
  | rst
deriving DecidableEq, Repr

/-- SAMPLE_RAM and OUT_RAM (R47, R48), by byte offset. `cells` holds the bytes written since their contents were last
unspecified, addresses strictly rising; an address it does not list has an unspecified byte (R332). `resets` counts
hardware resets and `forgets` lists the sample counts of the runs a soft reset abandoned since the latest of them: the
arguments of the free byte an unlisted address reads as (log entry 7). -/
structure Memory where
  cells : List Host.Cell
  resets : Nat
  forgets : List Nat
deriving DecidableEq, Repr

/-- The configuration registers, RW (R39, R43 to R46). The binary32 registers hold their pattern as written. -/
structure ConfigRegs where
  sampleCount : Word
  fsmCfg : Word
  /-- PLACEHOLDER.PCHAR; the register's other bits are reserved -/
  pchar : Byte
  gateFactor : Word
  normEps : Word
  noiseFloor : Word
  toneFloor : Word
  ratioThr : Word
  emphCoef : Word
  bpB0 : Word
  bpB1 : Word
  bpB2 : Word
  bpB3 : Word
  bpB4 : Word
  bpA1 : Word
  bpA2 : Word
  bpA3 : Word
  bpA4 : Word
deriving DecidableEq, Repr

/-- The flags of STATUS and ERR_CODE (R38, R61); STATUS.PHASE mirrors `SeqPos.phase`. -/
structure Status where
  busy : Bool
  done : Bool
  err : Bool
  outOvf : Bool
  errCode : BitVec 4
deriving DecidableEq, Repr

/-- The sequencer position (R52): the phase code of R117, the sample index and the window index. -/
structure SeqPos where
  phase : BitVec 3
  n : Nat
  j : Nat
deriving DecidableEq, Repr

/-- The preprocessor working registers (R53). -/
structure Work where
  sum : F32
  sumSq : F32
  mean : F32
  acc : F32
  std : F32
  rms : F32
  thr : F32
  gate : F32
  maxAbs : F32
  norm : Bool
deriving DecidableEq, Repr

/-- The band-pass delay line (R54). -/
structure DelayLine where
  x1 : F32
  x2 : F32
  x3 : F32
  x4 : F32
  y1 : F32
  y2 : F32
  y3 : F32
  y4 : F32
deriving DecidableEq, Repr

/-- The segmentation FSM registers (R56). -/
structure Fsm where
  lk : BitVec 4
  same : Byte
  press : Byte
  sil : Byte
  gap : Byte
  cool : Byte
deriving DecidableEq, Repr

/-- The model's own fields: the stimuli still to come, the response of the latest transaction, and the class code on the
detector's output. -/
structure Port where
  agenda : List Stimulus
  resp : Option Response
  cls : BitVec 4
deriving DecidableEq, Repr

/-- The state of DTMFDEC (R30). -/
structure State where
  build : Build
  /-- CTRL.IRQ_EN (R37) -/
  irqEn : Bool
  status : Status
  /-- OUT_COUNT (R40) -/
  outCount : Word
  /-- WIN_COUNT (R41) -/
  winCount : Word
  /-- ERR_INFO (R42) -/
  errInfo : Word
  cfg : ConfigRegs
  mem : Memory
  pos : SeqPos
  work : Work
  line : DelayLine
  fsm : Fsm
  port : Port
deriving DecidableEq, Repr

/-- The faults of the machine: model faults, which no legal state reaches. -/
inductive Fault where
  /-- `FSM_BAD_CLASS` (R116, R321): a class code 13 to 15 is presented to the FSM. Raised by the reserved class rows.
  Safe: no hardware path produces one. -/
  | fsmBadClass
  /-- `SEQ_BAD_PHASE` (R122, R321): phase code 7, a selector with no row, or a sub-operation of the detect loop presented
  outside phase DETECT. Raised by the step. Safe: the hardware never does it. -/
  | seqBadPhase
  /-- A sequencer access to a SAMPLE_RAM word beyond `P_BUF_LEN`, which does not exist (R47). Raised by the
  micro-operations that read a sample. Safe: an accepted START bounds every index (R264). -/
  | sampleIndex
deriving DecidableEq, Repr

/-- The refusals of the machine. -/
inductive Refusal where
  /-- An instruction with no meaning yet, by its mnemonic. Raised by `exec` alone. Safe. -/
  | notModelled (mnemonic : String)
  /-- CAPS.DETECTOR = 3: no build has it, the model refuses the configuration (R120, R122, R321, U13). Raised by every step
  of such a build, whatever it would perform, by SEQ_DETECT_STEP in one, and by the reserved detector row. Safe: the spec asks
  for the refusal. -/
  | noSuchBuild
  /-- The bytes presented are no encoded operation of R110 to R120. Raised by the step. Safe: no bus carries them. -/
  | badEncoding
deriving DecidableEq, Repr

/-- The configuration registers' reset values (R31, R39, R43 to R46). -/
def ConfigRegs.reset (b : Build) : ConfigRegs where
  sampleCount := 0
  fsmCfg := if b.halfStride then 0x00010303 else 0x00010304
  pchar := 0x3F
  gateFactor := 0x3F8CCCCD
  normEps := 0x358637BD
  noiseFloor := 0x40800000
  toneFloor := 0x40000000
  ratioThr := 0x3E800000
  emphCoef := 0x3F733333
  bpB0 := 0x3B3B7008
  bpB1 := 0x00000000
  bpB2 := 0xBBBB7008
  bpB3 := 0x00000000
  bpB4 := 0x3B3B7008
  bpA1 := 0xC073644F
  bpA2 := 0x40AED917
  bpA3 := 0xC060F875
  bpA4 := 0x3F5AC4C7

/-- STATUS after reset (R38). -/
def Status.reset : Status := ⟨false, false, false, false, 0⟩

/-- The sequencer position after reset (R52). -/
def SeqPos.reset : SeqPos := ⟨0, 0, 0⟩

/-- DESIGN CHOICE (log entry 9): R58 leaves the working registers unspecified after reset; here they are zero. -/
def Work.reset : Work := ⟨.zero, .zero, .zero, .zero, .zero, .zero, .zero, .zero, .zero, false⟩

/-- The delay line at zero: its value from SEQ_GATE_END on (R146), and, DESIGN CHOICE (log entry 9), after reset, where R58
leaves it unspecified. -/
def DelayLine.reset : DelayLine := ⟨.zero, .zero, .zero, .zero, .zero, .zero, .zero, .zero⟩

/-- The start state with COOL = 0 (R58, R221). -/
def Fsm.reset : Fsm := ⟨0, 0, 0, 0, 0, 0⟩

/-- The state after a hardware reset of a build (R58, R330), with no stimulus to come. -/
def State.resetOf (b : Build) : State where
  build := b
  irqEn := false
  status := .reset
  outCount := 0
  winCount := 0
  errInfo := 0
  cfg := .reset b
  mem := ⟨[], 0, []⟩
  pos := .reset
  work := .reset
  line := .reset
  fsm := .reset
  port := ⟨[], none, 0⟩

/-- This hardware right after reset (R330). -/
def State.reset : State := .resetOf .default

end Sys2Proof.Machine
end

