-- ==== Sys2Proof/Machine/Flags.lean ====
section
/-! DEFINITION. The status and control words and the interrupt output (R37, R38, R57). -/

namespace Sys2Proof.Machine

/-- STATUS as a read sees it: BUSY [0], DONE [1], ERR [2], OUT_OVF [3], ERR_CODE [7:4], PHASE [10:8] (R38). -/
def statusWord (s : State) : Word :=
  (0 : BitVec 21) ++ s.pos.phase ++ s.status.errCode ++ BitVec.ofBool s.status.outOvf ++ BitVec.ofBool s.status.err
    ++ BitVec.ofBool s.status.done ++ BitVec.ofBool s.status.busy

/-- CTRL as a read sees it: IRQ_EN [2]; START and SOFT_RESET read 0 (R37, R272). -/
def ctrlWord (s : State) : Word := (0 : BitVec 29) ++ BitVec.ofBool s.irqEn ++ (0 : BitVec 2)

/-- The `irq` output (R57, R312). -/
def State.irq (s : State) : Bool := s.irqEn && (s.status.done || s.status.err)

end Sys2Proof.Machine
end

