-- ==== Sys2Proof/Machine/Memory.lean ====
section
/-! DEFINITION. The byte memory behind SAMPLE_RAM and OUT_RAM (R47, R48, R90, R332). -/

namespace Sys2Proof.Machine

/-- Byte offset of SAMPLE_RAM word `n` (R82). -/
def sampleAddr (n : Nat) : Nat := Config.sampleBase + 4 * n

/-- Byte offset of OUT_RAM entry `i` (R83). -/
def outAddr (i : Nat) : Nat := Config.outBase + 4 * i

/-- The OUT_RAM region (R83). -/
def inOutRam (a : Nat) : Bool := 0x1000 ≤ a && a < 0x2000

/-- The SAMPLE_RAM region (R82). -/
def inSampleRam (a : Nat) : Bool := 0x400000 ≤ a && a < 0x800000

/-- The byte listed at an address, if one is. -/
def lookupCell : List Host.Cell → Nat → Option Byte
  | [], _ => none
  | c :: rest, a => if c.1 = a then some c.2 else lookupCell rest a

/-- The cells with one byte written, in rising order of addresses. -/
def insertCell (a : Nat) (b : Byte) : List Host.Cell → List Host.Cell
  | [] => [(a, b)]
  | c :: rest =>
    if a < c.1 then (a, b) :: c :: rest
    else if a = c.1 then (a, b) :: rest
    else c :: insertCell a b rest

/-- Whether a soft reset during a run over `n` samples makes the byte at `a` unspecified: SAMPLE_RAM words 0 to n−1 and
all of OUT_RAM (R332). -/
def forgotten (n a : Nat) : Bool := inOutRam a || (inSampleRam a && a < sampleAddr n)

/-- How often the byte at `a` became unspecified since the latest hardware reset. -/
def Memory.age (m : Memory) (a : Nat) : Nat := m.forgets.countP (fun n => forgotten n a)

/-- The byte an unlisted address reads as: a free value (R332, log entry 7). -/
def Memory.unspecified (m : Memory) (a : Nat) : Byte := Config.ramByte m.resets (m.age a) a

/-- The byte at an address. -/
def Memory.read (m : Memory) (a : Nat) : Byte := (lookupCell m.cells a).getD (m.unspecified a)

/-- One byte written. -/
def Memory.write (m : Memory) (a : Nat) (b : Byte) : Memory := { m with cells := insertCell a b m.cells }

/-- The word at a byte offset: offset +0 holds bits [7:0] (R90). -/
def Memory.readWord (m : Memory) (a : Nat) : Word :=
  m.read (a + 3) ++ m.read (a + 2) ++ m.read (a + 1) ++ m.read a

/-- One word written, its bits [7:0] at offset +0 (R90). -/
def Memory.writeWord (m : Memory) (a : Nat) (w : Word) : Memory :=
  (((m.write a (w.extractLsb' 0 8)).write (a + 1) (w.extractLsb' 8 8)).write (a + 2) (w.extractLsb' 16 8)).write (a + 3)
    (w.extractLsb' 24 8)

/-- RAM after a soft reset that abandons a run over `n` samples (R332). -/
def Memory.forget (m : Memory) (n : Nat) : Memory where
  cells := m.cells.filter (fun c => !forgotten n c.1)
  resets := m.resets
  forgets := n :: m.forgets

/-- RAM after a hardware reset: every byte is unspecified (R332). -/
def Memory.hardReset (m : Memory) : Memory := ⟨[], m.resets + 1, []⟩

/-- The canonical form: listed addresses rise strictly and lie in the two RAMs. -/
abbrev Memory.wf (m : Memory) : Prop :=
  m.cells.Pairwise (fun c d => c.1 < d.1) ∧ ∀ c ∈ m.cells, (inOutRam c.1 || inSampleRam c.1) = true

end Sys2Proof.Machine
end

