-- ==== Sys2Proof/Machine/Binary32.lean ====
section
/-! DEFINITION. `NUMERICS` = `BINARY32_SEQ` (R21, R22): each operation computes exactly over the integers and is rounded
once, to nearest, ties to even. Magnitudes count units of 2^(-149), the smallest subnormal. -/

namespace Sys2Proof

/-- The first magnitude past the binary32 range: 2^128, in units of 2^(-149). -/
def overflowMag : Nat := 2 ^ 277

/-- A quotient rounded to the nearest natural number, ties to even. -/
def roundHalfEven (num den : Nat) : Nat :=
  let m := num / den
  let r := num % den
  if den < 2 * r ∨ (2 * r = den ∧ m % 2 = 1) then m + 1 else m

/-- How many low bits a magnitude of the size of `num / den` has no room for in a 24-bit significand. -/
def quantumBits (num den : Nat) : Nat := Nat.log2 (num / den) - 23

/-- The magnitude `num / den`, rounded to 24 significant bits (fewer for subnormals), with no bound on the exponent. -/
def roundMag (num den : Nat) : Nat :=
  let q := quantumBits num den
  roundHalfEven num (den * 2 ^ q) * 2 ^ q

/-- The binary32 datum nearest to `num / den`, ties to even, with the sign `neg` (R21). -/
def roundF32 (neg : Bool) (num den : Nat) : F32 :=
  let mag := roundMag num den
  if overflowMag ≤ mag then .inf neg else .fin neg mag

/-- The exact integer a finite datum stands for, in units of 2^(-149). -/
def signedMag (neg : Bool) (mag : Nat) : Int := if neg then -(mag : Int) else mag

/-- `−x`: the sign bit is inverted; a NaN stays a NaN. -/
def F32.negate : F32 → F32
  | .nan => .nan
  | .inf s => .inf (!s)
  | .fin s m => .fin (!s) m

/-- `abs(x)` clears the sign bit (R22). -/
def F32.abs : F32 → F32
  | .nan => .nan
  | .inf _ => .inf false
  | .fin _ m => .fin false m

/-- `finite(x)` (R22). -/
def F32.isFinite : F32 → Bool
  | .fin _ _ => true
  | _ => false

/-- `x + y`. An exact zero sum is `+0.0` unless both operands are negative zeros. -/
def F32.add : F32 → F32 → F32
  | .nan, _ => .nan
  | _, .nan => .nan
  | .inf s, .inf t => if s = t then .inf s else .nan
  | .inf s, .fin _ _ => .inf s
  | .fin _ _, .inf t => .inf t
  | .fin s a, .fin t b =>
    let x := signedMag s a + signedMag t b
    if x = 0 then .fin (s && t) 0 else roundF32 (x < 0) x.natAbs 1

/-- `x − y`, which is `x + (−y)`. -/
def F32.sub (x y : F32) : F32 := F32.add x y.negate

/-- `x × y`. -/
def F32.mul : F32 → F32 → F32
  | .nan, _ => .nan
  | _, .nan => .nan
  | .inf s, .inf t => .inf (s ^^ t)
  | .inf s, .fin t b => if b = 0 then .nan else .inf (s ^^ t)
  | .fin s a, .inf t => if a = 0 then .nan else .inf (s ^^ t)
  | .fin s a, .fin t b => roundF32 (s ^^ t) (a * b) (2 ^ 149)

/-- `x ÷ y`. -/
def F32.div : F32 → F32 → F32
  | .nan, _ => .nan
  | _, .nan => .nan
  | .inf _, .inf _ => .nan
  | .inf s, .fin t _ => .inf (s ^^ t)
  | .fin s _, .inf t => .fin (s ^^ t) 0
  | .fin s a, .fin t b =>
    if b = 0 then (if a = 0 then .nan else .inf (s ^^ t)) else roundF32 (s ^^ t) (a * 2 ^ 149) b

/-- The largest `r + d` with `d < 2 ^ k`, `r + d` a sum of `r` and bits below `k`, whose square is at most `x`. -/
def isqrtBits : Nat → Nat → Nat → Nat
  | 0, _, r => r
  | k + 1, x, r => isqrtBits k x (if (r + 2 ^ k) * (r + 2 ^ k) ≤ x then r + 2 ^ k else r)

/-- The integer square root, rounded down, of a number below 2^428. -/
def isqrt (x : Nat) : Nat := isqrtBits 214 x 0

/-- `sqrt(x)`: the root is computed to its integer part, and one sticky half stands for a remainder, which lies far below
the bits that rounding looks at. -/
def F32.sqrt : F32 → F32
  | .nan => .nan
  | .inf false => .inf false
  | .inf true => .nan
  | .fin s 0 => .fin s 0
  | .fin true (_ + 1) => .nan
  | .fin false (m + 1) =>
    let x := (m + 1) * 2 ^ 149
    let r := isqrt x
    roundF32 false (if r * r = x then 2 * r else 2 * r + 1) 2

/-- A datum's place on the number line; a NaN has none. The two zeros are at one place. -/
def F32.place : F32 → Option Int
  | .nan => none
  | .inf s => some (signedMag s overflowMag)
  | .fin s m => some (signedMag s m)

/-- `x < y`, false when either operand is a NaN (R22). -/
def F32.lt (x y : F32) : Bool :=
  match x.place, y.place with
  | some a, some b => a < b
  | _, _ => false

/-- `x ≤ y`, false when either operand is a NaN (R22). -/
def F32.le (x y : F32) : Bool :=
  match x.place, y.place with
  | some a, some b => a ≤ b
  | _, _ => false

/-- `max(x, y)` on finite operands; `x` when they are equal (R22). -/
def F32.max (x y : F32) : F32 := if F32.lt x y then y else x

/-- `min(x, y)` on finite operands; `x` when they are equal (R22). -/
def F32.min (x y : F32) : F32 := if F32.lt y x then y else x

/-- `f(n)`, a natural number as a binary32 datum, exact for n ≤ 2^24 (R22; above that rounded, log entry 14). -/
def F32.ofNat (n : Nat) : F32 := roundF32 false (n * 2 ^ 149) 1

/-- The datum of a binary32 pattern: sign in bit 31, exponent in bits [30:23], fraction in bits [22:0] (R90). -/
def F32.ofBits (w : Word) : F32 :=
  let s := w.getLsbD 31
  let ex := (w.extractLsb' 23 8).toNat
  let fr := (w.extractLsb' 0 23).toNat
  if ex = 255 then (if fr = 0 then .inf s else .nan)
  else if ex = 0 then .fin s fr
  else .fin s ((2 ^ 23 + fr) * 2 ^ (ex - 1))

/-- The exponent and fraction bits of a magnitude: `e * 2^23 + m` for the magnitude `m * 2^e`, with m below 2^24 and at
least 2^23 unless e is 0. -/
def magBits (mag : Nat) : Nat :=
  let e := Nat.log2 mag - 23
  e * 2 ^ 23 + mag / 2 ^ e

/-- The binary32 pattern of a datum (R90). A NaN has no one pattern (U20, log entry 10). -/
def F32.toBits : F32 → Word
  | .nan => Config.nanPattern
  | .inf s => BitVec.ofNat 32 ((if s then 2 ^ 31 else 0) + 255 * 2 ^ 23)
  | .fin s m => BitVec.ofNat 32 ((if s then 2 ^ 31 else 0) + magBits m)

/-- A datum binary32 can hold: a finite magnitude is below 2^128 and has at most 24 significant bits. -/
def F32.representable : F32 → Bool
  | .fin _ m => m < overflowMag && m % 2 ^ (Nat.log2 m - 23) == 0
  | _ => true

end Sys2Proof
end

