-- ==== Sys2Proof/Machine/Rom.lean ====
section
/-! DEFINITION. The read-only tables (R49, R51): tone table, window functions, Goertzel coefficients, transform bins and
twiddles. Each entry is the binary32 number nearest to its formula (R23); cosines are evaluated to 2^(-120) in a fixed
point of 128 fraction bits (log entry 11). -/

namespace Sys2Proof.Rom

/-- One, in the fixed point of this file. -/
def one : Nat := 2 ^ 128

/-- 2π in fixed point, rounded down. -/
def twoPi : Nat := 0x6487ED5110B4611A62633145C06E0E689

/-- `1 − x²/((2i+1)(2i+2)) · (1 − x²/((2i+3)(2i+4)) · (…))`, `k` factors deep, for the square `x2` of an angle: the
cosine series, nested. -/
def cosSeries (x2 : Nat) : Nat → Nat → Nat
  | 0, _ => one
  | k + 1, i => one - x2 * cosSeries x2 k (i + 1) / (one * ((2 * i + 1) * (2 * i + 2)))

/-- `1 − x²/((2i+2)(2i+3)) · (…)`, `k` factors deep: the sine series divided by the angle, nested. -/
def sinSeries (x2 : Nat) : Nat → Nat → Nat
  | 0, _ => one
  | k + 1, i => one - x2 * sinSeries x2 k (i + 1) / (one * ((2 * i + 2) * (2 * i + 3)))

/-- The cosine of `2π · num / den` for an angle of at most an eighth turn. -/
def cosEighth (num den : Nat) : Nat :=
  let x := twoPi * num / den
  cosSeries (x * x / one) 20 0

/-- The sine of `2π · num / den` for an angle of at most an eighth turn. -/
def sinEighth (num den : Nat) : Nat :=
  let x := twoPi * num / den
  x * sinSeries (x * x / one) 20 0 / one

/-- The cosine of `2π · num / den` for an angle of at most a quarter turn. -/
def cosQuarter (num den : Nat) : Nat :=
  if 8 * num ≤ den then cosEighth num den else sinEighth (den - 4 * num) (4 * den)

/-- The cosine of `2π · num / den` in fixed point: reduced to one turn, then by symmetry to a quarter turn. -/
def cosTurn (num den : Nat) : Int :=
  let t := num % den
  let h := if 2 * t ≤ den then t else den - t
  if 4 * h ≤ den then (cosQuarter h den : Int) else -(cosQuarter (den - 2 * h) (2 * den) : Int)

/-- The binary32 number nearest to `v / scale` (R23), for a fixed-point `v`. -/
def nearest (v : Int) (scale : Nat) : F32 := roundF32 (v < 0) (v.natAbs * 2 ^ 21) scale

/-- HAMMING[n], nearest 0.54 − 0.46·cos(2πn/2204) (R175). -/
def hamming (n : Nat) : F32 :=
  nearest (54 * (one : Int) - 46 * cosTurn n (Config.windowLength - 1)) 100

/-- HANN[n], nearest 0.5 − 0.5·cos(2πn/2204) (R185). -/
def hann (n : Nat) : F32 := nearest ((one : Int) - cosTurn n (Config.windowLength - 1)) 2

/-- GCOEF[f], nearest 2·cos(2πf/44100) (R176). -/
def gcoef (f : Nat) : F32 := nearest (2 * cosTurn f Config.sampleRate) 1

/-- COS_T[i], nearest cos(2πi/4096) (R187). -/
def cosT (i : Nat) : F32 := nearest (cosTurn i Config.transformSize) 1

/-- SIN_T[i], nearest sin(2πi/4096), the cosine three quarters of a turn on (R187). -/
def sinT (i : Nat) : F32 := nearest (cosTurn (4 * i + 3 * Config.transformSize) (4 * Config.transformSize)) 1

/-- The four low tone frequencies (R14, R49). -/
def low : List Nat := [697, 770, 852, 941]

/-- The three high tone frequencies (R14, R49). -/
def high : List Nat := [1209, 1336, 1477]

/-- The seven distinct tone frequencies (R49). -/
def freqs : List Nat := low ++ high

/-- The keys (R24). -/
def keys : List Nat := [1, 2, 3, 4, 5, 6, 7, 8, 9, 10, 11, 12]

/-- The place in `freqs` of a key's low frequency, low(k) = LOW[(k−1) div 3] (R14). -/
def lowIndex (k : Nat) : Nat := (k - 1) / 3

/-- The place in `freqs` of a key's high frequency, high(k) = HIGH[(k−1) mod 3] (R14). -/
def highIndex (k : Nat) : Nat := 4 + (k - 1) % 3

/-- BIN[f] = floor(f·4096/44100 + 1/2) (R186). -/
def bin (f : Nat) : Nat := (2 * f * Config.transformSize + Config.sampleRate) / (2 * Config.sampleRate)

end Sys2Proof.Rom
end

