-- ==== Sys2Proof/Machine/Operands.lean ====
section
/-! DEFINITION. The operands of the operations: register values as a read sees them, the fields of FSM_CFG, the window
count and the micro-operation selector, samples and windows, and the reverse symbol table. -/

namespace Sys2Proof.Machine

/-- `P_STRIDE` of a build (R12). -/
def Build.stride (b : Build) : Nat := if b.halfStride then Config.halfStride else Config.fullStride

/-- CAPS: DETECTOR [1:0], HALF_STRIDE [2] (R33). -/
def capsWord (b : Build) : Word := (0 : BitVec 29) ++ BitVec.ofBool b.halfStride ++ b.detector

/-- WIN_CFG: WIN_LEN [15:0], STRIDE [31:16] (R34), with the patterns R31, R34 and vector BUS-2 print. DEDUCED: they print
2205 as 0x08BD, which is 2237; a read answers the printed pattern, and a window has 2205 samples (log entry 13). -/
def winCfgWord (b : Build) : Word := (if b.halfStride then (0x044E : BitVec 16) else 0x08BD) ++ (0x08BD : BitVec 16)

/-- A register's value as a read sees it, reserved bits 0 (R31 to R46, R272). -/
def regValue (s : State) : Reg → Word
  | .id => Config.idWord
  | .caps => capsWord s.build
  | .winCfg => winCfgWord s.build
  | .bufLen => BitVec.ofNat 32 s.build.bufLen
  | .outLen => BitVec.ofNat 32 s.build.outLen
  | .ctrl => ctrlWord s
  | .status => statusWord s
  | .sampleCount => s.cfg.sampleCount
  | .outCount => s.outCount
  | .winCount => s.winCount
  | .errInfo => s.errInfo
  | .fsmCfg => s.cfg.fsmCfg
  | .placeholder => (0 : BitVec 24) ++ s.cfg.pchar
  | .gateFactor => s.cfg.gateFactor
  | .normEps => s.cfg.normEps
  | .noiseFloor => s.cfg.noiseFloor
  | .toneFloor => s.cfg.toneFloor
  | .ratioThr => s.cfg.ratioThr
  | .emphCoef => s.cfg.emphCoef
  | .bpB0 => s.cfg.bpB0
  | .bpB1 => s.cfg.bpB1
  | .bpB2 => s.cfg.bpB2
  | .bpB3 => s.cfg.bpB3
  | .bpB4 => s.cfg.bpB4
  | .bpA1 => s.cfg.bpA1
  | .bpA2 => s.cfg.bpA2
  | .bpA3 => s.cfg.bpA3
  | .bpA4 => s.cfg.bpA4

/-- FSM_CFG.CONFIRM (R43). -/
def State.confirm (s : State) : Byte := s.cfg.fsmCfg.extractLsb' 0 8

/-- FSM_CFG.PAUSE (R43). -/
def State.pause (s : State) : Byte := s.cfg.fsmCfg.extractLsb' 8 8

/-- FSM_CFG.GUARD (R43). -/
def State.guard (s : State) : Byte := s.cfg.fsmCfg.extractLsb' 16 8

/-- FSM_CFG.COOLDOWN (R43). -/
def State.cooldown (s : State) : Byte := s.cfg.fsmCfg.extractLsb' 24 8

/-- N, the sample count of a run (R39). -/
def State.total (s : State) : Nat := s.cfg.sampleCount.toNat

/-- The number of windows of a run over `n` samples (R171). -/
def windowCount (n stride : Nat) : Nat :=
  if n < Config.windowLength then 0 else (n - Config.windowLength) / stride + 1

/-- NW, the number of windows of the run (R171). -/
def State.windows (s : State) : Nat := windowCount s.total s.build.stride

/-- END of the micro-operation selector: the pass index has reached its limit; always 1 in FLUSH (R119). -/
def State.endFlag (s : State) : Bool :=
  match s.pos.phase.toNat with
  | 1 | 2 | 3 | 4 => s.pos.n == s.total
  | 5 => s.pos.j == s.windows
  | 6 => true
  | _ => false

/-- The micro-operation selector U = {phase, END} (R119). -/
def State.selector (s : State) : BitVec 4 := s.pos.phase ++ BitVec.ofBool s.endFlag

/-- SAMPLE_RAM word `n`, if it exists (R47). -/
def State.sample? (s : State) (n : Nat) : Option Word :=
  if n < s.build.bufLen then some (s.mem.readWord (sampleAddr n)) else none

/-- The window input x of window `j`, x[n] = S[j·P_STRIDE + n] (R171, R172). -/
def State.windowAt (s : State) (j : Nat) : List F32 :=
  (List.range Config.windowLength).map fun n => F32.ofBits (s.mem.readWord (sampleAddr (j * s.build.stride + n)))

/-- The window input of window `j`, if all its words exist (R47). -/
def State.window? (s : State) (j : Nat) : Option (List F32) :=
  if j * s.build.stride + Config.windowLength ≤ s.build.bufLen then some (s.windowAt j) else none

/-- The character codes an OPEN entry of `P_SYMTAB` may hold: ASCII printable characters that are no lower-case letters,
less "H" and "I", whose pairs are fixed (R15). -/
def openCodes : List Byte :=
  ((List.range 0x7F).filter fun c => 0x20 ≤ c && !(0x61 ≤ c && c ≤ 0x7A) && c != 0x48 && c != 0x49).map (BitVec.ofNat 8)

/-- SYMTAB (R15, R50): the inverse of the map from symbols to (key, presses). Two entries are fixed; the others are OPEN
(log entry 8). It is defined on keys 1 to 12 and press counts from 1 only. -/
def symtab (k : BitVec 4) (p : Byte) : Option Byte :=
  if k = 4 ∧ p = 3 then some 0x48
  else if k = 4 ∧ p = 4 then some 0x49
  else if k.toNat = 0 ∨ 12 < k.toNat ∨ p.toNat = 0 then none
  else openCodes.find? (fun c => Config.openSymbol c == some (k, p))

/-- An output entry {0, PRESSES, KEY, 0, UNMAPPED, CHAR}; the character is the symbol's or the placeholder (R118, R232,
R233, R236). -/
def outEntry (pchar : Byte) (k : BitVec 4) (p : Byte) : Word :=
  match symtab k p with
  | some code => (0 : BitVec 8) ++ p ++ k ++ (0 : BitVec 3) ++ (0 : BitVec 1) ++ code
  | none => (0 : BitVec 8) ++ p ++ k ++ (0 : BitVec 3) ++ (1 : BitVec 1) ++ pchar

end Sys2Proof.Machine
end

