-- ==== Sys2Proof/Machine/Ops.lean ====
section
/-! DEFINITION. The shared operations: bus responses and the busy gate, RAM writes, the START and reset actions, error entry
(the block's exception) and its acknowledgement, and the emission primitive. -/

namespace Sys2Proof.Machine

/-- What executing an instruction answers. -/
abbrev Result := Host.Outcome State Fault Refusal

/-! Bus responses (R97, R110). -/

/-- The transaction's one response. -/
def State.respond (s : State) (r : Response) : State := { s with port := { s.port with resp := some r } }

/-- OKAY with read data. -/
def State.readOkay (s : State) (v : Word) : State := s.respond ⟨.okay, some v⟩

/-- ERROR with read data 0: a refused read (R84, R92, R286). -/
def State.readError (s : State) : State := s.respond ⟨.error, some 0⟩

/-- OKAY of a write. -/
def State.writeOkay (s : State) : State := s.respond ⟨.okay, none⟩

/-- ERROR of a write: a refused write, the whole of its effect (R288). -/
def State.writeError (s : State) : State := s.respond ⟨.error, none⟩

/-- A refused transaction (R84, R270, R285). -/
def State.refuse (s : State) (we : Bool) : State := if we then s.writeError else s.readError

/-- A register write under the busy gate: stored while BUSY = 0, refused while BUSY = 1 (R286). -/
def State.gatedWrite (s : State) (stored : State) : State := if s.status.busy then s.writeError else stored.writeOkay

/-- A write of a configuration register (R277 to R280, R286). -/
def State.writeConfig (s : State) (cfg : ConfigRegs) : State := s.gatedWrite { s with cfg := cfg }

/-! RAM writes (R47, R48). -/

/-- SAMPLE_RAM word `n` written. -/
def State.setSample (s : State) (n : Nat) (w : Word) : State := { s with mem := s.mem.writeWord (sampleAddr n) w }

/-- OUT_RAM entry `i` written. -/
def State.setOut (s : State) (i : Nat) (w : Word) : State := { s with mem := s.mem.writeWord (outAddr i) w }

/-- The sequencer position moved to a phase, with pass index 0 (R265). -/
def State.enterPass (s : State) (phase : BitVec 3) : State := { s with pos := { s.pos with phase := phase, n := 0 } }

/-- The next sample of the pass (R141, R143, R145, R147). -/
def State.nextSample (s : State) : State := { s with pos := { s.pos with n := s.pos.n + 1 } }

/-! Errors (R301): the block's exception. -/

/-- E_COUNT (R302). -/
def errCount : BitVec 4 := 1

/-- E_SAMPLE (R304). -/
def errSample : BitVec 4 := 2

/-- E_STAT (R307). -/
def errStat : BitVec 4 := 3

/-- E_FILTER (R305). -/
def errFilter : BitVec 4 := 4

/-- E_DETECT (R306). -/
def errDetect : BitVec 4 := 5

/-- Error entry (R268, R303): ERR, ERR_CODE and ERR_INFO are written, BUSY is cleared and the phase is IDLE; the rest of
the micro-operation and the flush are not done. -/
def State.raise (s : State) (code : BitVec 4) (info : Nat) : State :=
  { s with
    status := { s.status with err := true, errCode := code, busy := false }
    errInfo := BitVec.ofNat 32 info
    pos := { s.pos with phase := 0 } }

/-- The acknowledgement of an ended run (R276, R309): DONE is cleared by one bit, ERR with ERR_CODE and ERR_INFO by the
other. -/
def State.acknowledge (s : State) (done err : Bool) : State :=
  { s with
    status := { s.status with
      done := if done then false else s.status.done
      err := if err then false else s.status.err
      errCode := if err then 0 else s.status.errCode }
    errInfo := if err then 0 else s.errInfo }

/-- Completion of a run (R267). -/
def State.complete (s : State) : State :=
  { s with
    status := { s.status with done := true, busy := false }
    pos := { s.pos with phase := 0 } }

/-! START and reset. -/

/-- A START refused for capacity, E_COUNT (R263, R264, R302). -/
def State.refuseStart (s : State) : State :=
  { s with
    status := { s.status with done := false, err := true, errCode := errCount }
    errInfo := s.cfg.sampleCount }

/-- A START accepted (R263): the run's flags, counters, FSM registers and sums are cleared; the phase is STATS, or FLUSH
when there is no sample. -/
def State.beginRun (s : State) : State :=
  { s with
    status := ⟨true, false, false, false, 0⟩
    errInfo := 0
    outCount := 0
    winCount := 0
    fsm := .reset
    work := { s.work with sum := .zero, sumSq := .zero }
    pos := ⟨if s.total = 0 then 6 else 1, 0, 0⟩ }

/-- The START action (R263). -/
def State.start (s : State) : State := if s.build.bufLen < s.total then s.refuseStart else s.beginRun

/-- The soft reset (R331): every register as after a hardware reset. RAM keeps its contents when the block is idle; a run
that is abandoned leaves its sample words and OUT_RAM unspecified (R332). The stimuli to come stay. -/
def State.softReset (s : State) : State :=
  { State.resetOf s.build with
    mem := if s.status.busy then s.mem.forget s.total else s.mem
    port := { s.port with cls := 0 } }

/-- The hardware reset (R330): every register at its reset value, RAM unspecified (R332). The stimuli to come stay. -/
def State.hardReset (s : State) : State :=
  { State.resetOf s.build with
    mem := s.mem.hardReset
    port := ⟨s.port.agenda, none, 0⟩ }

/-! Emission (R236). -/

/-- EMIT(k, p): the entry is written where OUT_COUNT points and OUT_COUNT goes up, or OUT_OVF is set when OUT_RAM is
full. -/
def State.emit (s : State) (k : BitVec 4) (p : Byte) : State :=
  if s.outCount.toNat < s.build.outLen then
    { s.setOut s.outCount.toNat (outEntry s.cfg.pchar k p) with outCount := s.outCount + 1 }
  else { s with status := { s.status with outOvf := true } }

end Sys2Proof.Machine
end

