-- ==== Sys2Proof/Machine/BusRead.lean ====
section
/-! DEFINITION. The read transactions: RD_<REG> for the 28 registers (R272), RD_SAMPLE (R281), RD_OUT (R283). -/

namespace Sys2Proof.Machine

/-- RD_<REG>: RDATA is the register's value, response OKAY whether BUSY is 0 or 1, no effect (R94, R272). -/
def readReg (s : State) (r : Reg) : Result := .next (s.readOkay (regValue s r))

/-- A RAM read of a word that exists if `ok`: refused while BUSY (R286) and beyond the RAM's size (R285). -/
def readRam (s : State) (ok : Bool) (w : Word) : Result :=
  .next (if s.status.busy || !ok then s.readError else s.readOkay w)

/-- RD_ID (R272). -/
def execRdId (s : State) : Result := readReg s .id

/-- RD_CAPS (R272). -/
def execRdCaps (s : State) : Result := readReg s .caps

/-- RD_WIN_CFG (R272). -/
def execRdWinCfg (s : State) : Result := readReg s .winCfg

/-- RD_BUF_LEN (R272). -/
def execRdBufLen (s : State) : Result := readReg s .bufLen

/-- RD_OUT_LEN (R272). -/
def execRdOutLen (s : State) : Result := readReg s .outLen

/-- RD_CTRL (R272). -/
def execRdCtrl (s : State) : Result := readReg s .ctrl

/-- RD_STATUS (R272). -/
def execRdStatus (s : State) : Result := readReg s .status

/-- RD_SAMPLE_COUNT (R272). -/
def execRdSampleCount (s : State) : Result := readReg s .sampleCount

/-- RD_OUT_COUNT (R272). -/
def execRdOutCount (s : State) : Result := readReg s .outCount

/-- RD_WIN_COUNT (R272). -/
def execRdWinCount (s : State) : Result := readReg s .winCount

/-- RD_ERR_INFO (R272). -/
def execRdErrInfo (s : State) : Result := readReg s .errInfo

/-- RD_FSM_CFG (R272). -/
def execRdFsmCfg (s : State) : Result := readReg s .fsmCfg

/-- RD_PLACEHOLDER (R272). -/
def execRdPlaceholder (s : State) : Result := readReg s .placeholder

/-- RD_GATE_FACTOR (R272). -/
def execRdGateFactor (s : State) : Result := readReg s .gateFactor

/-- RD_NORM_EPS (R272). -/
def execRdNormEps (s : State) : Result := readReg s .normEps

/-- RD_NOISE_FLOOR (R272). -/
def execRdNoiseFloor (s : State) : Result := readReg s .noiseFloor

/-- RD_TONE_FLOOR (R272). -/
def execRdToneFloor (s : State) : Result := readReg s .toneFloor

/-- RD_RATIO_THR (R272). -/
def execRdRatioThr (s : State) : Result := readReg s .ratioThr

/-- RD_EMPH_COEF (R272). -/
def execRdEmphCoef (s : State) : Result := readReg s .emphCoef

/-- RD_BP_B0 (R272). -/
def execRdBpB0 (s : State) : Result := readReg s .bpB0

/-- RD_BP_B1 (R272). -/
def execRdBpB1 (s : State) : Result := readReg s .bpB1

/-- RD_BP_B2 (R272). -/
def execRdBpB2 (s : State) : Result := readReg s .bpB2

/-- RD_BP_B3 (R272). -/
def execRdBpB3 (s : State) : Result := readReg s .bpB3

/-- RD_BP_B4 (R272). -/
def execRdBpB4 (s : State) : Result := readReg s .bpB4

/-- RD_BP_A1 (R272). -/
def execRdBpA1 (s : State) : Result := readReg s .bpA1

/-- RD_BP_A2 (R272). -/
def execRdBpA2 (s : State) : Result := readReg s .bpA2

/-- RD_BP_A3 (R272). -/
def execRdBpA3 (s : State) : Result := readReg s .bpA3

/-- RD_BP_A4 (R272). -/
def execRdBpA4 (s : State) : Result := readReg s .bpA4

/-- RD_SAMPLE (R281). -/
def execRdSample (n : BitVec 20) (s : State) : Result :=
  readRam s (n.toNat < s.build.bufLen) (s.mem.readWord (sampleAddr n.toNat))

/-- RD_OUT (R283): an entry at or above OUT_COUNT is read as it is. -/
def execRdOut (i : BitVec 10) (s : State) : Result :=
  readRam s (i.toNat < s.build.outLen) (s.mem.readWord (outAddr i.toNat))

end Sys2Proof.Machine
end

