-- ==== Sys2Proof/Machine/BusWrite.lean ====
section
/-! DEFINITION. The write transactions WR_<REG> (R273 to R280), WR_SAMPLE (R282), WR_OUT (R284), and the transactions no row
accepts, BUS_ILLEGAL (R270) and BUS_RESERVED (R285). -/

namespace Sys2Proof.Machine

/-- A write the block never performs: no effect, response ERROR (R273, R284, R288). -/
def refuseWrite (s : State) : Result := .next s.writeError

/-- BUS_ILLEGAL (R270). -/
def execBusIllegal (we : Bool) (_addr : BitVec 24) (_size : Size) (_wdata : Word) (s : State) : Result :=
  .next (s.refuse we)

/-- BUS_RESERVED (R285): the same whether BUSY is 0 or 1. -/
def execBusReserved (we : Bool) (_addr : BitVec 24) (_wdata : Word) (s : State) : Result := .next (s.refuse we)

/-- WR_ID: read-only (R273). -/
def execWrId (_wdata : Word) (s : State) : Result := refuseWrite s

/-- WR_CAPS: read-only (R273). -/
def execWrCaps (_wdata : Word) (s : State) : Result := refuseWrite s

/-- WR_WIN_CFG: read-only (R273). -/
def execWrWinCfg (_wdata : Word) (s : State) : Result := refuseWrite s

/-- WR_BUF_LEN: read-only (R273). -/
def execWrBufLen (_wdata : Word) (s : State) : Result := refuseWrite s

/-- WR_OUT_LEN: read-only (R273). -/
def execWrOutLen (_wdata : Word) (s : State) : Result := refuseWrite s

/-- WR_CTRL (R274): SOFT_RESET (WDATA[1]) first; a START (WDATA[0]) while busy is refused whole; else IRQ_EN is WDATA[2] and
START acts. -/
def execWrCtrl (wdata : Word) (s : State) : Result :=
  if wdata.getLsbD 1 then .next s.softReset.writeOkay
  else if wdata.getLsbD 0 && s.status.busy then .next s.writeError
  else
    let s := { s with irqEn := wdata.getLsbD 2 }
    .next (if wdata.getLsbD 0 then s.start.writeOkay else s.writeOkay)

/-- WR_STATUS (R276): WDATA[1] acknowledges DONE, WDATA[2] acknowledges ERR; the other bits are ignored. -/
def execWrStatus (wdata : Word) (s : State) : Result :=
  .next (s.gatedWrite (s.acknowledge (wdata.getLsbD 1) (wdata.getLsbD 2)))

/-- WR_SAMPLE_COUNT (R277): any value is stored; the range is checked at START. -/
def execWrSampleCount (wdata : Word) (s : State) : Result := .next (s.writeConfig { s.cfg with sampleCount := wdata })

/-- WR_OUT_COUNT: read-only (R273). -/
def execWrOutCount (_wdata : Word) (s : State) : Result := refuseWrite s

/-- WR_WIN_COUNT: read-only (R273). -/
def execWrWinCount (_wdata : Word) (s : State) : Result := refuseWrite s

/-- WR_ERR_INFO: read-only (R273). -/
def execWrErrInfo (_wdata : Word) (s : State) : Result := refuseWrite s

/-- WR_FSM_CFG (R278): CONFIRM, PAUSE, GUARD and COOLDOWN are the four bytes of WDATA. -/
def execWrFsmCfg (wdata : Word) (s : State) : Result := .next (s.writeConfig { s.cfg with fsmCfg := wdata })

/-- WR_PLACEHOLDER (R279): PCHAR is WDATA[7:0]. -/
def execWrPlaceholder (wdata : Word) (s : State) : Result :=
  .next (s.writeConfig { s.cfg with pchar := wdata.extractLsb' 0 8 })

/-- WR_GATE_FACTOR: the pattern is stored unchanged (R280). -/
def execWrGateFactor (wdata : Word) (s : State) : Result :=
  .next (s.writeConfig { s.cfg with gateFactor := wdata })

/-- WR_NORM_EPS: the pattern is stored unchanged (R280). -/
def execWrNormEps (wdata : Word) (s : State) : Result :=
  .next (s.writeConfig { s.cfg with normEps := wdata })

/-- WR_NOISE_FLOOR: the pattern is stored unchanged (R280). -/
def execWrNoiseFloor (wdata : Word) (s : State) : Result :=
  .next (s.writeConfig { s.cfg with noiseFloor := wdata })

/-- WR_TONE_FLOOR: the pattern is stored unchanged (R280). -/
def execWrToneFloor (wdata : Word) (s : State) : Result :=
  .next (s.writeConfig { s.cfg with toneFloor := wdata })

/-- WR_RATIO_THR: the pattern is stored unchanged (R280). -/
def execWrRatioThr (wdata : Word) (s : State) : Result :=
  .next (s.writeConfig { s.cfg with ratioThr := wdata })

/-- WR_EMPH_COEF: the pattern is stored unchanged (R280). -/
def execWrEmphCoef (wdata : Word) (s : State) : Result :=
  .next (s.writeConfig { s.cfg with emphCoef := wdata })

/-- WR_BP_B0: the pattern is stored unchanged (R280). -/
def execWrBpB0 (wdata : Word) (s : State) : Result :=
  .next (s.writeConfig { s.cfg with bpB0 := wdata })

/-- WR_BP_B1: the pattern is stored unchanged (R280). -/
def execWrBpB1 (wdata : Word) (s : State) : Result :=
  .next (s.writeConfig { s.cfg with bpB1 := wdata })

/-- WR_BP_B2: the pattern is stored unchanged (R280). -/
def execWrBpB2 (wdata : Word) (s : State) : Result :=
  .next (s.writeConfig { s.cfg with bpB2 := wdata })

/-- WR_BP_B3: the pattern is stored unchanged (R280). -/
def execWrBpB3 (wdata : Word) (s : State) : Result :=
  .next (s.writeConfig { s.cfg with bpB3 := wdata })

/-- WR_BP_B4: the pattern is stored unchanged (R280). -/
def execWrBpB4 (wdata : Word) (s : State) : Result :=
  .next (s.writeConfig { s.cfg with bpB4 := wdata })

/-- WR_BP_A1: the pattern is stored unchanged (R280). -/
def execWrBpA1 (wdata : Word) (s : State) : Result :=
  .next (s.writeConfig { s.cfg with bpA1 := wdata })

/-- WR_BP_A2: the pattern is stored unchanged (R280). -/
def execWrBpA2 (wdata : Word) (s : State) : Result :=
  .next (s.writeConfig { s.cfg with bpA2 := wdata })

/-- WR_BP_A3: the pattern is stored unchanged (R280). -/
def execWrBpA3 (wdata : Word) (s : State) : Result :=
  .next (s.writeConfig { s.cfg with bpA3 := wdata })

/-- WR_BP_A4: the pattern is stored unchanged (R280). -/
def execWrBpA4 (wdata : Word) (s : State) : Result :=
  .next (s.writeConfig { s.cfg with bpA4 := wdata })

/-- WR_SAMPLE (R282): any pattern is stored, if the word exists. -/
def execWrSample (n : BitVec 20) (wdata : Word) (s : State) : Result :=
  .next (if n.toNat < s.build.bufLen then s.gatedWrite (s.setSample n.toNat wdata) else s.writeError)

/-- WR_OUT (R284): refused always. -/
def execWrOut (_i : BitVec 10) (_wdata : Word) (s : State) : Result := refuseWrite s

end Sys2Proof.Machine
end

