-- ==== Sys2Proof/Machine/Segmentation.lean ====
section
/-! DEFINITION. The segmentation state machine (R220 to R236): the per-window step of every class code and the end-of-buffer
flush. -/

namespace Sys2Proof.Machine

/-- `sat8(v + 1)` (R19, R235). -/
def satInc (v : Byte) : Byte := if v = 255 then 255 else v + 1

/-- RESET_TO_START (R221): COOL is left alone. -/
def Fsm.toStart (f : Fsm) : Fsm := { Fsm.reset with cool := f.cool }

/-- Whether a detection lies within the guard interval, for GAP after its increment (R225). -/
def guarded (gap guard : Byte) : Bool := gap != 0 && gap.toNat - 1 ≤ guard.toNat

/-- FSM_STEP_KEY(k), behind the cooldown test (R223 to R227). -/
def Fsm.keyStep (f : Fsm) (guard : Byte) (k : BitVec 4) : Fsm :=
  let gap := if f.gap = 0 then 0 else satInc f.gap
  if f.lk = 0 then { f with lk := k, same := 1, press := 0, sil := 0, gap := gap }
  else if k = f.lk then { f with same := satInc f.same, sil := 0, gap := gap }
  else if guarded gap guard then { f with same := satInc f.same, sil := 0, gap := gap }
  else { f with lk := k, same := 1, press := 0, sil := 0, gap := gap }

/-- The counters after a silent window, before the pause test (R227 to R229). -/
def Fsm.silenceCount (f : Fsm) (confirm : Byte) : Fsm :=
  { f with
    gap := if f.sil = 0 then 1 else satInc f.gap
    sil := satInc f.sil
    press := if confirm.toNat ≤ f.same.toNat then satInc f.press else f.press
    same := 0 }

/-- FSM_STEP_SILENCE, behind the cooldown test (R228 to R230): a pause ends the letter, which is emitted if a press is
confirmed. -/
def State.silenceStep (s : State) : State :=
  let f := s.fsm.silenceCount s.confirm
  if s.pause.toNat ≤ f.sil.toNat ∧ f.lk ≠ 0 then
    if f.press ≠ 0 then { s.emit f.lk f.press with fsm := { f.toStart with cool := s.cooldown } }
    else { s with fsm := f.toStart }
  else { s with fsm := f }

/-- FSM_STEP(cls) (R222): a running cooldown takes the window (R234). -/
def State.fsmStep (s : State) (cls : BitVec 4) : State :=
  if s.fsm.cool ≠ 0 then { s with fsm := { s.fsm with cool := s.fsm.cool - 1 } }
  else if cls ≠ 0 then { s with fsm := s.fsm.keyStep s.guard cls }
  else s.silenceStep

/-- A class code presented to the FSM: 13 to 15 are the model fault `FSM_BAD_CLASS` (R116, R222). -/
def presentClass (cls : BitVec 4) (s : State) : Result :=
  if 12 < cls.toNat then .fault .fsmBadClass else .next (s.fsmStep cls)

/-- FSM_STEP_SILENCE (R228). -/
def execFsmStepSilence (s : State) : Result := presentClass 0 s

/-- FSM_STEP_KEY_1 (R223). -/
def execFsmStepKey1 (s : State) : Result := presentClass 1 s

/-- FSM_STEP_KEY_2 (R223). -/
def execFsmStepKey2 (s : State) : Result := presentClass 2 s

/-- FSM_STEP_KEY_3 (R223). -/
def execFsmStepKey3 (s : State) : Result := presentClass 3 s

/-- FSM_STEP_KEY_4 (R223). -/
def execFsmStepKey4 (s : State) : Result := presentClass 4 s

/-- FSM_STEP_KEY_5 (R223). -/
def execFsmStepKey5 (s : State) : Result := presentClass 5 s

/-- FSM_STEP_KEY_6 (R223). -/
def execFsmStepKey6 (s : State) : Result := presentClass 6 s

/-- FSM_STEP_KEY_7 (R223). -/
def execFsmStepKey7 (s : State) : Result := presentClass 7 s

/-- FSM_STEP_KEY_8 (R223). -/
def execFsmStepKey8 (s : State) : Result := presentClass 8 s

/-- FSM_STEP_KEY_9 (R223). -/
def execFsmStepKey9 (s : State) : Result := presentClass 9 s

/-- FSM_STEP_KEY_10 (R223). -/
def execFsmStepKey10 (s : State) : Result := presentClass 10 s

/-- FSM_STEP_KEY_11 (R223). -/
def execFsmStepKey11 (s : State) : Result := presentClass 11 s

/-- FSM_STEP_KEY_12 (R223). -/
def execFsmStepKey12 (s : State) : Result := presentClass 12 s

/-- CLS_RESERVED_13 (R116). -/
def execClsReserved13 (s : State) : Result := presentClass 13 s

/-- CLS_RESERVED_14_15 (R116). -/
def execClsReserved1415 (low : Bool) (s : State) : Result := presentClass ((7 : BitVec 3) ++ BitVec.ofBool low) s

/-- The presses the flush counts: the final run counts if it met CONFIRM (R231). -/
def State.flushPresses (s : State) : Byte :=
  if s.confirm.toNat ≤ s.fsm.same.toNat then satInc s.fsm.press else s.fsm.press

/-- The flush emission, if a pending letter has a press (R231). -/
def State.flushEmit (s : State) : State :=
  if s.fsm.lk ≠ 0 ∧ s.flushPresses ≠ 0 then s.emit s.fsm.lk s.flushPresses else s

/-- SEQ_FLUSH (R231): the pending letter is flushed, the FSM returns to its start state with COOL = 0, the run completes. -/
def execSeqFlush (s : State) : Result := .next ({ s.flushEmit with fsm := .reset }.complete)

end Sys2Proof.Machine
end

