-- ==== Sys2Proof/Machine/Detector.lean ====
section
/-! DEFINITION. The frequency detector (R170 to R198): the three classification operations and the detect loop. -/

namespace Sys2Proof.Machine

/-! Goertzel magnitudes. -/

/-- The recursion's two registers s1 and s2 from sample index `n` on (R177). -/
def goertzel (c : F32) : Nat → F32 → F32 → List F32 → F32 × F32
  | _, s1, s2, [] => (s1, s2)
  | n, s1, s2, x :: rest =>
    goertzel c (n + 1) (((x.mul (Rom.hamming n)).add (c.mul s1)).sub s2) s1 rest

/-- The Goertzel power of the final registers (R178). -/
def goertzelPower (c s1 s2 : F32) : F32 :=
  ((s1.mul s1).add (s2.mul s2)).sub ((c.mul s1).mul s2)

/-- The Goertzel magnitude of frequency `f` over a window; a negative power counts as zero (R178). -/
def toneMag (x : List F32) (f : Nat) : F32 :=
  let c := Rom.gcoef f
  let r := goertzel c 0 .zero .zero x
  let t := goertzelPower c r.1 r.2
  if F32.lt t .zero then .zero else t.sqrt

/-- An entry of a list of magnitudes, by its place. -/
def magAt (m : List F32) (i : Nat) : F32 := m.getD i .nan

/-- KMAG(k) = mag(low(k)) + mag(high(k)), from the magnitudes of the seven frequencies (R179). -/
def toneKeyMag (m : List F32) (k : Nat) : F32 := (magAt m (Rom.lowIndex k)).add (magAt m (Rom.highIndex k))

/-! Spectral magnitudes. -/

/-- The real and imaginary sums of bin `b` from sample index `n` on (R188). -/
def dft (b : Nat) : Nat → F32 → F32 → List F32 → F32 × F32
  | _, re, im, [] => (re, im)
  | n, re, im, x :: rest =>
    let xw := x.mul (Rom.hann n)
    let i := (b * n) % Config.transformSize
    dft b (n + 1) (re.add (xw.mul (Rom.cosT i))) (im.sub (xw.mul (Rom.sinT i))) rest

/-- bmag(b), the magnitude of bin `b` (R188). -/
def binMag (x : List F32) (b : Nat) : F32 :=
  let r := dft b 0 .zero .zero x
  ((r.1.mul r.1).add (r.2.mul r.2)).sqrt

/-- The bins a frequency uses: its own and its two neighbours (R186). -/
def binsOf (f : Nat) : List Nat := [Rom.bin f - 1, Rom.bin f, Rom.bin f + 1]

/-- The 21 bins (R186). -/
def allBins : List Nat := Rom.freqs.flatMap binsOf

/-- KMAG(k): `+0.0` plus the six bin magnitudes, low tone first (R189), from the 21 bin magnitudes. -/
def binKeyMag (m : List F32) (k : Nat) : F32 :=
  let l := 3 * Rom.lowIndex k
  let h := 3 * Rom.highIndex k
  [l, l + 1, l + 2, h, h + 1, h + 2].foldl (fun v i => v.add (magAt m i)) .zero

/-! The decision. -/

/-- K[k] of a list of the twelve key magnitudes. -/
def keyMagAt (ks : List F32) (k : Nat) : F32 := magAt ks (k - 1)

/-- Maximum selection over keys 2 to 12: a later key wins only if its magnitude is strictly greater (R192). -/
def bestKey (ks : List F32) : Nat :=
  (Rom.keys.drop 1).foldl (fun best k => if F32.lt (keyMagAt ks best) (keyMagAt ks k) then k else best) 1

/-- Whether every magnitude of a window is finite (R194). -/
def allFinite (ms : List F32) : Bool := ms.all F32.isFinite

/-- The decision common to the variants (R192 to R194), from the tone or bin magnitudes and the key magnitudes: `none`
when one is not finite, class 0 under the noise floor, else the best key if it passes the variant's own test. -/
def decideClass (m ks : List F32) (floor : F32) (accept : Nat → Bool) : Option (BitVec 4) :=
  if allFinite m && allFinite ks then
    let best := bestKey ks
    some (if F32.lt (keyMagAt ks best) floor then 0 else if accept best then BitVec.ofNat 4 best else 0)
  else none

/-- The strict variant's tests on the best key's tone magnitudes (R181): both reach the tone floor, the larger is not 0,
and their ratio is above the threshold. A comparison with a NaN is false, and then its test rejects nothing. -/
def balanced (ml mh toneFloor ratioThr : F32) : Bool :=
  let mx := F32.max ml mh
  let mn := F32.min ml mh
  !(F32.lt ml toneFloor || F32.lt mh toneFloor) && mx.place != some 0 && !F32.le (mn.div mx) ratioThr

/-- DET_CLASSIFY of the Goertzel variant over a window (R180). -/
def classifyGoertzel (x : List F32) (floor : F32) : Option (BitVec 4) :=
  let m := Rom.freqs.map (toneMag x)
  decideClass m (Rom.keys.map (toneKeyMag m)) floor fun _ => true

/-- DET_CLASSIFY of the strict Goertzel variant over a window (R181). -/
def classifyStrict (x : List F32) (floor toneFloor ratioThr : F32) : Option (BitVec 4) :=
  let m := Rom.freqs.map (toneMag x)
  decideClass m (Rom.keys.map (toneKeyMag m)) floor fun k =>
    balanced (magAt m (Rom.lowIndex k)) (magAt m (Rom.highIndex k)) toneFloor ratioThr

/-- DET_CLASSIFY of the spectral variant over a window (R190). -/
def classifySpectral (x : List F32) (floor : F32) : Option (BitVec 4) :=
  let m := allBins.map (binMag x)
  decideClass m (Rom.keys.map (binKeyMag m)) floor fun _ => true

/-- DET_CLASSIFY_GOERTZEL under the calibration registers. -/
def goertzelClass (s : State) (x : List F32) : Option (BitVec 4) := classifyGoertzel x (.ofBits s.cfg.noiseFloor)

/-- DET_CLASSIFY_GOERTZEL_STRICT under the calibration registers. -/
def strictClass (s : State) (x : List F32) : Option (BitVec 4) :=
  classifyStrict x (.ofBits s.cfg.noiseFloor) (.ofBits s.cfg.toneFloor) (.ofBits s.cfg.ratioThr)

/-- DET_CLASSIFY_SPECTRAL under the calibration registers. -/
def spectralClass (s : State) (x : List F32) : Option (BitVec 4) := classifySpectral x (.ofBits s.cfg.noiseFloor)

/-- The classification operation a detector selector stands for; 3 is no build (R120). -/
def detectorOf (d : BitVec 2) : Option (State → List F32 → Option (BitVec 4)) :=
  if d = 0 then some goertzelClass
  else if d = 1 then some strictClass
  else if d = 2 then some spectralClass
  else none

/-! The operations. -/

/-- A classification of window j by `classify`, and what follows when a class code came out; a non-finite magnitude raises
E_DETECT(j) (R194). -/
def classifyWindow (s : State) (classify : State → List F32 → Option (BitVec 4)) (act : BitVec 4 → State → Result) :
    Result :=
  match s.window? s.pos.j with
  | none => .fault .sampleIndex
  | some x =>
    match classify s x with
    | none => .next (s.raise errDetect s.pos.j)
    | some c => act c { s with port := { s.port with cls := c } }

/-- A classification alone: its result stands on the detector's output (R195, log entry 5). DESIGN CHOICE (log entry 5): it
classifies the 2205 words from j·`P_STRIDE` on whatever the build's own detector is, and also when j = NW, where R171 has no
window of the run. -/
def classifyOnly (s : State) (classify : State → List F32 → Option (BitVec 4)) : Result :=
  classifyWindow s classify fun _ t => .next t

/-- DET_CLASSIFY_GOERTZEL (R180). -/
def execDetClassifyGoertzel (s : State) : Result := classifyOnly s goertzelClass

/-- DET_CLASSIFY_GOERTZEL_STRICT (R181). -/
def execDetClassifyGoertzelStrict (s : State) : Result := classifyOnly s strictClass

/-- DET_CLASSIFY_SPECTRAL (R190). -/
def execDetClassifySpectral (s : State) : Result := classifyOnly s spectralClass

/-- DET_RESERVED: no build has it, the configuration is refused (R120). -/
def execDetReserved (_s : State) : Result := .refused .noSuchBuild

/-- The next window of the run: WIN_COUNT = j + 1 and j = j + 1 (R196). -/
def State.nextWindow (s : State) : State :=
  { s with winCount := BitVec.ofNat 32 (s.pos.j + 1), pos := { s.pos with j := s.pos.j + 1 } }

/-- The FSM step of a classified window, and the next window (R196). -/
def stepWindow (c : BitVec 4) (s : State) : Result :=
  match presentClass c s with
  | .next t => .next t.nextWindow
  | r => r

/-- SEQ_DETECT_STEP (R196): window j is classified by the build's detector and stepped through the FSM. -/
def execSeqDetectStep (s : State) : Result :=
  match detectorOf s.build.detector with
  | none => .refused .noSuchBuild
  | some classify => classifyWindow s classify stepWindow

/-- SEQ_DETECT_END (R197). -/
def execSeqDetectEnd (s : State) : Result := .next { s with pos := { s.pos with phase := 6 } }

end Sys2Proof.Machine
end

