-- ==== Sys2Proof/Machine/Preprocessor.lean ====
section
/-! DEFINITION. The signal preprocessor (R140 to R156): the micro-operations of the passes STATS, VAR, GATE and FILTER. -/

namespace Sys2Proof.Machine

/-- A micro-operation over the pass's sample S[n] (R141, R143, R145, R147). -/
def withSample (s : State) (act : Word → State) : Result :=
  match s.sample? s.pos.n with
  | none => .fault .sampleIndex
  | some w => .next (act w)

/-- SEQ_STATS_STEP (R141). -/
def execSeqStatsStep (s : State) : Result :=
  withSample s fun w =>
    let v := F32.ofBits w
    if v.isFinite then
      { s with work := { s.work with sum := s.work.sum.add v, sumSq := s.work.sumSq.add (v.mul v) } }.nextSample
    else s.raise errSample s.pos.n

/-- SEQ_STATS_END (R142). -/
def execSeqStatsEnd (s : State) : Result :=
  .next <|
    if s.work.sum.isFinite && s.work.sumSq.isFinite then
      { s with work := { s.work with mean := s.work.sum.div (.ofNat s.total), acc := .zero } }.enterPass 2
    else s.raise errStat 0

/-- SEQ_VAR_STEP (R143). -/
def execSeqVarStep (s : State) : Result :=
  withSample s fun w =>
    let d := (F32.ofBits w).sub s.work.mean
    { s with work := { s.work with acc := s.work.acc.add (d.mul d) } }.nextSample

/-- STD, RMS, THR and GATE of the buffer (R144): THR = MEAN + GATE_FACTOR × STD, GATE = RMS × THR. -/
def State.gateLevel (s : State) : Work :=
  let std := (s.work.acc.div (.ofNat s.total)).sqrt
  let rms := (s.work.sumSq.div (.ofNat s.total)).sqrt
  let thr := s.work.mean.add ((F32.ofBits s.cfg.gateFactor).mul std)
  { s.work with std := std, rms := rms, thr := thr, gate := rms.mul thr }

/-- SEQ_VAR_END (R144). When THR or GATE is not finite, the registers written before the test keep their new values
(log entry 19). -/
def execSeqVarEnd (s : State) : Result :=
  .next <|
    if s.work.acc.isFinite then
      let w := s.gateLevel
      if w.thr.isFinite && w.gate.isFinite then { s with work := { w with maxAbs := .zero } }.enterPass 3
      else { s with work := w }.raise errStat 0
    else s.raise errStat 0

/-- The gated sample: `+0.0` when its absolute value is under the gate level, else its pattern as it is (R145). -/
def gateSample (gate : F32) (w : Word) : Word := if F32.lt (F32.ofBits w).abs gate then 0 else w

/-- SEQ_GATE_STEP (R145). -/
def execSeqGateStep (s : State) : Result :=
  withSample s fun w =>
    let v := gateSample s.work.gate w
    let a := (F32.ofBits v).abs
    let s := s.setSample s.pos.n v
    { s with work := { s.work with maxAbs := if F32.lt s.work.maxAbs a then a else s.work.maxAbs } }.nextSample

/-- SEQ_GATE_END (R146). -/
def execSeqGateEnd (s : State) : Result :=
  .next ({ s with
    work := { s.work with norm := !F32.lt s.work.maxAbs (F32.ofBits s.cfg.normEps) }
    line := .reset }.enterPass 4)

/-- The normalization sub-operation (R148). -/
def State.normalized (s : State) (w : Word) : F32 :=
  if s.work.norm then (F32.ofBits w).div s.work.maxAbs else F32.ofBits w

/-- The band-pass sub-operation, Direct Form I, in the order of R147 (R149). -/
def State.bandPass (s : State) (u : F32) : F32 :=
  let c := s.cfg
  let l := s.line
  let y := (F32.ofBits c.bpB0).mul u
  let y := (y.add ((F32.ofBits c.bpB1).mul l.x1)).add ((F32.ofBits c.bpB2).mul l.x2)
  let y := (y.add ((F32.ofBits c.bpB3).mul l.x3)).add ((F32.ofBits c.bpB4).mul l.x4)
  let y := (y.sub ((F32.ofBits c.bpA1).mul l.y1)).sub ((F32.ofBits c.bpA2).mul l.y2)
  (y.sub ((F32.ofBits c.bpA3).mul l.y3)).sub ((F32.ofBits c.bpA4).mul l.y4)

/-- The pre-emphasis sub-operation, on the band-pass output (R150). -/
def State.emphasis (s : State) (y : F32) : F32 := y.sub ((F32.ofBits s.cfg.emphCoef).mul s.line.y1)

/-- The delay line shifted by one sample (R147). -/
def DelayLine.shift (l : DelayLine) (u y : F32) : DelayLine := ⟨u, l.x1, l.x2, l.x3, y, l.y1, l.y2, l.y3⟩

/-- SEQ_FILTER_STEP (R147): normalization, band-pass and pre-emphasis of one sample, written back in place. -/
def execSeqFilterStep (s : State) : Result :=
  withSample s fun w =>
    let u := s.normalized w
    let y := s.bandPass u
    let e := s.emphasis y
    if e.isFinite then
      let s := s.setSample s.pos.n e.toBits
      { s with line := s.line.shift u y }.nextSample
    else s.raise errFilter s.pos.n

/-- SEQ_FILTER_END (R151), with n = 0 as R265 says (log entry 12). -/
def execSeqFilterEnd (s : State) : Result := .next { s with pos := ⟨5, 0, 0⟩ }

end Sys2Proof.Machine
end

