-- ==== Sys2Proof/Machine/Dispatch.lean ====
section
/-! DEFINITION. The dispatch of an instruction to its meaning, one arm per row of the opcode table. -/

namespace Sys2Proof.Machine

def exec (i : Instr) (s : State) : Host.Outcome State Fault Refusal :=
  match i with
  | .busIllegal we addr size wdata => Sys2Proof.Machine.execBusIllegal we addr size wdata s
  | .rdId => Sys2Proof.Machine.execRdId s
  | .wrId wdata => Sys2Proof.Machine.execWrId wdata s
  | .rdCaps => Sys2Proof.Machine.execRdCaps s
  | .wrCaps wdata => Sys2Proof.Machine.execWrCaps wdata s
  | .rdWinCfg => Sys2Proof.Machine.execRdWinCfg s
  | .wrWinCfg wdata => Sys2Proof.Machine.execWrWinCfg wdata s
  | .rdBufLen => Sys2Proof.Machine.execRdBufLen s
  | .wrBufLen wdata => Sys2Proof.Machine.execWrBufLen wdata s
  | .rdOutLen => Sys2Proof.Machine.execRdOutLen s
  | .wrOutLen wdata => Sys2Proof.Machine.execWrOutLen wdata s
  | .rdCtrl => Sys2Proof.Machine.execRdCtrl s
  | .wrCtrl wdata => Sys2Proof.Machine.execWrCtrl wdata s
  | .rdStatus => Sys2Proof.Machine.execRdStatus s
  | .wrStatus wdata => Sys2Proof.Machine.execWrStatus wdata s
  | .rdSampleCount => Sys2Proof.Machine.execRdSampleCount s
  | .wrSampleCount wdata => Sys2Proof.Machine.execWrSampleCount wdata s
  | .rdOutCount => Sys2Proof.Machine.execRdOutCount s
  | .wrOutCount wdata => Sys2Proof.Machine.execWrOutCount wdata s
  | .rdWinCount => Sys2Proof.Machine.execRdWinCount s
  | .wrWinCount wdata => Sys2Proof.Machine.execWrWinCount wdata s
  | .rdErrInfo => Sys2Proof.Machine.execRdErrInfo s
  | .wrErrInfo wdata => Sys2Proof.Machine.execWrErrInfo wdata s
  | .rdFsmCfg => Sys2Proof.Machine.execRdFsmCfg s
  | .wrFsmCfg wdata => Sys2Proof.Machine.execWrFsmCfg wdata s
  | .rdPlaceholder => Sys2Proof.Machine.execRdPlaceholder s
  | .wrPlaceholder wdata => Sys2Proof.Machine.execWrPlaceholder wdata s
  | .rdGateFactor => Sys2Proof.Machine.execRdGateFactor s
  | .wrGateFactor wdata => Sys2Proof.Machine.execWrGateFactor wdata s
  | .rdNormEps => Sys2Proof.Machine.execRdNormEps s
  | .wrNormEps wdata => Sys2Proof.Machine.execWrNormEps wdata s
  | .rdNoiseFloor => Sys2Proof.Machine.execRdNoiseFloor s
  | .wrNoiseFloor wdata => Sys2Proof.Machine.execWrNoiseFloor wdata s
  | .rdToneFloor => Sys2Proof.Machine.execRdToneFloor s
  | .wrToneFloor wdata => Sys2Proof.Machine.execWrToneFloor wdata s
  | .rdRatioThr => Sys2Proof.Machine.execRdRatioThr s
  | .wrRatioThr wdata => Sys2Proof.Machine.execWrRatioThr wdata s
  | .rdEmphCoef => Sys2Proof.Machine.execRdEmphCoef s
  | .wrEmphCoef wdata => Sys2Proof.Machine.execWrEmphCoef wdata s
  | .rdBpB0 => Sys2Proof.Machine.execRdBpB0 s
  | .wrBpB0 wdata => Sys2Proof.Machine.execWrBpB0 wdata s
  | .rdBpB1 => Sys2Proof.Machine.execRdBpB1 s
  | .wrBpB1 wdata => Sys2Proof.Machine.execWrBpB1 wdata s
  | .rdBpB2 => Sys2Proof.Machine.execRdBpB2 s
  | .wrBpB2 wdata => Sys2Proof.Machine.execWrBpB2 wdata s
  | .rdBpB3 => Sys2Proof.Machine.execRdBpB3 s
  | .wrBpB3 wdata => Sys2Proof.Machine.execWrBpB3 wdata s
  | .rdBpB4 => Sys2Proof.Machine.execRdBpB4 s
  | .wrBpB4 wdata => Sys2Proof.Machine.execWrBpB4 wdata s
  | .rdBpA1 => Sys2Proof.Machine.execRdBpA1 s
  | .wrBpA1 wdata => Sys2Proof.Machine.execWrBpA1 wdata s
  | .rdBpA2 => Sys2Proof.Machine.execRdBpA2 s
  | .wrBpA2 wdata => Sys2Proof.Machine.execWrBpA2 wdata s
  | .rdBpA3 => Sys2Proof.Machine.execRdBpA3 s
  | .wrBpA3 wdata => Sys2Proof.Machine.execWrBpA3 wdata s
  | .rdBpA4 => Sys2Proof.Machine.execRdBpA4 s
  | .wrBpA4 wdata => Sys2Proof.Machine.execWrBpA4 wdata s
  | .rdSample n => Sys2Proof.Machine.execRdSample n s
  | .wrSample n wdata => Sys2Proof.Machine.execWrSample n wdata s
  | .rdOut e => Sys2Proof.Machine.execRdOut e s
  | .wrOut e wdata => Sys2Proof.Machine.execWrOut e wdata s
  | .busReserved we addr wdata => Sys2Proof.Machine.execBusReserved we addr wdata s
  | .fsmStepSilence => Sys2Proof.Machine.execFsmStepSilence s
  | .fsmStepKey1 => Sys2Proof.Machine.execFsmStepKey1 s
  | .fsmStepKey2 => Sys2Proof.Machine.execFsmStepKey2 s
  | .fsmStepKey3 => Sys2Proof.Machine.execFsmStepKey3 s
  | .fsmStepKey4 => Sys2Proof.Machine.execFsmStepKey4 s
  | .fsmStepKey5 => Sys2Proof.Machine.execFsmStepKey5 s
  | .fsmStepKey6 => Sys2Proof.Machine.execFsmStepKey6 s
  | .fsmStepKey7 => Sys2Proof.Machine.execFsmStepKey7 s
  | .fsmStepKey8 => Sys2Proof.Machine.execFsmStepKey8 s
  | .fsmStepKey9 => Sys2Proof.Machine.execFsmStepKey9 s
  | .fsmStepKey10 => Sys2Proof.Machine.execFsmStepKey10 s
  | .fsmStepKey11 => Sys2Proof.Machine.execFsmStepKey11 s
  | .fsmStepKey12 => Sys2Proof.Machine.execFsmStepKey12 s
  | .clsReserved13 => Sys2Proof.Machine.execClsReserved13 s
  | .clsReserved1415 low => Sys2Proof.Machine.execClsReserved1415 low s
  | .seqStatsStep => Sys2Proof.Machine.execSeqStatsStep s
  | .seqStatsEnd => Sys2Proof.Machine.execSeqStatsEnd s
  | .seqVarStep => Sys2Proof.Machine.execSeqVarStep s
  | .seqVarEnd => Sys2Proof.Machine.execSeqVarEnd s
  | .seqGateStep => Sys2Proof.Machine.execSeqGateStep s
  | .seqGateEnd => Sys2Proof.Machine.execSeqGateEnd s
  | .seqFilterStep => Sys2Proof.Machine.execSeqFilterStep s
  | .seqFilterEnd => Sys2Proof.Machine.execSeqFilterEnd s
  | .seqDetectStep => Sys2Proof.Machine.execSeqDetectStep s
  | .seqDetectEnd => Sys2Proof.Machine.execSeqDetectEnd s
  | .seqFlush => Sys2Proof.Machine.execSeqFlush s
  | .detClassifyGoertzel => Sys2Proof.Machine.execDetClassifyGoertzel s
  | .detClassifyGoertzelStrict => Sys2Proof.Machine.execDetClassifyGoertzelStrict s
  | .detClassifySpectral => Sys2Proof.Machine.execDetClassifySpectral s
  | .detReserved => Sys2Proof.Machine.execDetReserved s

end Sys2Proof.Machine
end

