-- ==== Sys2Proof/WellFormed.lean ====
section
/-! DEFINITION. Which terms of `Instr` stand for an operation the bus can carry: a transaction row may hold only the
fields the decoding order of R112 leaves to it. -/

namespace Sys2Proof

/-- The two lowest bits of a byte offset are 00 (R92). -/
def aligned (addr : BitVec 24) : Bool := addr.toNat % 4 == 0

/-- An offset that holds no register and no RAM word (R84, R86). -/
def reservedOffset (addr : BitVec 24) : Bool :=
  let a := addr.toNat
  (0x70 ≤ a && a ≤ 0xFFF) || (0x2000 ≤ a && a ≤ 0x3FFFFF) || 0x800000 ≤ a

/-- A read transaction carries no WDATA (R110), so its WDATA field is 0. -/
def noReadData (we : Bool) (wdata : Word) : Bool := we || wdata == 0

/-- The check on a term of `Instr`. `busIllegal` is a transaction that is misaligned or not 4 bytes (R270);
`busReserved` is an aligned one at a reserved offset (R285); every other term is well formed. -/
def Instr.wellFormed : Instr → Bool
  | .busIllegal we addr size wdata => (size != .word || !aligned addr) && noReadData we wdata
  | .busReserved we addr wdata => aligned addr && reservedOffset addr && noReadData we wdata
  | _ => true

end Sys2Proof
end

