-- ==== Sys2Proof/Decode.lean ====
section
/-! DEFINITION. The decoder of the four selecting formats (R111 to R116, R119, R120), total on any bytes, and after it the
encoder and the opcode table's rows. -/

namespace Sys2Proof

/-- Why bytes are no operation. -/
inductive DecodeError where
  /-- the number of bytes is not the format's -/
  | wrongLength
  /-- a SIZE code that stands for none of the sizes 1, 2 and 4 of R110 -/
  | noSuchSize
  /-- a bit above the format's highest bit is set -/
  | strayBits
  /-- a micro-operation selector no row has (R119, R122) -/
  | noMicroOp
deriving DecidableEq, Repr

/-- What decoding answers. -/
inductive Decoded where
  | instr (i : Instr)
  | reject (e : DecodeError)
deriving DecidableEq, Repr

/-- A 32-bit word from its four bytes, the byte at offset +0 in bits [7:0] (R90). -/
def wordOfBytes (b0 b1 b2 b3 : Byte) : Word := b3 ++ b2 ++ b1 ++ b0

/-- The byte at offset +k of a word (R90). -/
def byteOfWord (w : Word) (k : Nat) : Byte := w.extractLsb' (8 * k) 8

/-- The SIZE code of a raw transaction (log entry 2): 0 is 4 bytes, 1 is 1 byte, 2 is 2 bytes. -/
def sizeOfCode (c : BitVec 2) : Option Size :=
  if c = 0 then some .word else if c = 1 then some .byte else if c = 2 then some .half else none

/-- The register at a byte offset, if one is there (R31, R81). -/
def regAt (addr : BitVec 24) : Option Reg := Reg.all.find? (fun r => r.offset == addr)

/-- The read row of a register (R113). -/
def Reg.readRow : Reg → Instr
  | .id => .rdId
  | .caps => .rdCaps
  | .winCfg => .rdWinCfg
  | .bufLen => .rdBufLen
  | .outLen => .rdOutLen
  | .ctrl => .rdCtrl
  | .status => .rdStatus
  | .sampleCount => .rdSampleCount
  | .outCount => .rdOutCount
  | .winCount => .rdWinCount
  | .errInfo => .rdErrInfo
  | .fsmCfg => .rdFsmCfg
  | .placeholder => .rdPlaceholder
  | .gateFactor => .rdGateFactor
  | .normEps => .rdNormEps
  | .noiseFloor => .rdNoiseFloor
  | .toneFloor => .rdToneFloor
  | .ratioThr => .rdRatioThr
  | .emphCoef => .rdEmphCoef
  | .bpB0 => .rdBpB0
  | .bpB1 => .rdBpB1
  | .bpB2 => .rdBpB2
  | .bpB3 => .rdBpB3
  | .bpB4 => .rdBpB4
  | .bpA1 => .rdBpA1
  | .bpA2 => .rdBpA2
  | .bpA3 => .rdBpA3
  | .bpA4 => .rdBpA4

/-- The write row of a register (R113). -/
def Reg.writeRow (wdata : Word) : Reg → Instr
  | .id => .wrId wdata
  | .caps => .wrCaps wdata
  | .winCfg => .wrWinCfg wdata
  | .bufLen => .wrBufLen wdata
  | .outLen => .wrOutLen wdata
  | .ctrl => .wrCtrl wdata
  | .status => .wrStatus wdata
  | .sampleCount => .wrSampleCount wdata
  | .outCount => .wrOutCount wdata
  | .winCount => .wrWinCount wdata
  | .errInfo => .wrErrInfo wdata
  | .fsmCfg => .wrFsmCfg wdata
  | .placeholder => .wrPlaceholder wdata
  | .gateFactor => .wrGateFactor wdata
  | .normEps => .wrNormEps wdata
  | .noiseFloor => .wrNoiseFloor wdata
  | .toneFloor => .wrToneFloor wdata
  | .ratioThr => .wrRatioThr wdata
  | .emphCoef => .wrEmphCoef wdata
  | .bpB0 => .wrBpB0 wdata
  | .bpB1 => .wrBpB1 wdata
  | .bpB2 => .wrBpB2 wdata
  | .bpB3 => .wrBpB3 wdata
  | .bpB4 => .wrBpB4 wdata
  | .bpA1 => .wrBpA1 wdata
  | .bpA2 => .wrBpA2 wdata
  | .bpA3 => .wrBpA3 wdata
  | .bpA4 => .wrBpA4 wdata

/-- The row of a legal transaction (R112 steps 2 and 3, R113, R114). -/
def decodeLegal (we : Bool) (addr : BitVec 24) (wdata : Word) : Instr :=
  if addr.extractLsb' 22 2 = 1 then
    if we then .wrSample (addr.extractLsb' 2 20) wdata else .rdSample (addr.extractLsb' 2 20)
  else if addr.extractLsb' 12 12 = 1 then
    if we then .wrOut (addr.extractLsb' 2 10) wdata else .rdOut (addr.extractLsb' 2 10)
  else
    match regAt addr with
    | some r => if we then r.writeRow wdata else r.readRow
    | none => .busReserved we addr (if we then wdata else 0)

/-- The decoding order of a transaction (R112). -/
def decodeTransaction (we : Bool) (addr : BitVec 24) (size : Size) (wdata : Word) : Instr :=
  if size ≠ .word ∨ addr.extractLsb' 0 2 ≠ 0 then .busIllegal we addr size (if we then wdata else 0)
  else decodeLegal we addr wdata

/-- A transaction from its two words: SEL in bits [24:0] of the first (R111), the SIZE code in its bits [26:25],
WDATA the second (log entry 2). -/
def decodeBus (sel wdata : Word) : Decoded :=
  if sel.extractLsb' 27 5 ≠ 0 then .reject .strayBits
  else
    match sizeOfCode (sel.extractLsb' 25 2) with
    | none => .reject .noSuchSize
    | some size => .instr (decodeTransaction (sel.getLsbD 24) (sel.extractLsb' 0 24) size wdata)

/-- The row of a window class code (R116). -/
def decodeClass (c : BitVec 4) : Instr :=
  match c.toNat with
  | 0 => .fsmStepSilence
  | 1 => .fsmStepKey1
  | 2 => .fsmStepKey2
  | 3 => .fsmStepKey3
  | 4 => .fsmStepKey4
  | 5 => .fsmStepKey5
  | 6 => .fsmStepKey6
  | 7 => .fsmStepKey7
  | 8 => .fsmStepKey8
  | 9 => .fsmStepKey9
  | 10 => .fsmStepKey10
  | 11 => .fsmStepKey11
  | 12 => .fsmStepKey12
  | 13 => .clsReserved13
  | _ => .clsReserved1415 (c.getLsbD 0)

/-- The row of a micro-operation selector U (R119). -/
def decodeMicroOp (u : BitVec 4) : Decoded :=
  match u.toNat with
  | 2 => .instr .seqStatsStep
  | 3 => .instr .seqStatsEnd
  | 4 => .instr .seqVarStep
  | 5 => .instr .seqVarEnd
  | 6 => .instr .seqGateStep
  | 7 => .instr .seqGateEnd
  | 8 => .instr .seqFilterStep
  | 9 => .instr .seqFilterEnd
  | 10 => .instr .seqDetectStep
  | 11 => .instr .seqDetectEnd
  | 13 => .instr .seqFlush
  | _ => .reject .noMicroOp

/-- The row of a detector selector (R120). -/
def decodeDetector (d : BitVec 2) : Instr :=
  match d.toNat with
  | 0 => .detClassifyGoertzel
  | 1 => .detClassifyGoertzelStrict
  | 2 => .detClassifySpectral
  | _ => .detReserved

/-- The decoder: which operation a raw operation is. -/
def decode (raw : RawOp) : Decoded :=
  match raw.fmt, raw.bytes with
  | .bus, [s0, s1, s2, s3, d0, d1, d2, d3] => decodeBus (wordOfBytes s0 s1 s2 s3) (wordOfBytes d0 d1 d2 d3)
  | .cls, [b] => if b.extractLsb' 4 4 = 0 then .instr (decodeClass (b.extractLsb' 0 4)) else .reject .strayBits
  | .seq, [b] => if b.extractLsb' 4 4 = 0 then decodeMicroOp (b.extractLsb' 0 4) else .reject .strayBits
  | .det, [b] => if b.extractLsb' 2 6 = 0 then .instr (decodeDetector (b.extractLsb' 0 2)) else .reject .strayBits
  | _, _ => .reject .wrongLength

/-- The `k` lowest bytes of a number, the lowest first. -/
def bytesOfNat : Nat → Nat → List Byte
  | 0, _ => []
  | k + 1, w => BitVec.ofNat 8 w :: bytesOfNat k (w / 256)

/-- The raw operation of a word of the opcode table. A row of format BUS has 25 bits of SEL; CLS, SEQ and DET rows all
fit one byte, whose bits do not say which of the three they are: a byte is read as a class code, and one of at most two
bits as a detector selector (log entry 3). -/
def tableRawOp (nbits w : Nat) : RawOp :=
  if nbits ≤ 2 then ⟨.det, bytesOfNat 1 (w % 2 ^ nbits)⟩
  else if nbits ≤ 8 then ⟨.cls, bytesOfNat 1 (w % 2 ^ nbits)⟩
  else ⟨.bus, bytesOfNat 8 (w % 2 ^ nbits)⟩

/-- The instruction the decoder reads from a word of the opcode table. -/
def decodeTableWord (nbits w : Nat) : Option Instr :=
  match decode (tableRawOp nbits w) with
  | .instr i => some i
  | .reject _ => none

/-! The encoder. -/

/-- The SIZE code of a size (log entry 2). -/
def Size.code : Size → BitVec 2
  | .word => 0
  | .byte => 1
  | .half => 2

/-- The SEL word of a transaction: SEL = {WE, ADDR} (R111) below its SIZE code (log entry 2). -/
def selWord (we : Bool) (addr : BitVec 24) (size : Size) : Word :=
  (0 : BitVec 5) ++ size.code ++ BitVec.ofBool we ++ addr

/-- The raw operation of a transaction. -/
def busRaw (we : Bool) (addr : BitVec 24) (size : Size) (wdata : Word) : RawOp :=
  let sel := selWord we addr size
  ⟨.bus, [byteOfWord sel 0, byteOfWord sel 1, byteOfWord sel 2, byteOfWord sel 3,
    byteOfWord wdata 0, byteOfWord wdata 1, byteOfWord wdata 2, byteOfWord wdata 3]⟩

/-- The raw operation of a 4-byte read. -/
def readRaw (addr : BitVec 24) : RawOp := busRaw false addr .word 0

/-- The raw operation of a 4-byte write. -/
def writeRaw (addr : BitVec 24) (wdata : Word) : RawOp := busRaw true addr .word wdata

/-- The raw operation of a class code (R116). -/
def classRaw (c : BitVec 4) : RawOp := ⟨.cls, [(0 : BitVec 4) ++ c]⟩

/-- The raw operation of a micro-operation selector (R119). -/
def microOpRaw (u : BitVec 4) : RawOp := ⟨.seq, [(0 : BitVec 4) ++ u]⟩

/-- The raw operation of a detector selector (R120). -/
def detectorRaw (d : BitVec 2) : RawOp := ⟨.det, [(0 : BitVec 6) ++ d]⟩

/-- Byte offset of SAMPLE_RAM word `n` (R82, R114). -/
def sampleOffset (n : BitVec 20) : BitVec 24 := (1 : BitVec 2) ++ n ++ (0 : BitVec 2)

/-- Byte offset of OUT_RAM entry `i` (R83, R114). -/
def outOffset (i : BitVec 10) : BitVec 24 := (1 : BitVec 12) ++ i ++ (0 : BitVec 2)

/-- The encoder: the raw operation of an instruction, from the encodings of R111 to R116, R119 and R120. -/
def encode : Instr → RawOp
  | .busIllegal we addr size wdata => busRaw we addr size wdata
  | .rdId => readRaw 0x000
  | .wrId wdata => writeRaw 0x000 wdata
  | .rdCaps => readRaw 0x004
  | .wrCaps wdata => writeRaw 0x004 wdata
  | .rdWinCfg => readRaw 0x008
  | .wrWinCfg wdata => writeRaw 0x008 wdata
  | .rdBufLen => readRaw 0x00C
  | .wrBufLen wdata => writeRaw 0x00C wdata
  | .rdOutLen => readRaw 0x010
  | .wrOutLen wdata => writeRaw 0x010 wdata
  | .rdCtrl => readRaw 0x014
  | .wrCtrl wdata => writeRaw 0x014 wdata
  | .rdStatus => readRaw 0x018
  | .wrStatus wdata => writeRaw 0x018 wdata
  | .rdSampleCount => readRaw 0x01C
  | .wrSampleCount wdata => writeRaw 0x01C wdata
  | .rdOutCount => readRaw 0x020
  | .wrOutCount wdata => writeRaw 0x020 wdata
  | .rdWinCount => readRaw 0x024
  | .wrWinCount wdata => writeRaw 0x024 wdata
  | .rdErrInfo => readRaw 0x028
  | .wrErrInfo wdata => writeRaw 0x028 wdata
  | .rdFsmCfg => readRaw 0x02C
  | .wrFsmCfg wdata => writeRaw 0x02C wdata
  | .rdPlaceholder => readRaw 0x030
  | .wrPlaceholder wdata => writeRaw 0x030 wdata
  | .rdGateFactor => readRaw 0x034
  | .wrGateFactor wdata => writeRaw 0x034 wdata
  | .rdNormEps => readRaw 0x038
  | .wrNormEps wdata => writeRaw 0x038 wdata
  | .rdNoiseFloor => readRaw 0x03C
  | .wrNoiseFloor wdata => writeRaw 0x03C wdata
  | .rdToneFloor => readRaw 0x040
  | .wrToneFloor wdata => writeRaw 0x040 wdata
  | .rdRatioThr => readRaw 0x044
  | .wrRatioThr wdata => writeRaw 0x044 wdata
  | .rdEmphCoef => readRaw 0x048
  | .wrEmphCoef wdata => writeRaw 0x048 wdata
  | .rdBpB0 => readRaw 0x04C
  | .wrBpB0 wdata => writeRaw 0x04C wdata
  | .rdBpB1 => readRaw 0x050
  | .wrBpB1 wdata => writeRaw 0x050 wdata
  | .rdBpB2 => readRaw 0x054
  | .wrBpB2 wdata => writeRaw 0x054 wdata
  | .rdBpB3 => readRaw 0x058
  | .wrBpB3 wdata => writeRaw 0x058 wdata
  | .rdBpB4 => readRaw 0x05C
  | .wrBpB4 wdata => writeRaw 0x05C wdata
  | .rdBpA1 => readRaw 0x060
  | .wrBpA1 wdata => writeRaw 0x060 wdata
  | .rdBpA2 => readRaw 0x064
  | .wrBpA2 wdata => writeRaw 0x064 wdata
  | .rdBpA3 => readRaw 0x068
  | .wrBpA3 wdata => writeRaw 0x068 wdata
  | .rdBpA4 => readRaw 0x06C
  | .wrBpA4 wdata => writeRaw 0x06C wdata
  | .rdSample n => readRaw (sampleOffset n)
  | .wrSample n wdata => writeRaw (sampleOffset n) wdata
  | .rdOut i => readRaw (outOffset i)
  | .wrOut i wdata => writeRaw (outOffset i) wdata
  | .busReserved we addr wdata => busRaw we addr .word wdata
  | .fsmStepSilence => classRaw 0
  | .fsmStepKey1 => classRaw 1
  | .fsmStepKey2 => classRaw 2
  | .fsmStepKey3 => classRaw 3
  | .fsmStepKey4 => classRaw 4
  | .fsmStepKey5 => classRaw 5
  | .fsmStepKey6 => classRaw 6
  | .fsmStepKey7 => classRaw 7
  | .fsmStepKey8 => classRaw 8
  | .fsmStepKey9 => classRaw 9
  | .fsmStepKey10 => classRaw 10
  | .fsmStepKey11 => classRaw 11
  | .fsmStepKey12 => classRaw 12
  | .clsReserved13 => classRaw 13
  | .clsReserved1415 low => classRaw ((7 : BitVec 3) ++ BitVec.ofBool low)
  | .seqStatsStep => microOpRaw 0x2
  | .seqStatsEnd => microOpRaw 0x3
  | .seqVarStep => microOpRaw 0x4
  | .seqVarEnd => microOpRaw 0x5
  | .seqGateStep => microOpRaw 0x6
  | .seqGateEnd => microOpRaw 0x7
  | .seqFilterStep => microOpRaw 0x8
  | .seqFilterEnd => microOpRaw 0x9
  | .seqDetectStep => microOpRaw 0xA
  | .seqDetectEnd => microOpRaw 0xB
  | .seqFlush => microOpRaw 0xD
  | .detClassifyGoertzel => detectorRaw 0
  | .detClassifyGoertzelStrict => detectorRaw 1
  | .detClassifySpectral => detectorRaw 2
  | .detReserved => detectorRaw 3

/-! The opcode table's rows of format BUS. -/

/-- One row: a selector SEL matches it when `SEL AND mask = value` (R111). -/
structure SelRow where
  value : BitVec 25
  mask : BitVec 25
deriving DecidableEq, Repr

/-- Whether a selector matches a row (R111). -/
def SelRow.matches (row : SelRow) (sel : BitVec 25) : Bool := sel &&& row.mask == row.value

/-- SEL = {WE, ADDR} (R111). -/
def selOf (we : Bool) (addr : BitVec 24) : BitVec 25 := BitVec.ofBool we ++ addr

/-- A register's read row (`we` false) or write row (R113). -/
def regRow (we : Bool) (r : Reg) : SelRow := ⟨selOf we r.offset, 0x1FFFFFF⟩

/-- RD_SAMPLE's row (R114). -/
def rdSampleRow : SelRow := ⟨0x0400000, 0x1C00003⟩

/-- WR_SAMPLE's row (R114). -/
def wrSampleRow : SelRow := ⟨0x1400000, 0x1C00003⟩

/-- RD_OUT's row (R114). -/
def rdOutRow : SelRow := ⟨0x0001000, 0x1FFF003⟩

/-- WR_OUT's row (R114). -/
def wrOutRow : SelRow := ⟨0x1001000, 0x1FFF003⟩

/-- The priority-1 rows of format BUS (R112, R113, R114). -/
def busRows : List SelRow :=
  Reg.all.map (regRow false) ++ Reg.all.map (regRow true) ++ [rdSampleRow, wrSampleRow, rdOutRow, wrOutRow]

end Sys2Proof
end

