-- ==== Sys2Proof/Machine/Fetch.lean ====
section
/-! DEFINITION. What the next step performs: the next stimulus of the agenda, or the sequencer's next micro-operation. There
is no instruction memory (R52, R99); the selected encoded operation takes the place of a fetched word. -/

namespace Sys2Proof.Machine

/-- What a step performs next. -/
inductive Fetched where
  /-- an encoded operation is performed -/
  | perform (raw : RawOp) (s : State)
  /-- nothing is to be done: an idle block performs no micro-step (R261, R320) -/
  | idle (s : State)
  /-- the reset input is asserted and released (R330) -/
  | reset (s : State)
  /-- an operation is presented where the hardware never performs it (R122, R321) -/
  | misplaced
  /-- the build's CAPS.DETECTOR is 3: the model refuses the configuration, whatever is to be done (R120, R122, R321) -/
  | noSuchBuild
deriving DecidableEq, Repr

/-- The encoded micro-operation the sequencer performs next: the row selected by U = {phase, END} (R119, R262). -/
def State.microOpOp (s : State) : RawOp := ⟨.seq, [(0 : BitVec 4) ++ s.selector]⟩

/-- The sequencer's turn: its next micro-step, or nothing in phase IDLE (R261). -/
def sequencerTurn (s : State) : Fetched := if s.pos.phase = 0 then .idle s else .perform s.microOpOp s

/-- Where an operation of each format may be presented: a host transaction always; a class code or a detector selector,
sub-operations of the detect loop, in phase DETECT (R196, R266); a micro-operation when the sequencer would take it.
DESIGN CHOICE (log entry 5): a sub-operation presented alone is performed as its own row says, also a detector selector that
differs from the build's CAPS.DETECTOR (R120, R170), and also when j = NW (R171); R196 has no such presentation, and
SEQ_DETECT_STEP itself takes only the build's detector, with j < NW. -/
def State.admits (s : State) (raw : RawOp) : Bool :=
  match raw.fmt with
  | .bus => true
  | .cls => s.pos.phase == 5
  | .det => s.pos.phase == 5
  | .seq => s.pos.phase != 0 && raw == s.microOpOp

/-- The state with its first stimulus taken. -/
def State.withAgenda (s : State) (rest : List Stimulus) : State := { s with port := { s.port with agenda := rest } }

/-- What the next stimulus has performed, and the state it is performed in. With no stimulus left the sequencer has its
turn, so it is never stalled for good (R351). DESIGN CHOICE (log entry 21): a state with phase code 7 raises `SEQ_BAD_PHASE`
(R122, R321) when its phase is used, at the sequencer's turn or by a class code, a selector or a detector selector presented;
a host transaction and a reset pulse, which no phase selects, are performed in it. -/
def nextStimulus (s : State) : Fetched :=
  match s.port.agenda with
  | [] => sequencerTurn s
  | .tick :: rest => sequencerTurn (s.withAgenda rest)
  | .rst :: rest => .reset (s.withAgenda rest)
  | .op raw :: rest => if s.admits raw then .perform raw (s.withAgenda rest) else .misplaced

/-- What the next step performs: in a configuration that no build has, nothing (R120, R122, R321); else what the next
stimulus asks for. -/
def fetch (s : State) : Fetched := if s.build.detector = 3 then .noSuchBuild else nextStimulus s

/-- How the machine stops on bytes that are no operation: a selector with no row is the model fault `SEQ_BAD_PHASE`
(R122); anything else no bus carries. -/
def stopOn (e : DecodeError) : Result :=
  match e with
  | .noMicroOp => .fault .seqBadPhase
  | _ => .refused .badEncoding

/-- The state in which the sequencer is in the phase an encoded operation is performed in: the detect loop for a class
code or a detector selector, any phase for a host transaction. -/
def State.inPhaseOf (s : State) (fmt : Format) : State :=
  match fmt with
  | .cls | .det => { s with pos := { s.pos with phase := 5 }, status := { s.status with busy := true } }
  | _ => s

/-- An encoded operation placed as the very next one. -/
def State.place (s : State) (raw : RawOp) : State :=
  (s.inPhaseOf raw.fmt).withAgenda (.op raw :: s.port.agenda)

end Sys2Proof.Machine
end

