-- ==== Sys2Proof/Machine/Step.lean ====
section
/-! DEFINITION. One step of DTMFDEC: one host transaction, one micro-step, one reset pulse, or an idle step (R29, R261). -/

namespace Sys2Proof.Machine

/-- One step. -/
def step (s : State) : Host.Outcome State Fault Refusal :=
  match fetch s with
  | .idle t => .next t
  | .reset t => .next t.hardReset
  | .misplaced => .fault .seqBadPhase
  | .noSuchBuild => .refused .noSuchBuild
  | .perform raw t =>
    match decode raw with
    | .instr i => exec i t
    | .reject e => stopOn e

/-- The state whose very next step performs the operation of a word of the opcode table: it is the next stimulus of the
agenda, and a class code or a detector selector finds the sequencer in phase DETECT (log entries 3, 4 and 5). -/
def State.withFetchWord (s : State) (nbits w : Nat) : State := s.place (tableRawOp nbits w)

end Sys2Proof.Machine
end

