-- ==== Sys2Proof/Safety.lean ====
section
/-! DEFINITION. What counts as a legal state and a safe run, in the terms the statements use: the build's legal parameters, the
invariants R38, R39, R40, R52, R56 and R171 put on a state, the micro-steps a run has left, the agendas real hardware meets, and
the rounding of a real number. -/

namespace Sys2Proof

/-! Real numbers. -/

/-- `y` is the real number `x` rounded once to binary32, to nearest, ties to even (R21). From the midpoint past the largest
finite magnitude on, 2^128 − 2^103, it is an infinity; below, it is finite, no binary32 number lies nearer to `x`, and
where another lies as near the significand of `y` is even. Either has the sign of `x`; a zero `x` says nothing of it. A finite
datum's magnitude counts units of 2^(-149). -/
structure RoundsTo (x : ℝ) (y : F32) : Prop where
  overflow : 2 ^ 128 - 2 ^ 103 ≤ |x| → y = .inf true ∧ x < 0 ∨ y = .inf false ∧ 0 < x
  nearest : |x| < 2 ^ 128 - 2 ^ 103 → ∃ (sign : Bool) (mag : Nat), y = .fin sign mag ∧ y.representable = true
    ∧ (x < 0 → sign = true) ∧ (0 < x → sign = false)
    ∧ ∀ (t : Bool) (r : Nat), (F32.fin t r).representable = true →
      |signedMag sign mag - x * 2 ^ 149| ≤ |signedMag t r - x * 2 ^ 149|
      ∧ (signedMag t r ≠ signedMag sign mag →
        |signedMag sign mag - x * 2 ^ 149| = |signedMag t r - x * 2 ^ 149| → mag / 2 ^ (Nat.log2 mag - 23) % 2 = 0)

end Sys2Proof

namespace Sys2Proof.Machine

/-- A build the spec allows (R9, R10, R13). -/
def Build.Legal (b : Build) : Prop :=
  b.detector ≠ 3 ∧ 1 ≤ b.bufLen ∧ b.bufLen ≤ Config.maxBufLen ∧ 1 ≤ b.outLen ∧ b.outLen ≤ Config.maxOutLen

/-- The invariants of STATUS and the phase (R38, R52, R117, R301). -/
structure State.StatusLegal (s : State) : Prop where
  busy_iff : s.status.busy = true ↔ s.pos.phase ≠ 0
  phase_legal : s.pos.phase ≠ 7
  busy_flags : s.status.busy = true → s.status.done = false ∧ s.status.err = false
  not_both : ¬(s.status.done = true ∧ s.status.err = true)
  no_error : s.status.err = false → s.status.errCode = 0 ∧ s.errInfo = 0
  error_code : s.status.err = true → 1 ≤ s.status.errCode.toNat ∧ s.status.errCode.toNat ≤ 5

/-- The invariants of a run's position: N fits SAMPLE_RAM (R264); before the detect loop the pass index is at most N and
nothing is counted yet (R52, R263, R304, R305, R307); in it the window index is at most NW and WIN_COUNT is the window index
(R52, R266); after it WIN_COUNT is NW (R266, R267). -/
structure State.PositionLegal (s : State) : Prop where
  fits : s.status.busy = true → s.total ≤ s.build.bufLen
  pass : 1 ≤ s.pos.phase.toNat → s.pos.phase.toNat ≤ 4 → s.pos.n ≤ s.total ∧ s.winCount = 0 ∧ s.outCount = 0
  detect : s.pos.phase = 5 → s.pos.j ≤ s.windows ∧ s.winCount = BitVec.ofNat 32 s.pos.j
  flush : s.pos.phase = 6 → s.winCount = BitVec.ofNat 32 s.windows

/-- A legal state: what every step keeps, from every state that has it. -/
structure State.Inv (s : State) : Prop where
  build : s.build.Legal
  status : s.StatusLegal
  position : s.PositionLegal
  outCount : s.outCount.toNat ≤ s.build.outLen
  key : s.fsm.lk.toNat ≤ 12
  memory : s.mem.wf

/-- Every working register holds a binary32 value (R21, R53). -/
def Work.representable (w : Work) : Bool :=
  w.sum.representable && w.sumSq.representable && w.mean.representable && w.acc.representable && w.std.representable
    && w.rms.representable && w.thr.representable && w.gate.representable && w.maxAbs.representable

/-- Every delay-line register holds a binary32 value (R21, R54). -/
def DelayLine.representable (l : DelayLine) : Bool :=
  l.x1.representable && l.x2.representable && l.x3.representable && l.x4.representable && l.y1.representable
    && l.y2.representable && l.y3.representable && l.y4.representable

/-- The micro-steps a run without error still takes (R269): the rest of its pass, the passes after it, the windows left, and
the flush. -/
def State.remaining (s : State) : Nat :=
  let pass := s.total - s.pos.n + 1
  let whole := s.total + 1
  match s.pos.phase.toNat with
  | 1 => pass + 3 * whole + (s.windows + 2)
  | 2 => pass + 2 * whole + (s.windows + 2)
  | 3 => pass + whole + (s.windows + 2)
  | 4 => pass + (s.windows + 2)
  | 5 => s.windows - s.pos.j + 2
  | 6 => 1
  | _ => 0

/-- A stimulus real hardware meets (R261): a whole host transaction, the sequencer's turn, or a reset. -/
def Stimulus.Physical : Stimulus → Prop
  | .op raw => ∃ we addr size wdata, raw = busRaw we addr size wdata
  | .tick => True
  | .rst => True

/-- A state whose agenda holds only what real hardware meets. -/
def State.PhysicalAgenda (s : State) : Prop := ∀ x ∈ s.port.agenda, x.Physical

/-- A safe run: `k` steps, none of which stops. -/
def SafeRun (k : Nat) (s : State) : Prop := ∃ t, Sys2Proof.core.run k s = .next t

/-- What a micro-step can depend on and change: the state less IRQ_EN and the latest response, which no micro-step reads
(R261). -/
def State.core (s : State) : State := { s with irqEn := false, port := { s.port with resp := none } }

/-- A row of the sequencer (R119). -/
def isMicroOp : Instr → Bool
  | .seqStatsStep | .seqStatsEnd | .seqVarStep | .seqVarEnd | .seqGateStep | .seqGateEnd | .seqFilterStep
  | .seqFilterEnd | .seqDetectStep | .seqDetectEnd | .seqFlush => true
  | _ => false

/-- A row of format BUS (R121). -/
def isBusRow (i : Instr) : Bool := (encode i).fmt == .bus

/-- The FSM_STEP_KEY rows with their keys (R223). -/
def keyRows : List (BitVec 4 × Instr) :=
  [(1, .fsmStepKey1), (2, .fsmStepKey2), (3, .fsmStepKey3), (4, .fsmStepKey4), (5, .fsmStepKey5), (6, .fsmStepKey6)]
  ++ [(7, .fsmStepKey7), (8, .fsmStepKey8), (9, .fsmStepKey9), (10, .fsmStepKey10), (11, .fsmStepKey11)]
  ++ [(12, .fsmStepKey12)]

/-- The byte offset of the word an operation stores to, if it stores one: a sample word, or the OUT_RAM entry an emission
writes (R236). WR_CTRL stores nothing, but its soft reset can leave RAM unspecified (R332). -/
def storeAddr (i : Instr) (s : State) : Option Nat :=
  match i with
  | .wrSample n _ => some (sampleAddr n.toNat)
  | .seqGateStep | .seqFilterStep => some (sampleAddr s.pos.n)
  | .fsmStepSilence | .seqDetectStep | .seqFlush => some (outAddr s.outCount.toNat)
  | _ => none

/-- The registers that hold a binary32 pattern (R280). -/
def binary32Regs : List Reg :=
  [.gateFactor, .normEps, .noiseFloor, .toneFloor, .ratioThr, .emphCoef, .bpB0, .bpB1]
  ++ [.bpB2, .bpB3, .bpB4, .bpA1, .bpA2, .bpA3, .bpA4]

/-- The register map's column of reset values (R31). -/
def regReset (b : Build) : Reg → Word
  | .id => 0x464D5444
  | .caps => BitVec.ofNat 32 (b.detector.toNat + (if b.halfStride then 4 else 0))
  | .winCfg => if b.halfStride then 0x044E08BD else 0x08BD08BD
  | .bufLen => BitVec.ofNat 32 b.bufLen
  | .outLen => BitVec.ofNat 32 b.outLen
  | .fsmCfg => if b.halfStride then 0x00010303 else 0x00010304
  | .placeholder => 0x0000003F
  | .gateFactor => 0x3F8CCCCD
  | .normEps => 0x358637BD
  | .noiseFloor => 0x40800000
  | .toneFloor => 0x40000000
  | .ratioThr => 0x3E800000
  | .emphCoef => 0x3F733333
  | .bpB0 => 0x3B3B7008
  | .bpB2 => 0xBBBB7008
  | .bpB4 => 0x3B3B7008
  | .bpA1 => 0xC073644F
  | .bpA2 => 0x40AED917
  | .bpA3 => 0xC060F875
  | .bpA4 => 0x3F5AC4C7
  | .ctrl => 0
  | .status => 0
  | .sampleCount => 0
  | .outCount => 0
  | .winCount => 0
  | .errInfo => 0
  | .bpB1 => 0
  | .bpB3 => 0

/-- A state at its sequencer's turn, and the state the turn is taken in: no stimulus is left, or a tick is the next one
(R261, R351, log entry 1). -/
def State.TurnOf (s t : State) : Prop :=
  (s.port.agenda = [] ∧ t = s) ∨ ∃ rest, s.port.agenda = .tick :: rest ∧ t = s.withAgenda rest

/-- All words of the window at `j` exist (R47, R171). -/
def State.windowExists (s : State) (j : Nat) : Prop := j * s.build.stride + 2205 ≤ s.build.bufLen

end Sys2Proof.Machine
end

