-- ==== Sys2Proof/Certificates/Slice0/Obligations.lean ====
section
/-! DEFINITION. The statements for the provers, from the numbered rules of spec/. -/

section Obligations
open Sys2Proof Sys2Proof.Machine

/-! Encodings (30_encoding.md). -/

/-- R110 to R116, R119, R120: decoding the encoding of any well-formed operation gives that operation back, with every
operand at every value its encoding admits. The bytes of an encoding are laid out as the model chooses, log entry 2. -/
def Obligations.DecodeOfEncode : Prop := ∀ i : Instr, i.wellFormed = true → decode (encode i) = .instr i

/-- R112: whatever the decoder answers is well formed: `busIllegal` only for a misaligned or narrow transaction,
`busReserved` only for an aligned one at a reserved offset. The layout of the bytes is the model's, log entry 2. -/
def Obligations.DecodedIsWellFormed : Prop := ∀ (raw : RawOp) (i : Instr), decode raw = .instr i → i.wellFormed = true

/-- R112: the decoding order of a transaction. A narrow or misaligned one is `BUS_ILLEGAL` whatever SEL is; an aligned
one of 4 bytes is selected by the priority-1 row its SEL matches (register rows, then RAM rows), and by `BUS_RESERVED`
when none matches; no SEL is matched by two priority-1 rows. -/
def Obligations.DecodingOrder : Prop :=
  (∀ we addr size wdata, (size ≠ Size.word ∨ addr.extractLsb' 0 2 ≠ 0) →
    decodeTransaction we addr size wdata = .busIllegal we addr size (if we then wdata else 0))
  ∧ (∀ we addr wdata, addr.extractLsb' 0 2 = 0 →
    (∀ r : Reg, (regRow we r).matches (selOf we addr) = true →
      decodeTransaction we addr .word wdata = if we then r.writeRow wdata else r.readRow)
    ∧ (rdSampleRow.matches (selOf we addr) = true →
      decodeTransaction we addr .word wdata = .rdSample (addr.extractLsb' 2 20))
    ∧ (wrSampleRow.matches (selOf we addr) = true →
      decodeTransaction we addr .word wdata = .wrSample (addr.extractLsb' 2 20) wdata)
    ∧ (rdOutRow.matches (selOf we addr) = true →
      decodeTransaction we addr .word wdata = .rdOut (addr.extractLsb' 2 10))
    ∧ (wrOutRow.matches (selOf we addr) = true →
      decodeTransaction we addr .word wdata = .wrOut (addr.extractLsb' 2 10) wdata)
    ∧ ((∀ row ∈ busRows, row.matches (selOf we addr) = false) →
      decodeTransaction we addr .word wdata = .busReserved we addr (if we then wdata else 0)))
  ∧ busRows.Pairwise fun r q => ∀ sel, ¬(r.matches sel = true ∧ q.matches sel = true)

/-- R113, R114, R116, R119, R120: words written out from the encodings decode to their operations, one or more of each
format. The spec gives the fields; that a transaction is eight bytes, the SEL word and then the WDATA word, each low byte
first, and another operation one byte, is the model's choice, log entry 2. -/
def Obligations.SpecWordsDecode : Prop :=
  decode ⟨.bus, [0x18, 0x00, 0x00, 0x00, 0x00, 0x00, 0x00, 0x00]⟩ = .instr .rdStatus
  ∧ decode ⟨.bus, [0x14, 0x00, 0x00, 0x01, 0x05, 0x00, 0x00, 0x00]⟩ = .instr (.wrCtrl 0x5)
  ∧ decode ⟨.bus, [0x08, 0x00, 0x40, 0x01, 0x78, 0x56, 0x34, 0x12]⟩ = .instr (.wrSample 2 0x12345678)
  ∧ decode ⟨.bus, [0x04, 0x10, 0x00, 0x00, 0x00, 0x00, 0x00, 0x00]⟩ = .instr (.rdOut 1)
  ∧ decode ⟨.cls, [0x04]⟩ = .instr .fsmStepKey4
  ∧ decode ⟨.seq, [0x0D]⟩ = .instr .seqFlush
  ∧ decode ⟨.det, [0x02]⟩ = .instr .detClassifySpectral

/-! The step (R261, R262). -/

/-- R110, R261, R271: a step runs the decoded operation. A transaction, or a class code or detector selector in phase DETECT,
placed as the next operation is performed by the very next step, as that instruction's meaning on the state it was placed in
(`inPhaseOf` changes nothing for a transaction); and any transaction at the head of the agenda, of any size and offset, is
performed by the row its fields decode to, in the state with that transaction taken. The build is one that exists:
ReservedRowsStop says what a step of another does. The agenda is the model's, log entries 1 and 5, and so is the layout of a
raw operation, log entry 2; that a transaction is performed also in a state with phase code 7 is log entry 21. -/
def Obligations.StepRunsDecodedOperation : Prop :=
  (∀ (i : Instr) (s : State), s.build.detector ≠ 3 → i.wellFormed = true → (encode i).fmt ≠ .seq →
    step (s.place (encode i)) = exec i (s.inPhaseOf (encode i).fmt)
      ∧ ((encode i).fmt = .bus → s.inPhaseOf (encode i).fmt = s))
  ∧ ∀ (s : State) (we : Bool) (addr : BitVec 24) (size : Size) (wdata : Word) (rest : List Stimulus),
    s.build.detector ≠ 3 → s.port.agenda = .op (busRaw we addr size wdata) :: rest →
      step s = exec (decodeTransaction we addr size wdata) (s.withAgenda rest)

/-- R119, R260, R262: at the sequencer's turn a step performs exactly the micro-operation of the row U = {phase, END}
selects, where END says that the pass index has reached its limit; phase 7 stops with `SEQ_BAD_PHASE` (R122), and an idle
block performs nothing (R320). That phase 7 stops at the sequencer's turn is the model's choice, log entry 21. The build is one
that exists: ReservedRowsStop says what a step of another does. -/
def Obligations.SequencerPerformsSelectedRow : Prop :=
  ∀ s t : State, s.build.detector ≠ 3 → s.TurnOf t →
    (s.pos.phase = 0 → step s = .next t)
    ∧ (s.pos.phase = 1 → step s = if s.pos.n = s.total then exec .seqStatsEnd t else exec .seqStatsStep t)
    ∧ (s.pos.phase = 2 → step s = if s.pos.n = s.total then exec .seqVarEnd t else exec .seqVarStep t)
    ∧ (s.pos.phase = 3 → step s = if s.pos.n = s.total then exec .seqGateEnd t else exec .seqGateStep t)
    ∧ (s.pos.phase = 4 → step s = if s.pos.n = s.total then exec .seqFilterEnd t else exec .seqFilterStep t)
    ∧ (s.pos.phase = 5 → step s = if s.pos.j = s.windows then exec .seqDetectEnd t else exec .seqDetectStep t)
    ∧ (s.pos.phase = 6 → step s = exec .seqFlush t)
    ∧ (s.pos.phase = 7 → step s = .fault .seqBadPhase)

/-! Reset (70_reset_and_hazards.md). -/

/-- R58, R330: a pulse on the reset input leaves every register at its reset value of the register map, the position idle,
the FSM in its start state with COOL = 0 and `irq` low; the build does not change (R333). What is left of the agenda stays
(log entry 16); WIN_CFG's pattern is log entry 13's; that the pulse also acts in a state with phase code 7
is log entry 21. A build that does not exist is refused, ReservedRowsStop. -/
def Obligations.ResetPulse : Prop :=
  ∀ (s : State) (rest : List Stimulus), s.build.detector ≠ 3 → s.port.agenda = .rst :: rest →
    ∃ t, step s = .next t ∧ (∀ r, regValue t r = regReset s.build r) ∧ t.pos = ⟨0, 0, 0⟩ ∧ t.fsm = ⟨0, 0, 0, 0, 0, 0⟩
      ∧ t.irq = false ∧ t.build = s.build ∧ t.port.agenda = rest

/-- R31, R58: the state right after reset of this hardware reads as the register map's reset column, for the default
build, register by register (WIN_CFG's pattern is log entry 13's); the position is idle, the FSM is in its start state and
`irq` is 0. -/
def Obligations.ResetValues : Prop :=
  Reg.all.map (regValue State.reset) =
    [0x464D5444, 0x00000000, 0x08BD08BD, 0x00100000, 0x00000400, 0x00000000, 0x00000000]
    ++ [0x00000000, 0x00000000, 0x00000000, 0x00000000, 0x00010304, 0x0000003F, 0x3F8CCCCD]
    ++ [0x358637BD, 0x40800000, 0x40000000, 0x3E800000, 0x3F733333, 0x3B3B7008, 0x00000000]
    ++ [0xBBBB7008, 0x00000000, 0x3B3B7008, 0xC073644F, 0x40AED917, 0xC060F875, 0x3F5AC4C7]
  ∧ State.reset.pos = ⟨0, 0, 0⟩ ∧ State.reset.fsm = ⟨0, 0, 0, 0, 0, 0⟩ ∧ State.reset.irq = false

/-- R58: the state right after reset is legal: it has the invariant of `StepKeepsLegal`. -/
def Obligations.ResetIsLegal : Prop := State.reset.Inv

/-! Transactions (43_control.md). -/

/-- R272: each of the 28 register reads `RD_<REG>` completes with OKAY whether BUSY is 0 or 1, changes nothing but the
response, and returns the register's current value: STATUS and CTRL field by field with reserved bits 0 and the two
actions reading 0, PLACEHOLDER and CAPS with their reserved bits 0, WIN_CFG as the pattern that R31 and R34 print (log entry
13, which says what speaks against it), the other registers as they are held. -/
def Obligations.RegisterReads : Prop :=
  ∀ (s : State) (r : Reg), ∃ v : Word, v = regValue s r
    ∧ exec r.readRow s = .next { s with port := { s.port with resp := some ⟨.okay, some v⟩ } }
    ∧ (r = .status → v.getLsbD 0 = s.status.busy ∧ v.getLsbD 1 = s.status.done ∧ v.getLsbD 2 = s.status.err
      ∧ v.getLsbD 3 = s.status.outOvf ∧ v.extractLsb' 4 4 = s.status.errCode ∧ v.extractLsb' 8 3 = s.pos.phase
      ∧ v.extractLsb' 11 21 = 0)
    ∧ (r = .ctrl → v.getLsbD 0 = false ∧ v.getLsbD 1 = false ∧ v.getLsbD 2 = s.irqEn ∧ v.extractLsb' 3 29 = 0)
    ∧ (r = .placeholder → v.extractLsb' 0 8 = s.cfg.pchar ∧ v.extractLsb' 8 24 = 0)
    ∧ (r = .caps → v.extractLsb' 0 2 = s.build.detector ∧ v.getLsbD 2 = s.build.halfStride ∧ v.extractLsb' 3 29 = 0)
    ∧ (r = .id → v = 0x464D5444)
    ∧ (r = .winCfg → v = if s.build.halfStride then 0x044E08BD else 0x08BD08BD)
    ∧ (r = .bufLen → v = BitVec.ofNat 32 s.build.bufLen)
    ∧ (r = .outLen → v = BitVec.ofNat 32 s.build.outLen)
    ∧ (r = .sampleCount → v = s.cfg.sampleCount) ∧ (r = .outCount → v = s.outCount)
    ∧ (r = .winCount → v = s.winCount) ∧ (r = .errInfo → v = s.errInfo) ∧ (r = .fsmCfg → v = s.cfg.fsmCfg)
    ∧ (r = .gateFactor → v = s.cfg.gateFactor) ∧ (r = .normEps → v = s.cfg.normEps)
    ∧ (r = .noiseFloor → v = s.cfg.noiseFloor) ∧ (r = .toneFloor → v = s.cfg.toneFloor)
    ∧ (r = .ratioThr → v = s.cfg.ratioThr) ∧ (r = .emphCoef → v = s.cfg.emphCoef)
    ∧ (r = .bpB0 → v = s.cfg.bpB0) ∧ (r = .bpB1 → v = s.cfg.bpB1) ∧ (r = .bpB2 → v = s.cfg.bpB2)
    ∧ (r = .bpB3 → v = s.cfg.bpB3) ∧ (r = .bpB4 → v = s.cfg.bpB4) ∧ (r = .bpA1 → v = s.cfg.bpA1)
    ∧ (r = .bpA2 → v = s.cfg.bpA2) ∧ (r = .bpA3 → v = s.cfg.bpA3) ∧ (r = .bpA4 → v = s.cfg.bpA4)

/-- R280: while BUSY = 0, each of the fifteen writes of a binary32 register (WR_GATE_FACTOR, WR_NORM_EPS, WR_NOISE_FLOOR,
WR_TONE_FLOOR, WR_RATIO_THR, WR_EMPH_COEF, WR_BP_B0 to WR_BP_B4, WR_BP_A1 to WR_BP_A4) stores all 32 bits of WDATA
unchanged, changes no other register and nothing else of the state, and answers OKAY. -/
def Obligations.Binary32Writes : Prop :=
  ∀ (s : State) (wdata : Word), ∀ r ∈ binary32Regs, s.status.busy = false →
    ∃ cfg : ConfigRegs,
      exec (r.writeRow wdata) s = .next { s with cfg := cfg, port := { s.port with resp := some ⟨.okay, none⟩ } }
      ∧ regValue { s with cfg := cfg } r = wdata
      ∧ ∀ q, q ≠ r → regValue { s with cfg := cfg } q = regValue s q

/-- R277, R278, R279: while BUSY = 0, WR_SAMPLE_COUNT stores WDATA with no range check, WR_FSM_CFG stores its four bytes as
CONFIRM, PAUSE, GUARD and COOLDOWN, WR_PLACEHOLDER stores WDATA[7:0] and ignores the rest; each changes no other register
and nothing else of the state, and answers OKAY. -/
def Obligations.IntegerWrites : Prop :=
  ∀ (s : State) (wdata : Word), s.status.busy = false →
    exec (.wrSampleCount wdata) s =
      .next { s with cfg := { s.cfg with sampleCount := wdata }, port := { s.port with resp := some ⟨.okay, none⟩ } }
    ∧ (∃ cfg : ConfigRegs, cfg = { s.cfg with fsmCfg := cfg.fsmCfg }
      ∧ exec (.wrFsmCfg wdata) s = .next { s with cfg := cfg, port := { s.port with resp := some ⟨.okay, none⟩ } }
      ∧ State.confirm { s with cfg := cfg } = wdata.extractLsb' 0 8
      ∧ State.pause { s with cfg := cfg } = wdata.extractLsb' 8 8
      ∧ State.guard { s with cfg := cfg } = wdata.extractLsb' 16 8
      ∧ State.cooldown { s with cfg := cfg } = wdata.extractLsb' 24 8)
    ∧ exec (.wrPlaceholder wdata) s =
      .next { s with cfg := { s.cfg with pchar := wdata.extractLsb' 0 8 },
                     port := { s.port with resp := some ⟨.okay, none⟩ } }

/-- R276: while BUSY = 0, WR_STATUS clears DONE when WDATA[1] is 1 and clears ERR with ERR_CODE and ERR_INFO when WDATA[2] is
1; a flag whose bit is 0 stays, BUSY, OUT_OVF and the position stay, and the response is OKAY. -/
def Obligations.StatusWrite : Prop :=
  ∀ (s : State) (wdata : Word), s.status.busy = false →
    ∃ t, exec (.wrStatus wdata) s = .next t
      ∧ t.status.done = (s.status.done && !wdata.getLsbD 1)
      ∧ t.status.err = (s.status.err && !wdata.getLsbD 2)
      ∧ t.status.errCode = (if wdata.getLsbD 2 then 0 else s.status.errCode)
      ∧ t.errInfo = (if wdata.getLsbD 2 then 0 else s.errInfo)
      ∧ t = { s with
          status := { s.status with done := t.status.done, err := t.status.err, errCode := t.status.errCode }
          errInfo := t.errInfo
          port := { s.port with resp := some ⟨.okay, none⟩ } }

/-- R331: a WR_CTRL with SOFT_RESET = 1 is accepted whatever BUSY and its other bits are: every register takes its reset
value, the position is idle, the FSM is in its start state, neither DONE nor ERR is set, and the response is OKAY. RAM
keeps its contents when BUSY was 0 (R332); when BUSY was 1, so does every byte outside OUT_RAM and outside the sample
words 0 to N-1. -/
def Obligations.SoftReset : Prop :=
  ∀ (s : State) (wdata : Word), wdata.getLsbD 1 = true →
    ∃ t, exec (.wrCtrl wdata) s = .next t
      ∧ (∀ r, regValue t r = regReset s.build r)
      ∧ t.status.done = false ∧ t.status.err = false
      ∧ t.pos = ⟨0, 0, 0⟩ ∧ t.fsm = ⟨0, 0, 0, 0, 0, 0⟩
      ∧ t.build = s.build
      ∧ t.port.resp = some ⟨.okay, none⟩ ∧ t.port.agenda = s.port.agenda
      ∧ (s.status.busy = false → t.mem = s.mem)
      ∧ ∀ a, ¬(0x1000 ≤ a ∧ a < 0x2000) → ¬(0x400000 ≤ a ∧ a < sampleAddr s.total) → t.mem.read a = s.mem.read a

/-- R263, R264, R302: a WR_CTRL with START = 1 and SOFT_RESET = 0 while BUSY = 0 writes IRQ_EN and acts. With more samples
than SAMPLE_RAM holds it is refused with E_COUNT: DONE, ERR, ERR_CODE and ERR_INFO are written and nothing else. Otherwise
the run begins: flags, counters, FSM registers, SUM, SUMSQ and position are set, RAM is not touched, and the phase is STATS,
or FLUSH when N = 0. The response is OKAY either way. -/
def Obligations.StartAction : Prop :=
  ∀ (s : State) (wdata : Word), wdata.getLsbD 1 = false → wdata.getLsbD 0 = true → s.status.busy = false →
    exec (.wrCtrl wdata) s =
      if s.build.bufLen < s.cfg.sampleCount.toNat then
        .next { s with
          irqEn := wdata.getLsbD 2
          status := { s.status with done := false, err := true, errCode := 1 }
          errInfo := s.cfg.sampleCount
          port := { s.port with resp := some ⟨.okay, none⟩ } }
      else
        .next { s with
          irqEn := wdata.getLsbD 2
          status := { busy := true, done := false, err := false, outOvf := false, errCode := 0 }
          errInfo := 0
          outCount := 0
          winCount := 0
          fsm := { lk := 0, same := 0, press := 0, sil := 0, gap := 0, cool := 0 }
          work := { s.work with sum := .fin false 0, sumSq := .fin false 0 }
          pos := { phase := if s.cfg.sampleCount = 0 then 6 else 1, n := 0, j := 0 }
          port := { s.port with resp := some ⟨.okay, none⟩ } }

/-- R274, R339: a WR_CTRL with SOFT_RESET = 0 that begins nothing. START = 1 while BUSY = 1 is answered with ERROR and has no
effect at all, IRQ_EN included; START = 0 writes IRQ_EN and nothing else, whether BUSY is 0 or 1. -/
def Obligations.ControlWriteWithoutStart : Prop :=
  ∀ (s : State) (wdata : Word), wdata.getLsbD 1 = false →
    (wdata.getLsbD 0 = true → s.status.busy = true →
      exec (.wrCtrl wdata) s = .next { s with port := { s.port with resp := some ⟨.error, none⟩ } })
    ∧ (wdata.getLsbD 0 = false →
      exec (.wrCtrl wdata) s =
        .next { s with irqEn := wdata.getLsbD 2, port := { s.port with resp := some ⟨.okay, none⟩ } })

/-- R281, R283: while BUSY = 0, RD_SAMPLE and RD_OUT return the RAM word of their index, byte +0 in bits [7:0], and change
nothing; a word beyond the RAM's size is answered as BUS_RESERVED is. -/
def Obligations.RamReads : Prop :=
  ∀ s : State, s.status.busy = false →
    (∀ n : BitVec 20,
      exec (.rdSample n) s =
        if n.toNat < s.build.bufLen then
          .next { s with port := { s.port with resp := some ⟨.okay, some
            (s.mem.read (sampleAddr n.toNat + 3) ++ s.mem.read (sampleAddr n.toNat + 2)
              ++ s.mem.read (sampleAddr n.toNat + 1) ++ s.mem.read (sampleAddr n.toNat))⟩ } }
        else exec (.busReserved false (sampleOffset n) 0) s)
    ∧ ∀ i : BitVec 10,
      exec (.rdOut i) s =
        if i.toNat < s.build.outLen then
          .next { s with port := { s.port with resp := some ⟨.okay, some
            (s.mem.read (outAddr i.toNat + 3) ++ s.mem.read (outAddr i.toNat + 2)
              ++ s.mem.read (outAddr i.toNat + 1) ++ s.mem.read (outAddr i.toNat))⟩ } }
        else exec (.busReserved false (outOffset i) 0) s

/-- R282: while BUSY = 0, WR_SAMPLE stores any WDATA unchanged in SAMPLE_RAM word n, where it reads back, changes no other
byte of memory and nothing else of the state, and answers OKAY; beyond SAMPLE_RAM it is answered as BUS_RESERVED is. -/
def Obligations.SampleWrite : Prop :=
  ∀ (s : State) (n : BitVec 20) (wdata : Word), s.mem.wf → s.status.busy = false →
    (n.toNat < s.build.bufLen → ∃ m : Memory,
      exec (.wrSample n wdata) s = .next { s with mem := m, port := { s.port with resp := some ⟨.okay, none⟩ } }
      ∧ m.readWord (sampleAddr n.toNat) = wdata
      ∧ ∀ a, a < sampleAddr n.toNat ∨ sampleAddr n.toNat + 4 ≤ a → m.read a = s.mem.read a)
    ∧ (s.build.bufLen ≤ n.toNat → exec (.wrSample n wdata) s = exec (.busReserved true (sampleOffset n) wdata) s)

/-- R270, R273, R284, R285: BUS_ILLEGAL, BUS_RESERVED, a write of a read-only register (WR_ID, WR_CAPS, WR_WIN_CFG,
WR_BUF_LEN, WR_OUT_LEN, WR_OUT_COUNT, WR_WIN_COUNT, WR_ERR_INFO) or of OUT_RAM (WR_OUT), and an access to a RAM word beyond the
RAM's size have no effect and are answered with ERROR, with read data 0 for a read, whether BUSY is 0 or 1. -/
def Obligations.RefusedTransactions : Prop :=
  ∀ (s : State) (wdata : Word),
    (∀ we addr size, exec (.busIllegal we addr size wdata) s =
      .next { s with port := { s.port with resp := some ⟨.error, if we then none else some 0⟩ } })
    ∧ (∀ we addr, exec (.busReserved we addr wdata) s =
      .next { s with port := { s.port with resp := some ⟨.error, if we then none else some 0⟩ } })
    ∧ (∀ r ∈ [Reg.id, .caps, .winCfg, .bufLen, .outLen, .outCount, .winCount, .errInfo],
      exec (r.writeRow wdata) s = .next { s with port := { s.port with resp := some ⟨.error, none⟩ } })
    ∧ (∀ i, exec (.wrOut i wdata) s = .next { s with port := { s.port with resp := some ⟨.error, none⟩ } })
    ∧ (∀ n : BitVec 20, s.build.bufLen ≤ n.toNat →
      exec (.rdSample n) s = .next { s with port := { s.port with resp := some ⟨.error, some 0⟩ } }
      ∧ exec (.wrSample n wdata) s = .next { s with port := { s.port with resp := some ⟨.error, none⟩ } })
    ∧ ∀ i : BitVec 10, s.build.outLen ≤ i.toNat →
      exec (.rdOut i) s = .next { s with port := { s.port with resp := some ⟨.error, some 0⟩ } }

/-- R286: while BUSY = 1 every transaction that is neither a register read nor a control write, of any row, offset and size,
is refused with an ERROR response, with read data 0 for a read, and has no effect. -/
def Obligations.BusyGate : Prop :=
  ∀ (s : State) (we : Bool) (addr : BitVec 24) (size : Size) (wdata : Word), s.status.busy = true →
    (∀ r : Reg, decodeTransaction we addr size wdata ≠ r.readRow) →
    (∀ w : Word, decodeTransaction we addr size wdata ≠ .wrCtrl w) →
      exec (decodeTransaction we addr size wdata) s =
        .next { s with port := { s.port with resp := some ⟨.error, if we then none else some 0⟩ } }

/-- R261, R286, R336, R337: a host step while BUSY = 1 that is no soft reset completes and can change only IRQ_EN and the
response: the run, its configuration and both RAMs are undisturbed. -/
def Obligations.HostCannotDisturbRun : Prop :=
  ∀ (s : State) (i : Instr), s.status.busy = true → isBusRow i = true →
    (∀ w, i = .wrCtrl w → w.getLsbD 1 = false) → ∃ t, exec i s = .next t ∧ t.core = s.core

/-! The preprocessor (40_preprocessor.md). -/

/-- R141: SEQ_STATS_STEP on a sample that exists. A finite sample is added to SUM and its square to SUMSQ, and the index
advances; an infinity or a NaN raises E_SAMPLE(n). Nothing else changes; that n and j stay when the error ends the run (R268)
is log entry 18. -/
def Obligations.StatsStep : Prop :=
  encode .seqStatsStep = ⟨.seq, [0x02]⟩ ∧ ∀ s : State, s.pos.n < s.build.bufLen →
    let v := F32.ofBits (s.mem.readWord (sampleAddr s.pos.n))
    (v.isFinite = true → exec .seqStatsStep s = .next { s with
      work := { s.work with sum := s.work.sum.add v, sumSq := s.work.sumSq.add (v.mul v) }
      pos := { s.pos with n := s.pos.n + 1 } })
    ∧ (v.isFinite = false → exec .seqStatsStep s = .next { s with
      status := { s.status with busy := false, err := true, errCode := 2 }
      errInfo := BitVec.ofNat 32 s.pos.n
      pos := { s.pos with phase := 0 } })

/-- R142: SEQ_STATS_END. With finite sums MEAN is SUM ÷ f(N), ACC is +0.0 and pass VAR begins; else it raises E_STAT(0).
Nothing else changes; that n and j stay when the error ends the run (R268) is log entry 18. -/
def Obligations.StatsEnd : Prop :=
  encode .seqStatsEnd = ⟨.seq, [0x03]⟩ ∧ ∀ s : State,
    (s.work.sum.isFinite = true ∧ s.work.sumSq.isFinite = true → exec .seqStatsEnd s = .next { s with
      work := { s.work with mean := s.work.sum.div (F32.ofNat s.cfg.sampleCount.toNat), acc := .fin false 0 }
      pos := { s.pos with phase := 2, n := 0 } })
    ∧ (s.work.sum.isFinite = false ∨ s.work.sumSq.isFinite = false → exec .seqStatsEnd s = .next { s with
      status := { s.status with busy := false, err := true, errCode := 3 }
      errInfo := 0
      pos := { s.pos with phase := 0 } })

/-- R143: SEQ_VAR_STEP on a sample that exists adds the square of its difference to MEAN to ACC and advances the index;
nothing else changes. -/
def Obligations.VarStep : Prop :=
  encode .seqVarStep = ⟨.seq, [0x04]⟩ ∧ ∀ s : State, s.pos.n < s.build.bufLen →
    let d := (F32.ofBits (s.mem.readWord (sampleAddr s.pos.n))).sub s.work.mean
    exec .seqVarStep s = .next { s with
      work := { s.work with acc := s.work.acc.add (d.mul d) }
      pos := { s.pos with n := s.pos.n + 1 } }

/-- R144: SEQ_VAR_END. STD = sqrt(ACC ÷ f(N)), RMS = sqrt(SUMSQ ÷ f(N)), THR = MEAN + GATE_FACTOR × STD, GATE = RMS × THR;
when ACC, THR and GATE are finite, MAXABS is +0.0 and pass GATE begins; otherwise it raises E_STAT(0), with the four
registers written when only the second test fails (log entry 19). Nothing else changes; that n and j stay when the error ends
the run (R268) is log entry 18. -/
def Obligations.VarEnd : Prop :=
  encode .seqVarEnd = ⟨.seq, [0x05]⟩ ∧ ∀ s : State,
    let count := F32.ofNat s.cfg.sampleCount.toNat
    let std := (s.work.acc.div count).sqrt
    let rms := (s.work.sumSq.div count).sqrt
    let thr := s.work.mean.add ((F32.ofBits s.cfg.gateFactor).mul std)
    let gate := rms.mul thr
    (s.work.acc.isFinite = true ∧ thr.isFinite = true ∧ gate.isFinite = true → exec .seqVarEnd s = .next { s with
      work := { s.work with std := std, rms := rms, thr := thr, gate := gate, maxAbs := .fin false 0 }
      pos := { s.pos with phase := 3, n := 0 } })
    ∧ (s.work.acc.isFinite = false → exec .seqVarEnd s = .next { s with
      status := { s.status with busy := false, err := true, errCode := 3 }
      errInfo := 0
      pos := { s.pos with phase := 0 } })
    ∧ (s.work.acc.isFinite = true → thr.isFinite = false ∨ gate.isFinite = false →
      exec .seqVarEnd s = .next { s with
        work := { s.work with std := std, rms := rms, thr := thr, gate := gate }
        status := { s.status with busy := false, err := true, errCode := 3 }
        errInfo := 0
        pos := { s.pos with phase := 0 } })

/-- R145: SEQ_GATE_STEP on a sample that exists. A sample whose absolute value is below GATE becomes +0.0, any other keeps
its pattern; the word reads back so, no other byte of memory changes; MAXABS is raised to the new absolute value if that is
larger; the index advances; nothing else changes. -/
def Obligations.GateStep : Prop :=
  encode .seqGateStep = ⟨.seq, [0x06]⟩ ∧ ∀ s : State, s.mem.wf → s.pos.n < s.build.bufLen →
    let w := s.mem.readWord (sampleAddr s.pos.n)
    let v := if F32.lt (F32.ofBits w).abs s.work.gate then 0 else w
    ∃ m : Memory,
      exec .seqGateStep s = .next { s with
        mem := m
        work := { s.work with
          maxAbs := if F32.lt s.work.maxAbs (F32.ofBits v).abs then (F32.ofBits v).abs else s.work.maxAbs }
        pos := { s.pos with n := s.pos.n + 1 } }
      ∧ m.readWord (sampleAddr s.pos.n) = v
      ∧ ∀ a, a < sampleAddr s.pos.n ∨ sampleAddr s.pos.n + 4 ≤ a → m.read a = s.mem.read a

/-- R146: SEQ_GATE_END decides NORM (a NaN NORM_EPS turns it on), clears the delay line and begins pass FILTER; nothing else
changes. -/
def Obligations.GateEnd : Prop :=
  encode .seqGateEnd = ⟨.seq, [0x07]⟩ ∧ ∀ s : State, exec .seqGateEnd s = .next { s with
    work := { s.work with norm := !F32.lt s.work.maxAbs (F32.ofBits s.cfg.normEps) }
    line := { x1 := .fin false 0, x2 := .fin false 0, x3 := .fin false 0, x4 := .fin false 0,
              y1 := .fin false 0, y2 := .fin false 0, y3 := .fin false 0, y4 := .fin false 0 }
    pos := { s.pos with phase := 4, n := 0 } }

/-- R147 to R150: SEQ_FILTER_STEP on a sample that exists: normalization by one division, the fourth-order recursive filter
in the order written, pre-emphasis with the previous filter output. A finite result is written back where it reads back, no
other byte of memory changes, the delay line shifts and the index advances; a result that is not finite raises E_FILTER(n)
with the word and the delay line as they were. That n and j stay when the error ends the run (R268) is log entry 18. -/
def Obligations.FilterStep : Prop :=
  encode .seqFilterStep = ⟨.seq, [0x08]⟩ ∧ ∀ s : State, s.mem.wf → s.pos.n < s.build.bufLen →
    let c := s.cfg
    let l := s.line
    let v := F32.ofBits (s.mem.readWord (sampleAddr s.pos.n))
    let u := if s.work.norm then v.div s.work.maxAbs else v
    let y0 := (F32.ofBits c.bpB0).mul u
    let y1 := y0.add ((F32.ofBits c.bpB1).mul l.x1)
    let y2 := y1.add ((F32.ofBits c.bpB2).mul l.x2)
    let y3 := y2.add ((F32.ofBits c.bpB3).mul l.x3)
    let y4 := y3.add ((F32.ofBits c.bpB4).mul l.x4)
    let y5 := y4.sub ((F32.ofBits c.bpA1).mul l.y1)
    let y6 := y5.sub ((F32.ofBits c.bpA2).mul l.y2)
    let y7 := y6.sub ((F32.ofBits c.bpA3).mul l.y3)
    let y := y7.sub ((F32.ofBits c.bpA4).mul l.y4)
    let e := y.sub ((F32.ofBits c.emphCoef).mul l.y1)
    (e.isFinite = true → ∃ m : Memory,
      exec .seqFilterStep s = .next { s with
        mem := m
        line := { x1 := u, x2 := l.x1, x3 := l.x2, x4 := l.x3, y1 := y, y2 := l.y1, y3 := l.y2, y4 := l.y3 }
        pos := { s.pos with n := s.pos.n + 1 } }
      ∧ m.readWord (sampleAddr s.pos.n) = e.toBits
      ∧ ∀ a, a < sampleAddr s.pos.n ∨ sampleAddr s.pos.n + 4 ≤ a → m.read a = s.mem.read a)
    ∧ (e.isFinite = false → exec .seqFilterStep s = .next { s with
      status := { s.status with busy := false, err := true, errCode := 4 }
      errInfo := BitVec.ofNat 32 s.pos.n
      pos := { s.pos with phase := 0 } })

/-- R151, R197, R265: SEQ_FILTER_END moves to DETECT at window 0 and SEQ_DETECT_END moves to FLUSH; each changes nothing
but the position. That SEQ_FILTER_END sets n = 0 is R265's reading, log entry 12. -/
def Obligations.PhaseEnds : Prop :=
  ∀ s : State, exec .seqFilterEnd s = .next { s with pos := { phase := 5, n := 0, j := 0 } }
    ∧ exec .seqDetectEnd s = .next { s with pos := { phase := 6, n := s.pos.n, j := s.pos.j } }

/-! The detector (41_detector.md). -/

/-- R175 to R180: DET_CLASSIFY_GOERTZEL. HAMMING and GCOEF hold the binary32 numbers nearest to their formulas (R23). On a
window that exists, presented in phase DETECT (log entry 5): the magnitude of each tone is the Goertzel recursion's, in the
order written, that of a key is the sum of its two tones'; with all of them finite, the class is the best key, or 0 below
NOISE_FLOOR, and it stands on the detector's output; otherwise E_DETECT(j) is raised. Nothing else changes. That n and j stay
when E_DETECT ends the run is log entry 18. -/
def Obligations.GoertzelClassification : Prop :=
  encode .detClassifyGoertzel = ⟨.det, [0x00]⟩
  ∧ (∀ n : Nat, n < 2205 → RoundsTo (0.54 - 0.46 * Real.cos (2 * Real.pi * n / 2204)) (Rom.hamming n))
  ∧ (∀ f : Nat, f ∈ [697, 770, 852, 941, 1209, 1336, 1477] → RoundsTo (2 * Real.cos (2 * Real.pi * f / 44100)) (Rom.gcoef f))
  ∧ ∀ s : State, s.windowExists s.pos.j →
    let x (n : Nat) : F32 := F32.ofBits (s.mem.readWord (sampleAddr (s.pos.j * s.build.stride + n)))
    let r (f : Nat) : F32 × F32 := (List.range 2205).foldl
      (fun (p : F32 × F32) n => ((((x n).mul (Rom.hamming n)).add ((Rom.gcoef f).mul p.1)).sub p.2, p.1))
      (.fin false 0, .fin false 0)
    let freqs : List Nat := [697, 770, 852, 941, 1209, 1336, 1477]
    let power (f : Nat) : F32 :=
      (((r f).1.mul (r f).1).add ((r f).2.mul (r f).2)).sub (((Rom.gcoef f).mul (r f).1).mul (r f).2)
    let mag (f : Nat) : F32 := if F32.lt (power f) (.fin false 0) then .fin false 0 else (power f).sqrt
    let key (k : Nat) : F32 :=
      (mag ([697, 770, 852, 941].getD ((k - 1) / 3) 0)).add (mag ([1209, 1336, 1477].getD ((k - 1) % 3) 0))
    let keys : List Nat := [1, 2, 3, 4, 5, 6, 7, 8, 9, 10, 11, 12]
    let best := bestKey (keys.map key)
    exec .detClassifyGoertzel s =
      if (∀ f ∈ freqs, (mag f).isFinite = true) ∧ (∀ k ∈ keys, (key k).isFinite = true) then
        .next { s with port := { s.port with
          cls := if F32.lt (key best) (F32.ofBits s.cfg.noiseFloor) then 0 else BitVec.ofNat 4 best } }
      else
        .next { s with
          status := { s.status with busy := false, err := true, errCode := 5 }
          errInfo := BitVec.ofNat 32 s.pos.j
          pos := { s.pos with phase := 0 } }

/-- R177 to R179, R181: DET_CLASSIFY_GOERTZEL_STRICT on a window that exists, presented in phase DETECT (log entry 5): as the
Goertzel variant, over the same tables, and the best key is also rejected when one of its tones is below TONE_FLOOR, when
the larger tone is 0, or when the ratio of the smaller to the larger is at most RATIO_THR. That n and j stay when E_DETECT
ends the run is log entry 18. -/
def Obligations.StrictClassification : Prop :=
  encode .detClassifyGoertzelStrict = ⟨.det, [0x01]⟩ ∧ ∀ s : State, s.windowExists s.pos.j →
    let x (n : Nat) : F32 := F32.ofBits (s.mem.readWord (sampleAddr (s.pos.j * s.build.stride + n)))
    let r (f : Nat) : F32 × F32 := (List.range 2205).foldl
      (fun (p : F32 × F32) n => ((((x n).mul (Rom.hamming n)).add ((Rom.gcoef f).mul p.1)).sub p.2, p.1))
      (.fin false 0, .fin false 0)
    let freqs : List Nat := [697, 770, 852, 941, 1209, 1336, 1477]
    let power (f : Nat) : F32 :=
      (((r f).1.mul (r f).1).add ((r f).2.mul (r f).2)).sub (((Rom.gcoef f).mul (r f).1).mul (r f).2)
    let mag (f : Nat) : F32 := if F32.lt (power f) (.fin false 0) then .fin false 0 else (power f).sqrt
    let low (k : Nat) : F32 := mag ([697, 770, 852, 941].getD ((k - 1) / 3) 0)
    let high (k : Nat) : F32 := mag ([1209, 1336, 1477].getD ((k - 1) % 3) 0)
    let key (k : Nat) : F32 := (low k).add (high k)
    let keys : List Nat := [1, 2, 3, 4, 5, 6, 7, 8, 9, 10, 11, 12]
    let best := bestKey (keys.map key)
    let mx := F32.max (low best) (high best)
    let mn := F32.min (low best) (high best)
    exec .detClassifyGoertzelStrict s =
      if (∀ f ∈ freqs, (mag f).isFinite = true) ∧ (∀ k ∈ keys, (key k).isFinite = true) then
        .next { s with port := { s.port with
          cls := if F32.lt (key best) (F32.ofBits s.cfg.noiseFloor) then 0
                 else if F32.lt (low best) (F32.ofBits s.cfg.toneFloor) || F32.lt (high best) (F32.ofBits s.cfg.toneFloor)
                 then 0
                 else if mx.place = some 0 then 0
                 else if F32.le (mn.div mx) (F32.ofBits s.cfg.ratioThr) then 0
                 else BitVec.ofNat 4 best } }
      else
        .next { s with
          status := { s.status with busy := false, err := true, errCode := 5 }
          errInfo := BitVec.ofNat 32 s.pos.j
          pos := { s.pos with phase := 0 } }

/-- R185 to R190: DET_CLASSIFY_SPECTRAL. HANN, COS_T and SIN_T hold the binary32 numbers nearest to their formulas, `+0.0`
where the formula is 0 (R23, R187). On a window that exists, presented in phase DETECT (log entry 5): the magnitude of each of
the 21 bins is that of its direct sum in the order written, that of a key is the sum of its six bins'; with all of them
finite, the class is the best key, or 0 below NOISE_FLOOR; otherwise E_DETECT(j) is raised. Nothing else changes. That n and j
stay when E_DETECT ends the run is log entry 18. -/
def Obligations.SpectralClassification : Prop :=
  encode .detClassifySpectral = ⟨.det, [0x02]⟩
  ∧ (∀ n : Nat, n < 2205 → RoundsTo (0.5 - 0.5 * Real.cos (2 * Real.pi * n / 2204)) (Rom.hann n))
  ∧ (∀ i : Nat, i < 4096 → RoundsTo (Real.cos (2 * Real.pi * i / 4096)) (Rom.cosT i)
    ∧ RoundsTo (Real.sin (2 * Real.pi * i / 4096)) (Rom.sinT i))
  ∧ (∀ y ∈ [Rom.hann 0, Rom.hann 2204, Rom.cosT 1024, Rom.cosT 3072, Rom.sinT 0, Rom.sinT 2048], y = .fin false 0)
  ∧ ∀ s : State, s.windowExists s.pos.j →
    let x (n : Nat) : F32 := F32.ofBits (s.mem.readWord (sampleAddr (s.pos.j * s.build.stride + n)))
    let r (b : Nat) : F32 × F32 := (List.range 2205).foldl
      (fun (p : F32 × F32) n =>
        (p.1.add (((x n).mul (Rom.hann n)).mul (Rom.cosT (b * n % 4096))),
          p.2.sub (((x n).mul (Rom.hann n)).mul (Rom.sinT (b * n % 4096)))))
      (.fin false 0, .fin false 0)
    let mag (b : Nat) : F32 := (((r b).1.mul (r b).1).add ((r b).2.mul (r b).2)).sqrt
    let key (k : Nat) : F32 :=
      let lo := [65, 72, 79, 87].getD ((k - 1) / 3) 0
      let hi := [112, 124, 137].getD ((k - 1) % 3) 0
      let l := (((F32.fin false 0).add (mag (lo - 1))).add (mag lo)).add (mag (lo + 1))
      ((l.add (mag (hi - 1))).add (mag hi)).add (mag (hi + 1))
    let bins : List Nat :=
      [64, 65, 66, 71, 72, 73, 78, 79, 80, 86, 87, 88, 111, 112, 113, 123, 124, 125, 136, 137, 138]
    let keys : List Nat := [1, 2, 3, 4, 5, 6, 7, 8, 9, 10, 11, 12]
    let best := bestKey (keys.map key)
    exec .detClassifySpectral s =
      if (∀ b ∈ bins, (mag b).isFinite = true) ∧ (∀ k ∈ keys, (key k).isFinite = true) then
        .next { s with port := { s.port with
          cls := if F32.lt (key best) (F32.ofBits s.cfg.noiseFloor) then 0 else BitVec.ofNat 4 best } }
      else
        .next { s with
          status := { s.status with busy := false, err := true, errCode := 5 }
          errInfo := BitVec.ofNat 32 s.pos.j
          pos := { s.pos with phase := 0 } }

/-- R180, R190 and their corner cases: a window of zeros is classified without an error by every variant. Its class is 0
when NOISE_FLOOR > 0 and 1 when NOISE_FLOOR ≤ 0 or is a NaN; the strict variant rejects it whatever the floors are (R181).
The three DET_CLASSIFY operations complete so, and a SEQ_DETECT_STEP over such a window steps the FSM with that class (R196),
in every build but DETECTOR = 3. That a DET_CLASSIFY operation is presented alone, and that the class code is left in the
field `cls`, are the model's, log entry 5. -/
def Obligations.ZeroWindowCompletes : Prop :=
  ∀ s : State, s.windowExists s.pos.j →
    (∀ n < 2205, s.mem.readWord (sampleAddr (s.pos.j * s.build.stride + n)) = 0) →
    let c : BitVec 4 := if F32.lt F32.zero (F32.ofBits s.cfg.noiseFloor) then 0 else 1
    let t : State := { s with port := { s.port with cls := c } }
    let t0 : State := { s with port := { s.port with cls := 0 } }
    exec .detClassifyGoertzel s = .next t
    ∧ exec .detClassifySpectral s = .next t
    ∧ exec .detClassifyGoertzelStrict s = .next t0
    ∧ (s.build.detector = 0 ∨ s.build.detector = 2 → exec .seqDetectStep s = .next { t.fsmStep c with
        winCount := BitVec.ofNat 32 (s.pos.j + 1), pos := { s.pos with j := s.pos.j + 1 } })
    ∧ (s.build.detector = 1 → exec .seqDetectStep s = .next { t0.fsmStep 0 with
        winCount := BitVec.ofNat 32 (s.pos.j + 1), pos := { s.pos with j := s.pos.j + 1 } })

/-- R195: a classification answers a class code of 0 to 12, or no class at all (E_DETECT); 13 to 15 are never produced. -/
def Obligations.ClassCodeRange : Prop :=
  ∀ (x : List F32) (floor toneFloor ratioThr : F32) (c : BitVec 4),
    classifyGoertzel x floor = some c ∨ classifyStrict x floor toneFloor ratioThr = some c
      ∨ classifySpectral x floor = some c → c.toNat ≤ 12

/-- R192: maximum selection over twelve finite key magnitudes answers a key whose magnitude none exceeds, and among equal
maxima the lowest key. -/
def Obligations.BestKeyIsFirstMaximum : Prop :=
  ∀ ks : List F32, ks.length = 12 → (∀ x ∈ ks, x.isFinite = true) →
    1 ≤ bestKey ks ∧ bestKey ks ≤ 12
    ∧ (∀ k, 1 ≤ k → k ≤ 12 → F32.le (keyMagAt ks k) (keyMagAt ks (bestKey ks)) = true)
    ∧ ∀ k, 1 ≤ k → k < bestKey ks → F32.lt (keyMagAt ks k) (keyMagAt ks (bestKey ks)) = true

/-- R181: the strict variant's extra tests apply only to the best key and can only reject it: its class is 0 or the class of
the Goertzel variant for the same window and floor, and the two fail on the same windows. -/
def Obligations.StrictRefinesGoertzel : Prop :=
  ∀ (x : List F32) (floor toneFloor ratioThr : F32),
    (classifyStrict x floor toneFloor ratioThr = none ↔ classifyGoertzel x floor = none)
    ∧ ∀ c, classifyStrict x floor toneFloor ratioThr = some c → c = 0 ∨ classifyGoertzel x floor = some c

/-- R170, R172, R174: the window input is the 2205 words from j·P_STRIDE on, and a classification depends only on it and the
calibration registers: two states that agree on these words and registers, whatever else they hold and whichever window index
it is, have the same window input and get the same class from each variant. -/
def Obligations.WindowsAreIndependent : Prop :=
  ∀ (s t : State) (j k : Nat), s.windowExists j → t.windowExists k →
    (∃ x, s.window? j = some x ∧ x.length = 2205
      ∧ ∀ n < 2205, x[n]? = some (F32.ofBits (s.mem.readWord (sampleAddr (j * s.build.stride + n)))))
    ∧ ((∀ n < 2205, s.mem.readWord (sampleAddr (j * s.build.stride + n))
        = t.mem.readWord (sampleAddr (k * t.build.stride + n))) →
      s.cfg.noiseFloor = t.cfg.noiseFloor → s.cfg.toneFloor = t.cfg.toneFloor → s.cfg.ratioThr = t.cfg.ratioThr →
      s.window? j = t.window? k
        ∧ ∀ d classify x, detectorOf d = some classify → s.window? j = some x → classify s x = classify t x)

/-- R196: SEQ_DETECT_STEP over a window that exists. When the build's detector gives the window class c, the step does what
the class row of c does to that state, then WIN_COUNT and j become j + 1; when it gives none, E_DETECT(j) is raised and the
window is not stepped. That the class code is left in the field `cls` is log entry 5, and that n and j stay when E_DETECT ends
the run (R268) is log entry 18. -/
def Obligations.DetectStep : Prop :=
  encode .seqDetectStep = ⟨.seq, [0x0A]⟩ ∧
    ∀ (s : State) (classify : State → List F32 → Option (BitVec 4)), s.windowExists s.pos.j →
    detectorOf s.build.detector = some classify →
    (∀ c, classify s (s.windowAt s.pos.j) = some c →
      ∃ t, exec (decodeClass c) { s with port := { s.port with cls := c } } = .next t
        ∧ exec .seqDetectStep s = .next { t with
            winCount := BitVec.ofNat 32 (s.pos.j + 1), pos := { s.pos with j := s.pos.j + 1 } })
    ∧ (classify s (s.windowAt s.pos.j) = none → exec .seqDetectStep s = .next { s with
      status := { s.status with busy := false, err := true, errCode := 5 }
      errInfo := BitVec.ofNat 32 s.pos.j
      pos := { s.pos with phase := 0 } })

/-- R116, R120, R122, R321: the reserved encodings stop: a class code 13 to 15 is the model fault `FSM_BAD_CLASS`, and detector 3
is refused, as the DET row, in a SEQ_DETECT_STEP of such a build, and as a configuration: no step of such a build is
performed, whatever stands on the agenda. -/
def Obligations.ReservedRowsStop : Prop :=
  ∀ s : State, exec .clsReserved13 s = .fault .fsmBadClass ∧ (∀ low, exec (.clsReserved1415 low) s = .fault .fsmBadClass)
    ∧ exec .detReserved s = .refused .noSuchBuild
    ∧ (s.build.detector = 3 → exec .seqDetectStep s = .refused .noSuchBuild ∧ step s = .refused .noSuchBuild)

/-! The segmentation state machine (42_segmentation.md). -/

/-- R223 to R227: FSM_STEP_KEY_1 to FSM_STEP_KEY_12 with COOL = 0, the row of key k: what GAP, LK, SAME and PRESS become on
a first detection, on the same key, on another key within the guard interval, and on a real key change; SIL is 0; nothing
outside LK, SAME, PRESS, SIL and GAP changes. -/
def Obligations.KeyStep : Prop :=
  ∀ (s : State) (k : BitVec 4) (i : Instr), (k, i) ∈ keyRows → s.fsm.cool = 0 →
    encode i = ⟨.cls, [(0 : BitVec 4) ++ k]⟩ ∧ ∃ f : Fsm, exec i s = .next { s with fsm := f } ∧ f.cool = 0 ∧ f.sil = 0
      ∧ f.gap.toNat = (if s.fsm.gap = 0 then 0 else min (s.fsm.gap.toNat + 1) 255)
      ∧ (s.fsm.lk = 0 → f.lk = k ∧ f.same = 1 ∧ f.press = 0)
      ∧ (s.fsm.lk ≠ 0 → k = s.fsm.lk →
        f.lk = s.fsm.lk ∧ f.same.toNat = min (s.fsm.same.toNat + 1) 255 ∧ f.press = s.fsm.press)
      ∧ (s.fsm.lk ≠ 0 → k ≠ s.fsm.lk → f.gap ≠ 0 ∧ f.gap.toNat - 1 ≤ s.guard.toNat →
        f.lk = s.fsm.lk ∧ f.same.toNat = min (s.fsm.same.toNat + 1) 255 ∧ f.press = s.fsm.press)
      ∧ (s.fsm.lk ≠ 0 → k ≠ s.fsm.lk → ¬(f.gap ≠ 0 ∧ f.gap.toNat - 1 ≤ s.guard.toNat) →
        f.lk = k ∧ f.same = 1 ∧ f.press = 0)

/-- R228 to R230: FSM_STEP_SILENCE with COOL = 0. SIL and GAP count, a run of at least CONFIRM windows counts one press, SAME
is 0. When SIL reaches PAUSE with a key held, the FSM returns to its start state, after emitting the key and its presses and
loading COOL if there is a press, and without output if there is none. Nothing else changes. -/
def Obligations.SilenceStep : Prop :=
  encode .fsmStepSilence = ⟨.cls, [0x00]⟩ ∧ ∀ (s : State) (sil gap press : Byte), s.fsm.cool = 0 →
    sil.toNat = min (s.fsm.sil.toNat + 1) 255 →
    gap.toNat = (if s.fsm.sil = 0 then 1 else min (s.fsm.gap.toNat + 1) 255) →
    press.toNat = (if s.confirm.toNat ≤ s.fsm.same.toNat then min (s.fsm.press.toNat + 1) 255
      else s.fsm.press.toNat) →
    exec .fsmStepSilence s =
      if s.pause.toNat ≤ sil.toNat ∧ s.fsm.lk ≠ 0 then
        if 1 ≤ press.toNat then
          .next { s.emit s.fsm.lk press with fsm := { lk := 0, same := 0, press := 0, sil := 0, gap := 0, cool := s.cooldown } }
        else .next { s with fsm := { lk := 0, same := 0, press := 0, sil := 0, gap := 0, cool := 0 } }
      else .next { s with fsm := { lk := s.fsm.lk, same := 0, press := press, sil := sil, gap := gap, cool := 0 } }

/-- R222, R234: while COOL > 0 a window of any class, silence or key, only decrements COOL. -/
def Obligations.CooldownTakesWindow : Prop :=
  ∀ (s : State) (i : Instr), (i = .fsmStepSilence ∨ ∃ k, (k, i) ∈ keyRows) → s.fsm.cool ≠ 0 →
    ∃ c : Byte, c.toNat + 1 = s.fsm.cool.toNat ∧ exec i s = .next { s with fsm := { s.fsm with cool := c } }

/-- R231, R267: SEQ_FLUSH emits a held key with its presses, a final run of at least CONFIRM windows counting as one more,
if there is a press; then the FSM is in its start state with COOL = 0 and the run is complete: DONE is 1, BUSY is 0, the
phase is IDLE. Nothing else changes; that n and j stay when the run ends is log entry 18. -/
def Obligations.Flush : Prop :=
  encode .seqFlush = ⟨.seq, [0x0D]⟩ ∧ ∀ (s : State) (p : Byte),
    p.toNat = min (s.fsm.press.toNat + (if s.confirm.toNat ≤ s.fsm.same.toNat then 1 else 0)) 255 →
    ∃ t, t = (if s.fsm.lk ≠ 0 ∧ 1 ≤ p.toNat then s.emit s.fsm.lk p else s)
      ∧ exec .seqFlush s = .next { t with
        fsm := { lk := 0, same := 0, press := 0, sil := 0, gap := 0, cool := 0 }
        status := { t.status with done := true, busy := false }
        pos := { s.pos with phase := 0 } }

/-- R118, R236: an emission with room writes the entry at OUT_COUNT, field by field, where it reads back, changes no other
byte of memory and adds one to OUT_COUNT; without room it sets OUT_OVF and loses the entry. Nothing else changes. -/
def Obligations.Emission : Prop :=
  ∀ (s : State) (k : BitVec 4) (p : Byte), s.mem.wf → s.build.outLen ≤ 1024 →
    (s.outCount.toNat < s.build.outLen → ∃ m : Memory,
      s.emit k p = { s with mem := m, outCount := s.outCount + 1 }
      ∧ (∃ e : Word, m.readWord (outAddr s.outCount.toNat) = e ∧ e.extractLsb' 24 8 = 0 ∧ e.extractLsb' 16 8 = p
        ∧ e.extractLsb' 12 4 = k ∧ e.extractLsb' 9 3 = 0
        ∧ (∀ code, symtab k p = some code → e.getLsbD 8 = false ∧ e.extractLsb' 0 8 = code)
        ∧ (symtab k p = none → e.getLsbD 8 = true ∧ e.extractLsb' 0 8 = s.cfg.pchar))
      ∧ ∀ a, a < outAddr s.outCount.toNat ∨ outAddr s.outCount.toNat + 4 ≤ a → m.read a = s.mem.read a)
    ∧ (s.build.outLen ≤ s.outCount.toNat → s.emit k p = { s with status := { s.status with outOvf := true } })

/-- R15, R50: the reverse symbol table holds the two fixed entries and no character code twice, whatever its open entries
are (log entry 8). -/
def Obligations.SymbolTableInjective : Prop :=
  symtab 4 3 = some 0x48 ∧ symtab 4 4 = some 0x49
  ∧ ∀ (k k' : BitVec 4) (p p' c : Byte), symtab k p = some c → symtab k' p' = some c → k = k' ∧ p = p'

/-- R229, R237: a run of detection windows of the current key, followed by one silent window with PAUSE above 1, adds one press
exactly when the run has at least CONFIRM windows; a shorter run never adds a press. -/
def Obligations.ShortRunsAddNoPress : Prop :=
  ∀ (s : State) (m : Nat), 1 ≤ m → s.fsm.cool = 0 → s.fsm.lk ≠ 0 → s.fsm.same = 0 →
    2 ≤ s.pause.toNat →
    let f := ((List.replicate m s.fsm.lk ++ [0]).foldl State.fsmStep s).fsm
    f.lk = s.fsm.lk ∧ f.same = 0
      ∧ f.press.toNat = if s.confirm.toNat ≤ m then min (s.fsm.press.toNat + 1) 255 else s.fsm.press.toNat

/-! Errors and the interrupt (60_exceptions.md). -/

/-- R57, R312: in a run, `irq` is high after a micro-step exactly when that micro-step ended the run and IRQ_EN is 1. -/
def Obligations.IrqRisesAtRunEnd : Prop :=
  ∀ (s t : State) (i : Instr), isMicroOp i = true → s.StatusLegal → s.status.busy = true → exec i s = .next t →
    t.irq = (s.irqEn && !t.status.busy)

/-- R268, R303: a micro-operation that raises an error leaves ERR = 1 with the code and info of R301's table for it, BUSY =
0, phase IDLE and DONE as it was; memory, OUT_COUNT, WIN_COUNT and the FSM registers are as before it: no flush is
performed. -/
def Obligations.ErrorEntry : Prop :=
  ∀ (s t : State) (i : Instr), isMicroOp i = true → s.status.err = false → exec i s = .next t → t.status.err = true →
    t.status.busy = false ∧ t.pos.phase = 0 ∧ t.status.done = s.status.done ∧ t.status.outOvf = s.status.outOvf
    ∧ t.mem = s.mem ∧ t.outCount = s.outCount ∧ t.winCount = s.winCount ∧ t.fsm = s.fsm
    ∧ ((i = .seqStatsStep ∧ t.status.errCode = 2 ∧ t.errInfo = BitVec.ofNat 32 s.pos.n)
      ∨ (i = .seqStatsEnd ∧ t.status.errCode = 3 ∧ t.errInfo = 0)
      ∨ (i = .seqVarEnd ∧ t.status.errCode = 3 ∧ t.errInfo = 0)
      ∨ (i = .seqFilterStep ∧ t.status.errCode = 4 ∧ t.errInfo = BitVec.ofNat 32 s.pos.n)
      ∨ (i = .seqDetectStep ∧ t.status.errCode = 5 ∧ t.errInfo = BitVec.ofNat 32 s.pos.j))

/-- R61, R340: over all operations, DONE is set only by SEQ_FLUSH, ERR only by the micro-operations that check, by the
detector, and by a START refused for capacity; BUSY is set only by an accepted START; OUT_OVF is set only by the operations
that emit. -/
def Obligations.FlagsSetOnlyWhereTheRulesSay : Prop :=
  ∀ (s t : State) (i : Instr), exec i s = .next t →
    (t.status.done = true → s.status.done = true ∨ i = .seqFlush)
    ∧ (t.status.err = true → s.status.err = true
      ∨ i ∈ [Instr.seqStatsStep, .seqStatsEnd, .seqVarEnd, .seqFilterStep, .seqDetectStep]
      ∨ i ∈ [Instr.detClassifyGoertzel, .detClassifyGoertzelStrict, .detClassifySpectral]
      ∨ ∃ w, i = .wrCtrl w ∧ w.getLsbD 0 = true ∧ s.build.bufLen < s.total)
    ∧ (t.status.busy = true → s.status.busy = true
      ∨ ∃ w, i = .wrCtrl w ∧ w.getLsbD 0 = true ∧ w.getLsbD 1 = false ∧ s.total ≤ s.build.bufLen)
    ∧ (t.status.outOvf = true → s.status.outOvf = true
      ∨ i ∈ [Instr.fsmStepSilence, .seqDetectStep, .seqFlush])

/-! What every step keeps, and runs. -/

/-- R38, R40, R52, R56, R171, R264, R266: every step from a legal state gives a legal state: BUSY exactly when the phase is not
IDLE, never DONE and ERR together, an error code of 1 to 5 exactly while ERR, OUT_COUNT within OUT_RAM, the position within
the run, LK a key or 0, memory in its canonical form. -/
def Obligations.StepKeepsLegal : Prop := ∀ s t : State, s.Inv → step s = .next t → t.Inv

/-- R21, R53, R54: every step keeps every working register and every delay-line register a binary32 value. -/
def Obligations.StepKeepsBinary32 : Prop :=
  ∀ s t : State, s.work.representable = true → s.line.representable = true → step s = .next t →
    t.work.representable = true ∧ t.line.representable = true

/-- R59, R333: no step changes the build options and parameters. -/
def Obligations.StepKeepsBuild : Prop := ∀ s t : State, step s = .next t → t.build = s.build

/-- R47, R48, R94, R284, R332: what an operation can change in memory. Any operation but a control write leaves every byte
outside the word `storeAddr` gives for it (the sample word it writes, or the OUT_RAM entry at OUT_COUNT an emission writes) as
it was, and all of memory when it stores none; a control write leaves every byte, but those a soft reset during a run makes
unspecified. -/
def Obligations.MemoryFrame : Prop :=
  ∀ (s t : State) (i : Instr), s.mem.wf → exec i s = .next t →
    ((∀ w, i ≠ .wrCtrl w) → ∀ a, (∀ b, storeAddr i s = some b → a < b ∨ b + 4 ≤ a) → t.mem.read a = s.mem.read a)
    ∧ (∀ w, i = .wrCtrl w → ∀ a, (w.getLsbD 1 = true → s.status.busy = true → forgotten s.total a = false) →
      t.mem.read a = s.mem.read a)

/-- R261: no micro-operation reads IRQ_EN or the latest response: from two states that differ only there, it stops in the
same way, or it reaches two states that differ only there. -/
def Obligations.RunIgnoresHostState : Prop :=
  ∀ (s t : State) (i : Instr), isMicroOp i = true → s.core = t.core →
    match exec i s, exec i t with
    | .next s', .next t' => s'.core = t'.core ∧ s'.irqEn = s.irqEn ∧ t'.irqEn = t.irqEn
    | .fault r, .fault q => r = q
    | .refused r, .refused q => r = q
    | _, _ => False

/-- R269: a sequencer step of a legal run either brings the run one micro-step nearer its end, counted by `remaining`, or ends
it with an error. -/
def Obligations.MicroStepMakesProgress : Prop :=
  ∀ s t : State, s.Inv → s.port.agenda = [] → s.pos.phase ≠ 0 → step s = .next t →
    t.remaining + 1 = s.remaining ∨ (t.status.err = true ∧ t.status.busy = false)

/-- R263, R269, R351: an accepted START over N samples, left to the sequencer alone, ends: with DONE after exactly
4·N + NW + 6 micro-steps (one, when N = 0), or with ERR after fewer. No step of it stops, and BUSY is 1 before its last one. -/
def Obligations.RunEnds : Prop :=
  ∀ (s : State) (wdata : Word), s.Inv → s.port.agenda = [] → s.status.busy = false →
    wdata.getLsbD 1 = false → wdata.getLsbD 0 = true → s.total ≤ s.build.bufLen →
    ∃ (t u : State) (k : Nat), exec (.wrCtrl wdata) s = .next t ∧ Sys2Proof.core.run k t = .next u
      ∧ (∀ m < k, ∃ v : State, Sys2Proof.core.run m t = .next v ∧ v.status.busy = true)
      ∧ u.status.busy = false
      ∧ ((u.status.done = true ∧ u.status.err = false
          ∧ k = if s.total = 0 then 1 else 4 * s.total + s.windows + 6)
        ∨ (u.status.err = true ∧ u.status.done = false ∧ 1 ≤ s.total ∧ k < 4 * s.total + s.windows + 6))

/-- R321: no legal state reaches a stop: from a legal state, with any finite agenda of whole transactions, ticks and reset
pulses (log entry 1), any number of steps runs without a fault or a refusal. -/
def Obligations.LegalMachineNeverStops : Prop :=
  ∀ (k : Nat) (s : State), s.Inv → s.PhysicalAgenda → SafeRun k s

/-! Arithmetic (R21 to R23). -/

/-- R21, R22: rounding is correct, and +, −, × and ÷ are the exact result rounded once. A quotient rounded to a finite datum is
representable, no representable magnitude lies nearer to the exact quotient, and at a tie the significand is even; it
overflows exactly from the midpoint past the largest finite magnitude on. On finite operands each operation answers the
rounding of the real result, an exact zero has IEEE 754's sign, and a comparison compares the real numbers; a division by
zero, an infinity or a NaN gives what IEEE 754 says. -/
def Obligations.RoundingIsNearestEven : Prop :=
  (∀ (neg : Bool) (num den : Nat), 0 < den →
    (∀ sign mag, roundF32 neg num den = .fin sign mag →
      sign = neg ∧ (F32.fin sign mag).representable = true
      ∧ ∀ r, (F32.fin false r).representable = true →
        ((mag * den : Nat) - (num : Nat) : Int).natAbs ≤ ((r * den : Nat) - (num : Nat) : Int).natAbs
        ∧ (r ≠ mag → ((mag * den : Nat) - (num : Nat) : Int).natAbs = ((r * den : Nat) - (num : Nat) : Int).natAbs →
          mag / 2 ^ quantumBits num den % 2 = 0))
    ∧ (∀ sign, roundF32 neg num den = .inf sign ↔ sign = neg ∧ (2 ^ 25 - 1) * 2 ^ 252 * den ≤ num)
    ∧ roundF32 neg num den ≠ .nan)
  ∧ (∀ (s t : Bool) (a b : Nat),
    let x : ℝ := signedMag s a / 2 ^ 149
    let y : ℝ := signedMag t b / 2 ^ 149
    RoundsTo (x + y) (F32.add (.fin s a) (.fin t b)) ∧ (x + y = 0 → F32.add (.fin s a) (.fin t b) = .fin (s && t) 0)
    ∧ RoundsTo (x - y) (F32.sub (.fin s a) (.fin t b)) ∧ (x - y = 0 → F32.sub (.fin s a) (.fin t b) = .fin (s && !t) 0)
    ∧ RoundsTo (x * y) (F32.mul (.fin s a) (.fin t b)) ∧ (x * y = 0 → F32.mul (.fin s a) (.fin t b) = .fin (s ^^ t) 0)
    ∧ (b ≠ 0 → RoundsTo (x / y) (F32.div (.fin s a) (.fin t b)) ∧ (a = 0 → F32.div (.fin s a) (.fin t b) = .fin (s ^^ t) 0))
    ∧ (b = 0 → F32.div (.fin s a) (.fin t b) = if a = 0 then .nan else .inf (s ^^ t))
    ∧ (F32.lt (.fin s a) (.fin t b) = true ↔ x < y) ∧ (F32.le (.fin s a) (.fin t b) = true ↔ x ≤ y))
  ∧ (∀ (s t : Bool) (b : Nat),
    F32.add (.inf s) (.fin t b) = .inf s ∧ F32.add (.fin t b) (.inf s) = .inf s
    ∧ F32.add (.inf s) (.inf t) = (if s = t then .inf s else .nan)
    ∧ F32.mul (.inf s) (.fin t b) = (if b = 0 then .nan else .inf (s ^^ t))
    ∧ F32.mul (.fin t b) (.inf s) = (if b = 0 then .nan else .inf (t ^^ s))
    ∧ F32.mul (.inf s) (.inf t) = .inf (s ^^ t)
    ∧ F32.div (.inf s) (.fin t b) = .inf (s ^^ t) ∧ F32.div (.fin t b) (.inf s) = .fin (t ^^ s) 0
    ∧ F32.div (.inf s) (.inf t) = .nan)
  ∧ ∀ x : F32, (∀ y : F32, F32.sub x y = F32.add x y.negate)
    ∧ (∀ op ∈ [F32.add, F32.sub, F32.mul, F32.div], op x .nan = .nan ∧ op .nan x = .nan)
    ∧ F32.lt x .nan = false ∧ F32.lt .nan x = false ∧ F32.le x .nan = false ∧ F32.le .nan x = false

/-- R90, R115: the binary32 layout loses nothing: a pattern that is no NaN is the pattern of its datum, and a representable
datum that is no NaN is the datum of its pattern. -/
def Obligations.PatternRoundTrip : Prop :=
  (∀ w : Word, F32.ofBits w ≠ .nan → (F32.ofBits w).toBits = w ∧ (F32.ofBits w).representable = true)
  ∧ ∀ x : F32, x ≠ .nan → x.representable = true → F32.ofBits x.toBits = x

/-- R21: the integer root under `sqrt` is the integer square root, on the whole range a binary32 magnitude can reach; and
`sqrt` is the real square root rounded once. It keeps a zero of either sign; of any other negative number it is a NaN. -/
def Obligations.IntegerRoot : Prop :=
  (∀ x : Nat, x < 2 ^ 428 → isqrt x = Nat.sqrt x)
  ∧ (∀ a : Nat, (F32.fin false a).representable = true →
    RoundsTo (Real.sqrt (a / 2 ^ 149)) (F32.sqrt (.fin false a)))
  ∧ (∀ s : Bool, F32.sqrt (.fin s 0) = .fin s 0) ∧ (∀ a : Nat, a ≠ 0 → F32.sqrt (.fin true a) = .nan)
  ∧ F32.sqrt (.inf false) = .inf false ∧ F32.sqrt (.inf true) = .nan ∧ F32.sqrt .nan = .nan

end Obligations
end

