-- ==== Sys2Proof/Laws/Cosine.lean ====
section
/-! SUPPORT. The fixed-point cosine of the read-only tables is the real cosine, to 2^(-58) (R175, R176, R185, R187, log entry
11): a nested series with a floor at each factor, against the exponential series and a 20-digit π. -/

namespace Sys2Proof.Rom

/-! Nested series over the reals and in fixed point. -/

/-- `1 − x/d(i) · (1 − x/d(i+1) · (…))`, `k` factors deep. -/
def nest {K : Type} [Field K] (d : Nat → Nat) (x : K) : Nat → Nat → K
  | 0, _ => 1
  | k + 1, i => 1 - x * nest d x k (i + 1) / d i

/-- The same in fixed point, rounded down at each factor. -/
def fixNest (d : Nat → Nat) (x2 : Nat) : Nat → Nat → Nat
  | 0, _ => one
  | k + 1, i => one - x2 * fixNest d x2 k (i + 1) / (one * d i)

theorem cosSeries_eq (x2 k i : Nat) : cosSeries x2 k i = fixNest (fun i => (2 * i + 1) * (2 * i + 2)) x2 k i := by
  induction k generalizing i with
  | zero => rfl
  | succ k ih => simp only [cosSeries, fixNest, ih]

theorem sinSeries_eq (x2 k i : Nat) : sinSeries x2 k i = fixNest (fun i => (2 * i + 2) * (2 * i + 3)) x2 k i := by
  induction k generalizing i with
  | zero => rfl
  | succ k ih => simp only [sinSeries, fixNest, ih]

theorem one_pos : (0 : ℝ) < one := by norm_num [one]

variable {d : Nat → Nat} {x y : ℝ}

theorem nest_mem (hd : ∀ i, 2 ≤ d i) (h0 : 0 ≤ x) (h1 : x ≤ 1) (k i : Nat) : 0 ≤ nest d x k i ∧ nest d x k i ≤ 1 := by
  induction k generalizing i with
  | zero => simp [nest]
  | succ k ih =>
    obtain ⟨a, b⟩ := ih (i + 1)
    have hd' : (2 : ℝ) ≤ d i := by exact_mod_cast hd i
    have c : 0 ≤ x * nest d x k (i + 1) / d i := by positivity
    have e : x * nest d x k (i + 1) / d i ≤ 1 := by
      rw [div_le_one (by linarith)]
      nlinarith
    simp only [nest]
    constructor <;> linarith

theorem nest_lipschitz (hd : ∀ i, 2 ≤ d i) (hx0 : 0 ≤ x) (hx1 : x ≤ 1) (hy0 : 0 ≤ y) (hy1 : y ≤ 1) (k i : Nat) :
    |nest d x k i - nest d y k i| ≤ |x - y| := by
  induction k generalizing i with
  | zero => simp [nest]
  | succ k ih =>
    have hd' : (2 : ℝ) ≤ d i := by exact_mod_cast hd i
    obtain ⟨a, b⟩ := nest_mem hd hx0 hx1 k (i + 1)
    have e : nest d x (k + 1) i - nest d y (k + 1) i
        = -((x - y) * nest d x k (i + 1) + y * (nest d x k (i + 1) - nest d y k (i + 1))) / d i := by
      simp only [nest]
      field_simp
      ring
    rw [e, abs_div, abs_neg, abs_of_pos (show (0 : ℝ) < d i by linarith), div_le_iff₀ (by linarith)]
    calc |(x - y) * nest d x k (i + 1) + y * (nest d x k (i + 1) - nest d y k (i + 1))|
        ≤ |x - y| * |nest d x k (i + 1)| + |y| * |nest d x k (i + 1) - nest d y k (i + 1)| := by
          rw [← abs_mul, ← abs_mul]
          exact abs_add_le _ _
      _ ≤ |x - y| * 1 + 1 * |x - y| := by
          rw [abs_of_nonneg a, abs_of_nonneg hy0]
          have := ih (i + 1)
          gcongr
      _ ≤ |x - y| * d i := by nlinarith [abs_nonneg (x - y)]

/-- A quotient rounded down, over the reals. -/
theorem div_floor (a b : Nat) (hb : 0 < b) : (a : ℝ) / b - 1 ≤ (a / b : Nat) ∧ ((a / b : Nat) : ℝ) ≤ (a : ℝ) / b := by
  have hb' : (0 : ℝ) < b := by exact_mod_cast hb
  refine ⟨?_, Nat.cast_div_le⟩
  rw [sub_le_iff_le_add, div_le_iff₀ hb']
  have := Nat.lt_mul_of_div_lt (Nat.lt_succ_self (a / b)) hb
  have h : (a : ℝ) ≤ ((a / b + 1) * b : Nat) := by exact_mod_cast this.le
  push_cast at h
  exact h

theorem fixNest_le (x2 k i : Nat) : fixNest d x2 k i ≤ one := by
  cases k <;> simp [fixNest]

theorem fixNest_close (hd : ∀ i, 2 ≤ d i) {x2 : Nat} (h1 : x2 ≤ one) (k i : Nat) :
    |(fixNest d x2 k i : ℝ) - one * nest d ((x2 : ℝ) / one) k i| ≤ 2 := by
  have ho := one_pos
  induction k generalizing i with
  | zero => simp [nest, fixNest]
  | succ k ih =>
    have hdi : 0 < d i := by have := hd i; omega
    have hd' : (2 : ℝ) ≤ d i := by exact_mod_cast hd i
    have hle : x2 * fixNest d x2 k (i + 1) / (one * d i) ≤ one := by
      apply Nat.div_le_of_le_mul
      calc x2 * fixNest d x2 k (i + 1) ≤ one * one := Nat.mul_le_mul h1 (fixNest_le ..)
        _ ≤ one * d i * one := Nat.mul_le_mul_right _ (Nat.le_mul_of_pos_right _ hdi)
    obtain ⟨f1, f2⟩ := div_floor (x2 * fixNest d x2 k (i + 1)) (one * d i) (Nat.mul_pos (by decide) hdi)
    have hx : (x2 : ℝ) ≤ one := by exact_mod_cast h1
    have e1 : ((x2 * fixNest d x2 k (i + 1) : Nat) : ℝ) / ((one * d i : Nat) : ℝ)
        = x2 / one * fixNest d x2 k (i + 1) / d i := by
      push_cast
      field_simp
    rw [e1] at f1 f2
    have e2 : x2 / one * (fixNest d x2 k (i + 1) : ℝ) / d i - x2 / one * (one * nest d ((x2 : ℝ) / one) k (i + 1)) / d i
        = x2 / one / d i * (fixNest d x2 k (i + 1) - one * nest d ((x2 : ℝ) / one) k (i + 1)) := by ring
    have e3 : |x2 / one / d i * (fixNest d x2 k (i + 1) - one * nest d ((x2 : ℝ) / one) k (i + 1) : ℝ)| ≤ 1 := by
      rw [abs_mul, abs_of_nonneg (by positivity)]
      have a : (x2 : ℝ) / one / d i ≤ 1 / 2 := by
        rw [div_le_div_iff₀ (by linarith) (by norm_num)]
        have : (x2 : ℝ) / one ≤ 1 := (div_le_one ho).2 hx
        linarith
      calc _ ≤ (1 / 2 : ℝ) * 2 := mul_le_mul a (ih (i + 1)) (abs_nonneg _) (by norm_num)
        _ = 1 := by norm_num
    rw [← e2] at e3
    have e4 : (one : ℝ) * nest d ((x2 : ℝ) / one) (k + 1) i = one - x2 / one * (one * nest d ((x2 : ℝ) / one) k (i + 1)) / d i := by
      simp only [nest]
      field_simp
    rw [e4, fixNest, Nat.cast_sub hle]
    rw [abs_le] at e3 ⊢
    constructor <;> linarith [e3.1, e3.2]

/-! The series of the cosine and the sine. -/

/-- A nested series as a sum. -/
theorem nest_cos_sum (k i : Nat) : nest (fun i => (2 * i + 1) * (2 * i + 2)) x k i
    = ∑ j ∈ Finset.range (k + 1), (-x) ^ j * (2 * i).factorial / (2 * i + 2 * j).factorial := by
  induction k generalizing i with
  | zero => simp [nest]; field_simp
  | succ k ih =>
    rw [Finset.sum_range_succ', nest, ih]
    simp only [pow_zero, one_mul, Nat.mul_zero, Nat.add_zero]
    rw [div_self (by positivity), sub_eq_add_neg, add_comm _ (1 : ℝ), Finset.mul_sum, ← neg_div, ← Finset.sum_neg_distrib,
      Finset.sum_div]
    congr 1
    apply Finset.sum_congr rfl
    intro j _
    rw [show 2 * i + 2 * (j + 1) = 2 * (i + 1) + 2 * j by ring, show 2 * (i + 1) = 2 * i + 1 + 1 by ring,
      Nat.factorial_succ (2 * i + 1), Nat.factorial_succ (2 * i)]
    push_cast
    have h1 : (2 * (i : ℝ) + 1) ≠ 0 := by positivity
    have h2 : (2 * (i : ℝ) + 2) ≠ 0 := by positivity
    have h3 : ((2 * i + 1 + 1 + 2 * j).factorial : ℝ) ≠ 0 := by positivity
    field_simp
    ring

theorem nest_sin_sum (k i : Nat) : nest (fun i => (2 * i + 2) * (2 * i + 3)) x k i
    = ∑ j ∈ Finset.range (k + 1), (-x) ^ j * (2 * i + 1).factorial / (2 * i + 1 + 2 * j).factorial := by
  induction k generalizing i with
  | zero => simp [nest]; field_simp
  | succ k ih =>
    rw [Finset.sum_range_succ', nest, ih]
    simp only [pow_zero, one_mul, Nat.mul_zero, Nat.add_zero]
    rw [div_self (by positivity), sub_eq_add_neg, add_comm _ (1 : ℝ), Finset.mul_sum, ← neg_div, ← Finset.sum_neg_distrib,
      Finset.sum_div]
    congr 1
    apply Finset.sum_congr rfl
    intro j _
    rw [show 2 * i + 1 + 2 * (j + 1) = 2 * (i + 1) + 1 + 2 * j by ring, show 2 * (i + 1) + 1 = 2 * i + 1 + 1 + 1 by ring,
      Nat.factorial_succ (2 * i + 1 + 1), Nat.factorial_succ (2 * i + 1)]
    push_cast
    have h1 : (2 * (i : ℝ) + 2) ≠ 0 := by positivity
    have h2 : (2 * (i : ℝ) + 3) ≠ 0 := by positivity
    have h3 : ((2 * i + 1 + 1 + 1 + 2 * j).factorial : ℝ) ≠ 0 := by positivity
    field_simp
    ring

/-- The exponential series at an imaginary number, its even and its odd terms. -/
theorem exp_series_split (t : ℝ) (n : Nat) :
    ∑ m ∈ Finset.range (2 * n), ((t : ℂ) * Complex.I) ^ m / m.factorial
      = ((∑ j ∈ Finset.range n, (-(t * t)) ^ j / (2 * j).factorial : ℝ) : ℂ)
        + ((t * ∑ j ∈ Finset.range n, (-(t * t)) ^ j / (2 * j + 1).factorial : ℝ) : ℂ) * Complex.I := by
  induction n with
  | zero => simp
  | succ n ih =>
    have e : ((t : ℂ) * Complex.I) ^ (2 * n) = ((-(t * t)) ^ n : ℝ) := by
      rw [pow_mul, mul_pow, Complex.I_sq]
      push_cast
      ring
    rw [show 2 * (n + 1) = 2 * n + 1 + 1 by ring, Finset.sum_range_succ, Finset.sum_range_succ, ih,
      Finset.sum_range_succ _ n, Finset.sum_range_succ _ n, pow_succ, e]
    push_cast
    ring

/-- Cosine and sine of an angle of at most 1 as their series of 21 terms. -/
theorem cos_sin_series {t : ℝ} (h : |t| ≤ 1) :
    |Real.cos t - nest (fun i => (2 * i + 1) * (2 * i + 2)) (t * t) 20 0| ≤ 1 / 2 ^ 100
    ∧ |Real.sin t - t * nest (fun i => (2 * i + 2) * (2 * i + 3)) (t * t) 20 0| ≤ 1 / 2 ^ 100 := by
  have hn : ‖(t : ℂ) * Complex.I‖ ≤ 1 := by simpa using h
  have hb := Complex.exp_bound hn (n := 2 * 21) (by norm_num)
  rw [exp_series_split] at hb
  have hB : ‖(t : ℂ) * Complex.I‖ ^ (2 * 21) * (((2 * 21 : ℕ).succ : ℝ) * (((2 * 21 : ℕ).factorial : ℝ) * (2 * 21 : ℕ))⁻¹)
      ≤ 1 / 2 ^ 100 := by
    calc _ ≤ 1 * (((2 * 21 : ℕ).succ : ℝ) * (((2 * 21 : ℕ).factorial : ℝ) * (2 * 21 : ℕ))⁻¹) :=
          mul_le_mul_of_nonneg_right (pow_le_one₀ (norm_nonneg _) hn) (by positivity)
      _ ≤ 1 / 2 ^ 100 := by norm_num [Nat.factorial]
  have hb := hb.trans hB
  have hc : nest (fun i => (2 * i + 1) * (2 * i + 2)) (t * t) 20 0
      = ∑ j ∈ Finset.range 21, (-(t * t)) ^ j / (2 * j).factorial := by
    rw [nest_cos_sum]
    simp
  have hs : nest (fun i => (2 * i + 2) * (2 * i + 3)) (t * t) 20 0
      = ∑ j ∈ Finset.range 21, (-(t * t)) ^ j / (2 * j + 1).factorial := by
    rw [nest_sin_sum]
    apply Finset.sum_congr rfl
    intro j _
    rw [show 2 * 0 + 1 + 2 * j = 2 * j + 1 by ring]
    simp
  rw [hc, hs]
  rw [Complex.exp_mul_I, ← Complex.ofReal_cos, ← Complex.ofReal_sin] at hb
  generalize ∑ j ∈ Finset.range 21, (-(t * t)) ^ j / ((2 * j).factorial : ℝ) = A at *
  generalize t * ∑ j ∈ Finset.range 21, (-(t * t)) ^ j / ((2 * j + 1).factorial : ℝ) = B at *
  generalize Real.cos t = C at *
  generalize Real.sin t = S at *
  have e : (C : ℂ) + (S : ℂ) * Complex.I - ((A : ℂ) + (B : ℂ) * Complex.I)
      = ((C - A : ℝ) : ℂ) + ((S - B : ℝ) : ℂ) * Complex.I := by push_cast; ring
  rw [e] at hb
  have hre := (Complex.abs_re_le_norm _).trans hb
  have him := (Complex.abs_im_le_norm _).trans hb
  constructor
  · simpa using hre
  · simpa using him

/-! The fixed-point functions. -/

/-- The angle `2π · num / den` in fixed point, of at most an eighth turn. -/
theorem angle_close {num den : Nat} (hd : 0 < den) (h : 8 * num ≤ den) :
    |((twoPi * num / den : Nat) : ℝ) / one - 2 * Real.pi * num / den| ≤ 1 / 2 ^ 64 ∧ twoPi * num / den ≤ one := by
  have hd' : (0 : ℝ) < den := by exact_mod_cast hd
  constructor
  · obtain ⟨f1, f2⟩ := div_floor (twoPi * num) den hd
    have hq : (num : ℝ) / den ≤ 1 / 8 := by
      rw [div_le_div_iff₀ hd' (by norm_num)]
      have : (8 * num : ℝ) ≤ den := by exact_mod_cast h
      linarith
    have hq0 : (0 : ℝ) ≤ (num : ℝ) / den := by positivity
    have hpi : |(twoPi : ℝ) / one - 2 * Real.pi| ≤ 1 / 2 ^ 65 := by
      have h1 := Real.pi_gt_d20
      have h2 := Real.pi_lt_d20
      rw [abs_le]
      norm_num [twoPi, one] at *
      constructor <;> linarith
    have e1 : ((twoPi * num : Nat) : ℝ) / den = twoPi * (num / den) := by push_cast; ring
    rw [e1] at f1 f2
    have e2 : 2 * Real.pi * num / den = 2 * Real.pi * (num / den) := by ring
    rw [e2]
    generalize (num : ℝ) / den = q at *
    have e3 : |(twoPi : ℝ) / one * q - 2 * Real.pi * q| ≤ 1 / 2 ^ 65 := by
      rw [← sub_mul, abs_mul, abs_of_nonneg hq0]
      calc _ ≤ 1 / 2 ^ 65 * (1 : ℝ) := mul_le_mul hpi (by linarith) hq0 (by norm_num)
        _ = _ := by ring
    have ho : (one : ℝ) = 2 ^ 128 := by norm_num [one]
    have g1 : (twoPi : ℝ) / one * q - 1 / 2 ^ 128 ≤ ((twoPi * num / den : Nat) : ℝ) / one := by
      rw [ho, le_div_iff₀ (by norm_num), sub_mul]
      have : (twoPi : ℝ) / 2 ^ 128 * q * 2 ^ 128 = twoPi * q := by ring
      rw [this]
      norm_num at f1 ⊢
      linarith
    have g2 : ((twoPi * num / den : Nat) : ℝ) / one ≤ (twoPi : ℝ) / one * q := by
      rw [div_mul_eq_mul_div]
      exact div_le_div_of_nonneg_right f2 one_pos.le
    rw [abs_le] at e3 ⊢
    have : (1 : ℝ) / 2 ^ 128 ≤ 1 / 2 ^ 65 := by norm_num
    have : (1 : ℝ) / 2 ^ 65 + 1 / 2 ^ 65 = 1 / 2 ^ 64 := by norm_num
    constructor <;> linarith [e3.1, e3.2]
  · apply Nat.div_le_of_le_mul
    have : twoPi ≤ 8 * one := by decide
    calc twoPi * num ≤ 8 * one * num := Nat.mul_le_mul_right _ this
      _ = 8 * num * one := by ring
      _ ≤ den * one := Nat.mul_le_mul_right _ h

/-- The squared angle in fixed point. -/
theorem square_close {x : Nat} (hx : x ≤ one) :
    |((x * x / one : Nat) : ℝ) / one - (x / one) * (x / one)| ≤ 1 / 2 ^ 100 ∧ x * x / one ≤ one := by
  have ho : (one : ℝ) = 2 ^ 128 := by norm_num [one]
  constructor
  · obtain ⟨f1, f2⟩ := div_floor (x * x) one (by decide)
    have e : (x : ℝ) / one * (x / one) = ((x * x : Nat) : ℝ) / one / one := by push_cast; field_simp
    rw [e, ← sub_div, abs_div, abs_of_pos one_pos, div_le_iff₀ one_pos, ho, abs_le]
    rw [ho] at f1 f2
    norm_num at f1 f2 ⊢
    constructor <;> linarith
  · exact Nat.div_le_of_le_mul (Nat.mul_le_mul hx hx)

theorem cosEighth_close {num den : Nat} (hd : 0 < den) (h : 8 * num ≤ den) :
    |(cosEighth num den : ℝ) / one - Real.cos (2 * Real.pi * num / den)| ≤ 1 / 2 ^ 60 := by
  obtain ⟨a1, a2⟩ := angle_close hd h
  unfold cosEighth
  simp only [cosSeries_eq]
  generalize twoPi * num / den = x at *
  obtain ⟨s1, s2⟩ := square_close a2
  have hdv : ∀ i : Nat, 2 ≤ (2 * i + 1) * (2 * i + 2) := by
    intro i
    calc 2 = 1 * 2 := rfl
      _ ≤ _ := Nat.mul_le_mul (by omega) (by omega)
  have f := fixNest_close hdv s2 20 0
  have ho := one_pos
  have hx0 : (0 : ℝ) ≤ x / one := by positivity
  have hx1 : (x : ℝ) / one ≤ 1 := (div_le_one ho).2 (by exact_mod_cast a2)
  have hy0 : (0 : ℝ) ≤ ((x * x / one : Nat) : ℝ) / one := by positivity
  have hy1 : ((x * x / one : Nat) : ℝ) / one ≤ 1 := (div_le_one ho).2 (by exact_mod_cast s2)
  have l := nest_lipschitz hdv hy0 hy1 (mul_nonneg hx0 hx0) (by nlinarith) 20 0
  have c := (cos_sin_series (t := x / one) (by rw [abs_of_nonneg hx0]; exact hx1)).1
  have g : |Real.cos (x / one) - Real.cos (2 * Real.pi * num / den)| ≤ 1 / 2 ^ 64 :=
    (Real.abs_cos_sub_cos_le _ _).trans a1
  have f' : |(fixNest (fun i => (2 * i + 1) * (2 * i + 2)) (x * x / one) 20 0 : ℝ) / one
      - nest (fun i => (2 * i + 1) * (2 * i + 2)) (((x * x / one : Nat) : ℝ) / one) 20 0| ≤ 1 / 2 ^ 100 := by
    have e : ∀ a b : ℝ, a / one - b = (a - one * b) / one := fun a b => by field_simp
    rw [e, abs_div, abs_of_pos ho, div_le_iff₀ ho]
    refine f.trans ?_
    norm_num [one]
  have l' := l.trans s1
  rw [abs_le] at *
  have : (1 : ℝ) / 2 ^ 100 ≤ 1 / 2 ^ 64 := by norm_num
  have : (1 : ℝ) / 2 ^ 64 + 1 / 2 ^ 64 + 1 / 2 ^ 64 + 1 / 2 ^ 64 ≤ 1 / 2 ^ 60 := by norm_num
  constructor <;> linarith [f'.1, f'.2, l'.1, l'.2, c.1, c.2, g.1, g.2]

theorem sinEighth_close {num den : Nat} (hd : 0 < den) (h : 8 * num ≤ den) :
    |(sinEighth num den : ℝ) / one - Real.sin (2 * Real.pi * num / den)| ≤ 1 / 2 ^ 60 := by
  obtain ⟨a1, a2⟩ := angle_close hd h
  unfold sinEighth
  simp only [sinSeries_eq]
  generalize twoPi * num / den = x at *
  obtain ⟨s1, s2⟩ := square_close a2
  have hdv : ∀ i : Nat, 2 ≤ (2 * i + 2) * (2 * i + 3) := by
    intro i
    calc 2 = 2 * 1 := rfl
      _ ≤ _ := Nat.mul_le_mul (by omega) (by omega)
  have f := fixNest_close hdv s2 20 0
  have ho := one_pos
  have hx0 : (0 : ℝ) ≤ x / one := by positivity
  have hx1 : (x : ℝ) / one ≤ 1 := (div_le_one ho).2 (by exact_mod_cast a2)
  have hy0 : (0 : ℝ) ≤ ((x * x / one : Nat) : ℝ) / one := by positivity
  have hy1 : ((x * x / one : Nat) : ℝ) / one ≤ 1 := (div_le_one ho).2 (by exact_mod_cast s2)
  have l := nest_lipschitz hdv hy0 hy1 (mul_nonneg hx0 hx0) (by nlinarith) 20 0
  have c := (cos_sin_series (t := x / one) (by rw [abs_of_nonneg hx0]; exact hx1)).2
  have g : |Real.sin (x / one) - Real.sin (2 * Real.pi * num / den)| ≤ 1 / 2 ^ 64 :=
    (Real.abs_sin_sub_sin_le _ _).trans a1
  obtain ⟨p1, p2⟩ := div_floor (x * fixNest (fun i => (2 * i + 2) * (2 * i + 3)) (x * x / one) 20 0) one (by decide)
  generalize fixNest (fun i => (2 * i + 2) * (2 * i + 3)) (x * x / one) 20 0 = F at *
  generalize nest (fun i => (2 * i + 2) * (2 * i + 3)) (((x * x / one : Nat) : ℝ) / one) 20 0 = N1 at *
  generalize nest (fun i => (2 * i + 2) * (2 * i + 3)) (x / one * (x / one) : ℝ) 20 0 = N2 at *
  have l' := l.trans s1
  have fe : |(F : ℝ) / one - N1| ≤ 1 / 2 ^ 100 := by
    have e : (F : ℝ) / one - N1 = (F - one * N1) / one := by field_simp
    rw [e, abs_div, abs_of_pos ho, div_le_iff₀ ho]
    refine f.trans ?_
    norm_num [one]
  have fn : |(F : ℝ) / one - N2| ≤ 1 / 2 ^ 100 + 1 / 2 ^ 100 := by
    have e : (F : ℝ) / one - N2 = (F / one - N1) + (N1 - N2) := by ring
    rw [e]
    exact (abs_add_le _ _).trans (add_le_add fe l')
  have pe : |((x * F / one : Nat) : ℝ) / one - x / one * (F / one)| ≤ 1 / 2 ^ 100 := by
    have ho' : (one : ℝ) = 2 ^ 128 := by norm_num [one]
    have e : (x : ℝ) / one * (F / one) = ((x * F : Nat) : ℝ) / one / one := by push_cast; field_simp
    rw [e, ← sub_div, abs_div, abs_of_pos ho, div_le_iff₀ ho, ho', abs_le]
    rw [ho'] at p1 p2
    norm_num at p1 p2 ⊢
    constructor <;> linarith
  have m : |x / one * (F / one) - x / one * N2| ≤ 1 / 2 ^ 100 + 1 / 2 ^ 100 := by
    rw [← mul_sub, abs_mul, abs_of_nonneg hx0]
    calc _ ≤ 1 * |(F : ℝ) / one - N2| := mul_le_mul_of_nonneg_right hx1 (abs_nonneg _)
      _ ≤ _ := by rw [one_mul]; exact fn
  rw [abs_le] at *
  have : (1 : ℝ) / 2 ^ 100 + 1 / 2 ^ 100 ≤ 1 / 2 ^ 64 := by norm_num
  have : (1 : ℝ) / 2 ^ 64 + 1 / 2 ^ 64 + 1 / 2 ^ 64 + 1 / 2 ^ 64 ≤ 1 / 2 ^ 60 := by norm_num
  constructor <;> linarith [pe.1, pe.2, m.1, m.2, c.1, c.2, g.1, g.2]

theorem cosQuarter_close {num den : Nat} (hd : 0 < den) (h : 4 * num ≤ den) :
    |(cosQuarter num den : ℝ) / one - Real.cos (2 * Real.pi * num / den)| ≤ 1 / 2 ^ 60 := by
  unfold cosQuarter
  split
  · exact cosEighth_close hd ‹_›
  · have e : Real.cos (2 * Real.pi * num / den) = Real.sin (2 * Real.pi * (den - 4 * num : Nat) / (4 * den : Nat)) := by
      have hd' : (den : ℝ) ≠ 0 := by exact_mod_cast hd.ne'
      rw [Nat.cast_sub h, ← Real.sin_pi_div_two_sub]
      congr 1
      push_cast
      field_simp
      ring
    rw [e]
    exact sinEighth_close (by omega) (by omega)

/-- The fixed-point cosine of `2π · num / den` is the real one to 2^(-60). -/
theorem cosTurn_close (num : Nat) {den : Nat} (hd : 0 < den) :
    |(cosTurn num den : ℝ) / one - Real.cos (2 * Real.pi * num / den)| ≤ 1 / 2 ^ 60 := by
  have hd' : (den : ℝ) ≠ 0 := by exact_mod_cast hd.ne'
  have hlt := Nat.mod_lt num hd
  have e1 : Real.cos (2 * Real.pi * num / den) = Real.cos (2 * Real.pi * (num % den : Nat) / den) := by
    have : (num : ℝ) = (num % den : Nat) + den * (num / den : Nat) := by exact_mod_cast (Nat.mod_add_div num den).symm
    rw [this]
    have : 2 * Real.pi * ((num % den : Nat) + den * (num / den : Nat) : ℝ) / den
        = 2 * Real.pi * (num % den : Nat) / den + (num / den : Nat) * (2 * Real.pi) := by field_simp
    rw [this, Real.cos_add_nat_mul_two_pi]
  rw [e1]
  unfold cosTurn
  dsimp only
  generalize num % den = t at *
  have e2 : Real.cos (2 * Real.pi * t / den)
      = Real.cos (2 * Real.pi * ((if 2 * t ≤ den then t else den - t : Nat) : ℝ) / den) := by
    split
    · rfl
    · rw [Nat.cast_sub hlt.le]
      have : 2 * Real.pi * ((den : ℝ) - t) / den = 2 * Real.pi - 2 * Real.pi * t / den := by field_simp
      rw [this, Real.cos_two_pi_sub]
  rw [e2]
  have hh : 2 * (if 2 * t ≤ den then t else den - t) ≤ den := by split <;> omega
  generalize (if 2 * t ≤ den then t else den - t) = h at *
  split
  · exact cosQuarter_close hd ‹_›
  · have e3 : Real.cos (2 * Real.pi * h / den) = -Real.cos (2 * Real.pi * (den - 2 * h : Nat) / (2 * den : Nat)) := by
      rw [← Real.cos_pi_sub]
      congr 1
      rw [Nat.cast_sub hh]
      push_cast
      field_simp
      ring
    have c := cosQuarter_close (num := den - 2 * h) (den := 2 * den) (by omega) (by omega)
    rw [e3]
    push_cast at c ⊢
    rw [neg_div, ← neg_sub', abs_neg]
    exact c

end Sys2Proof.Rom
end

