-- ==== Sys2Proof/Laws/Detector.lean ====
section
/-! SUPPORT. The detector's recursions as folds over the sample indices of a window (R177, R188), and a best key that is a key. -/

namespace Sys2Proof.Machine

/-- One sample more of the Goertzel recursion. -/
theorem goertzel_append (c : F32) (n : Nat) (s1 s2 : F32) (xs : List F32) (x : F32) :
    goertzel c n s1 s2 (xs ++ [x]) =
      let p := goertzel c n s1 s2 xs
      ((((x.mul (Rom.hamming (n + xs.length))).add (c.mul p.1)).sub p.2), p.1) := by
  induction xs generalizing n s1 s2 with
  | nil => rfl
  | cons y ys ih =>
    simp only [List.cons_append, goertzel, ih, List.length_cons]
    rw [show n + 1 + ys.length = n + (ys.length + 1) by omega]

/-- The Goertzel recursion over a window given by sample index. -/
theorem goertzel_range (c s1 s2 : F32) (f : Nat → F32) (k : Nat) :
    goertzel c 0 s1 s2 ((List.range k).map f) = (List.range k).foldl
      (fun (p : F32 × F32) n => ((((f n).mul (Rom.hamming n)).add (c.mul p.1)).sub p.2, p.1)) (s1, s2) := by
  induction k with
  | zero => rfl
  | succ k ih => simp [List.range_succ, goertzel_append, ih]

/-- The magnitude of a tone over a window given by sample index (R177, R178). -/
theorem toneMag_range (x : Nat → F32) (k f : Nat) :
    toneMag ((List.range k).map x) f =
      (let r := (List.range k).foldl
        (fun (p : F32 × F32) n => ((((x n).mul (Rom.hamming n)).add ((Rom.gcoef f).mul p.1)).sub p.2, p.1))
        (.fin false 0, .fin false 0)
      let t := ((r.1.mul r.1).add (r.2.mul r.2)).sub (((Rom.gcoef f).mul r.1).mul r.2)
      if F32.lt t (.fin false 0) then .fin false 0 else t.sqrt) := by
  have h := goertzel_range (Rom.gcoef f) .zero .zero x k
  unfold toneMag
  dsimp only
  rw [h]
  rfl

/-- One sample more of a bin's sums. -/
theorem dft_append (b n : Nat) (re im : F32) (xs : List F32) (x : F32) :
    dft b n re im (xs ++ [x]) =
      let p := dft b n re im xs
      let i := b * (n + xs.length) % Config.transformSize
      let xw := x.mul (Rom.hann (n + xs.length))
      (p.1.add (xw.mul (Rom.cosT i)), p.2.sub (xw.mul (Rom.sinT i))) := by
  induction xs generalizing n re im with
  | nil => rfl
  | cons y ys ih =>
    simp only [List.cons_append, dft, ih, List.length_cons]
    rw [show n + 1 + ys.length = n + (ys.length + 1) by omega]

/-- The sums of a bin over a window given by sample index. -/
theorem dft_range (b : Nat) (re im : F32) (f : Nat → F32) (k : Nat) :
    dft b 0 re im ((List.range k).map f) = (List.range k).foldl
      (fun (p : F32 × F32) n =>
        (p.1.add (((f n).mul (Rom.hann n)).mul (Rom.cosT (b * n % Config.transformSize))),
          p.2.sub (((f n).mul (Rom.hann n)).mul (Rom.sinT (b * n % Config.transformSize))))) (re, im) := by
  induction k with
  | zero => rfl
  | succ k ih => simp [List.range_succ, dft_append, ih]

/-- The magnitude of a bin over a window given by sample index (R188). -/
theorem binMag_range (x : Nat → F32) (k b : Nat) :
    binMag ((List.range k).map x) b =
      (let r := (List.range k).foldl
        (fun (p : F32 × F32) n =>
          (p.1.add (((x n).mul (Rom.hann n)).mul (Rom.cosT (b * n % Config.transformSize))),
            p.2.sub (((x n).mul (Rom.hann n)).mul (Rom.sinT (b * n % Config.transformSize)))))
        (.fin false 0, .fin false 0)
      ((r.1.mul r.1).add (r.2.mul r.2)).sqrt) := by
  have h := dft_range b .zero .zero x k
  unfold binMag
  dsimp only
  rw [h]
  rfl

/-- The best key is one of the twelve. -/
theorem bestKey_mem (ks : List F32) : bestKey ks ∈ Rom.keys := by
  have key : ∀ (l : List Nat) (b : Nat), (∀ k ∈ l, k ∈ Rom.keys) → b ∈ Rom.keys →
      l.foldl (fun best k => if F32.lt (keyMagAt ks best) (keyMagAt ks k) then k else best) b ∈ Rom.keys := by
    intro l
    induction l with
    | nil => intro b _ hb; exact hb
    | cons k l ih =>
      intro b hl hb
      refine ih _ (fun j hj => hl j (List.mem_cons_of_mem _ hj)) ?_
      dsimp only
      split
      · exact hl k List.mem_cons_self
      · exact hb
  exact key _ 1 (fun k hk => List.mem_of_mem_drop hk) (by decide)

end Sys2Proof.Machine
end

