-- ==== Sys2Proof/Laws/Encoding.lean ====
section
/-! SUPPORT. The fields of an encoded operation, read back from its bytes. -/

namespace Sys2Proof

/-- A word is its four bytes, the highest first. -/
theorem word_of_bytes (w : Word) :
    w.extractLsb' 24 8 ++ w.extractLsb' 16 8 ++ w.extractLsb' 8 8 ++ w.extractLsb' 0 8 = w := by
  apply BitVec.eq_of_getLsbD_eq
  intro i hi
  simp only [BitVec.getLsbD_append, BitVec.getLsbD_extractLsb']
  split
  · simp_all
  · split
    · rw [show 8 + (i - 8) = i by omega]; simp_all
    · split
      · rw [show 16 + (i - 8 - 8) = i by omega]; simp_all
      · rw [show 24 + (i - 8 - 8 - 8) = i by omega]
        have : i - 8 - 8 - 8 < 8 := by omega
        simp_all

/-- The word of a word's four bytes (R90). -/
@[simp] theorem wordOfBytes_byteOfWord (w : Word) :
    wordOfBytes (byteOfWord w 0) (byteOfWord w 1) (byteOfWord w 2) (byteOfWord w 3) = w := word_of_bytes w

/-! The fields of a transaction's SEL word (R111, log entry 2). -/

@[simp] theorem selWord_addr (we : Bool) (addr : BitVec 24) (size : Size) :
    (selWord we addr size).extractLsb' 0 24 = addr := by
  apply BitVec.eq_of_getLsbD_eq
  intro i hi
  simp only [selWord, BitVec.getLsbD_append, BitVec.getLsbD_extractLsb']
  rw [if_pos (by omega)]
  simp [hi]

@[simp] theorem selWord_we (we : Bool) (addr : BitVec 24) (size : Size) : (selWord we addr size)[24] = we := by
  rw [← BitVec.getLsbD_eq_getElem]
  simp only [selWord, BitVec.getLsbD_append]
  rw [if_neg (by omega), if_pos (by omega)]
  simp

@[simp] theorem selWord_size (we : Bool) (addr : BitVec 24) (size : Size) :
    (selWord we addr size).extractLsb' 25 2 = size.code := by
  apply BitVec.eq_of_getLsbD_eq
  intro i hi
  simp only [selWord, BitVec.getLsbD_append, BitVec.getLsbD_extractLsb']
  rw [if_neg (by omega), if_neg (by omega), if_pos (by omega), show 25 + i - 24 - 1 = i by omega]
  simp [hi]

@[simp] theorem selWord_high (we : Bool) (addr : BitVec 24) (size : Size) :
    (selWord we addr size).extractLsb' 27 5 = 0 := by
  apply BitVec.eq_of_getLsbD_eq
  intro i hi
  simp only [selWord, BitVec.getLsbD_append, BitVec.getLsbD_extractLsb']
  rw [if_neg (by omega), if_neg (by omega), if_neg (by omega)]
  simp

@[simp] theorem sizeOfCode_code (size : Size) : sizeOfCode size.code = some size := by cases size <;> decide

/-- The decoder reads the fields of an encoded transaction. -/
theorem decode_busRaw (we : Bool) (addr : BitVec 24) (size : Size) (wdata : Word) :
    decode (busRaw we addr size wdata) = .instr (decodeTransaction we addr size wdata) := by
  simp [decode, busRaw, decodeBus]

/-- The decoder reads the code of an encoded window class. -/
theorem decode_classRaw (c : BitVec 4) : decode (classRaw c) = .instr (decodeClass c) := by
  revert c; decide

/-- The decoder reads the selector of an encoded micro-operation. -/
theorem decode_microOpRaw (u : BitVec 4) : decode (microOpRaw u) = decodeMicroOp u := by
  revert u; decide

/-- The decoder reads the selector of an encoded classification. -/
theorem decode_detectorRaw (d : BitVec 2) : decode (detectorRaw d) = .instr (decodeDetector d) := by
  revert d; decide

/-! The fields of an offset (R114). -/

theorem aligned_iff (addr : BitVec 24) : aligned addr = true ↔ addr.extractLsb' 0 2 = 0 := by
  rw [← BitVec.toNat_inj]
  simp [aligned, BitVec.extractLsb'_toNat]

theorem region_toNat (addr : BitVec 24) : (addr.extractLsb' 22 2).toNat = addr.toNat / 0x400000 % 4 := by
  simp [BitVec.extractLsb'_toNat, Nat.shiftRight_eq_div_pow]

theorem page_toNat (addr : BitVec 24) : (addr.extractLsb' 12 12).toNat = addr.toNat / 0x1000 % 0x1000 := by
  simp [BitVec.extractLsb'_toNat, Nat.shiftRight_eq_div_pow]

@[simp] theorem sampleOffset_region (n : BitVec 20) : (sampleOffset n).extractLsb' 22 2 = 1 := by
  apply BitVec.eq_of_getLsbD_eq
  intro i hi
  simp only [sampleOffset, BitVec.getLsbD_append, BitVec.getLsbD_extractLsb']
  rw [if_neg (by omega), if_neg (by omega), show 22 + i - 2 - 20 = i by omega]
  simp [hi]

@[simp] theorem sampleOffset_low (n : BitVec 20) : (sampleOffset n).extractLsb' 0 2 = 0 := by
  apply BitVec.eq_of_getLsbD_eq
  intro i hi
  simp only [sampleOffset, BitVec.getLsbD_append, BitVec.getLsbD_extractLsb']
  rw [if_pos (by omega)]
  simp

@[simp] theorem sampleOffset_index (n : BitVec 20) : (sampleOffset n).extractLsb' 2 20 = n := by
  apply BitVec.eq_of_getLsbD_eq
  intro i hi
  simp only [sampleOffset, BitVec.getLsbD_append, BitVec.getLsbD_extractLsb']
  rw [if_neg (by omega), if_pos (by omega), show 2 + i - 2 = i by omega]
  simp [hi]

@[simp] theorem outOffset_page (i : BitVec 10) : (outOffset i).extractLsb' 12 12 = 1 := by
  apply BitVec.eq_of_getLsbD_eq
  intro k hk
  simp only [outOffset, BitVec.getLsbD_append, BitVec.getLsbD_extractLsb']
  rw [if_neg (by omega), if_neg (by omega), show 12 + k - 2 - 10 = k by omega]
  simp [hk]

@[simp] theorem outOffset_region (i : BitVec 10) : (outOffset i).extractLsb' 22 2 = 0 := by
  apply BitVec.eq_of_getLsbD_eq
  intro k hk
  simp only [outOffset, BitVec.getLsbD_append, BitVec.getLsbD_extractLsb']
  rw [if_neg (by omega), if_neg (by omega), show 22 + k - 2 - 10 = 10 + k by omega]
  have : k = 0 ∨ k = 1 := by omega
  rcases this with rfl | rfl <;> decide

@[simp] theorem outOffset_low (i : BitVec 10) : (outOffset i).extractLsb' 0 2 = 0 := by
  apply BitVec.eq_of_getLsbD_eq
  intro k hk
  simp only [outOffset, BitVec.getLsbD_append, BitVec.getLsbD_extractLsb']
  rw [if_pos (by omega)]
  simp

@[simp] theorem outOffset_index (i : BitVec 10) : (outOffset i).extractLsb' 2 10 = i := by
  apply BitVec.eq_of_getLsbD_eq
  intro k hk
  simp only [outOffset, BitVec.getLsbD_append, BitVec.getLsbD_extractLsb']
  rw [if_neg (by omega), if_pos (by omega), show 2 + k - 2 = k by omega]
  simp [hk]

/-- No register lies at a reserved offset (R84, R86). -/
theorem regAt_reserved {addr : BitVec 24} (h : reservedOffset addr = true) : regAt addr = none := by
  rw [regAt, List.find?_eq_none]
  intro r _ hr
  have hr' : r.offset = addr := by simpa using hr
  subst hr'
  revert h
  cases r <;> decide

/-- A reserved offset lies outside both RAM regions (R82, R83, R84). -/
theorem reserved_regions {addr : BitVec 24} (h : reservedOffset addr = true) :
    addr.extractLsb' 22 2 ≠ 1 ∧ addr.extractLsb' 12 12 ≠ 1 := by
  have hlt := addr.isLt
  simp only [reservedOffset, Bool.or_eq_true, Bool.and_eq_true, decide_eq_true_eq] at h
  constructor <;> intro he <;> have he := congrArg BitVec.toNat he
  · rw [region_toNat] at he; simp at he; omega
  · rw [page_toNat] at he; simp at he; omega

end Sys2Proof
end

