-- ==== Sys2Proof/Laws/Memory.lean ====
section
/-! SUPPORT. The byte memory: reading after writing, frames, and the canonical form every operation keeps. -/

namespace Sys2Proof.Machine

/-! Cells. -/

theorem lookupCell_insertCell (l : List Host.Cell) (a c : Nat) (b : Byte)
    (h : l.Pairwise (fun x y => x.1 < y.1)) :
    lookupCell (insertCell a b l) c = if a = c then some b else lookupCell l c := by
  induction l with
  | nil => simp [insertCell, lookupCell]
  | cons x rest ih =>
    obtain ⟨hx, hrest⟩ := List.pairwise_cons.mp h
    simp only [insertCell]
    split
    · simp [lookupCell]
    · split
      · subst_vars
        simp only [lookupCell]
        split <;> simp_all
      · simp only [lookupCell, ih hrest]
        split <;> split <;> simp_all

theorem mem_insertCell {a : Nat} {b : Byte} {l : List Host.Cell} {c : Host.Cell} (h : c ∈ insertCell a b l) :
    c = (a, b) ∨ c ∈ l := by
  induction l with
  | nil => simpa [insertCell] using h
  | cons x rest ih =>
    simp only [insertCell] at h
    split at h
    · simpa using h
    · split at h
      · rcases List.mem_cons.mp h with h | h
        · exact .inl h
        · exact .inr (List.mem_cons_of_mem _ h)
      · rcases List.mem_cons.mp h with h | h
        · exact .inr (by simp [h])
        · rcases ih h with h | h
          · exact .inl h
          · exact .inr (List.mem_cons_of_mem _ h)

theorem insertCell_sorted (a : Nat) (b : Byte) (l : List Host.Cell) (h : l.Pairwise (fun x y => x.1 < y.1)) :
    (insertCell a b l).Pairwise (fun x y => x.1 < y.1) := by
  induction l with
  | nil => simp [insertCell]
  | cons x rest ih =>
    obtain ⟨hx, hrest⟩ := List.pairwise_cons.mp h
    simp only [insertCell]
    split
    case isTrue hlt =>
      refine List.pairwise_cons.mpr ⟨fun c hc => ?_, h⟩
      rcases List.mem_cons.mp hc with rfl | hc
      · exact hlt
      · exact lt_trans hlt (hx c hc)
    case isFalse hge =>
      split
      case isTrue heq => subst heq; exact List.pairwise_cons.mpr ⟨hx, hrest⟩
      case isFalse hne =>
        refine List.pairwise_cons.mpr ⟨fun c hc => ?_, ih hrest⟩
        rcases mem_insertCell hc with rfl | hc
        · show x.1 < a
          omega
        · exact hx c hc

theorem lookupCell_filter (p : Host.Cell → Bool) (l : List Host.Cell) (a : Nat)
    (hp : ∀ c : Host.Cell, c.1 = a → p c = true) : lookupCell (l.filter p) a = lookupCell l a := by
  induction l with
  | nil => rfl
  | cons x rest ih =>
    by_cases hx : p x = true
    · simp only [List.filter_cons, hx, if_true, lookupCell, ih]
    · have : x.1 ≠ a := fun h => hx (hp x h)
      simpa [List.filter_cons, hx, lookupCell, this] using ih

/-! One byte. -/

@[simp] theorem Memory.write_resets (m : Memory) (a : Nat) (b : Byte) : (m.write a b).resets = m.resets := rfl
@[simp] theorem Memory.write_forgets (m : Memory) (a : Nat) (b : Byte) : (m.write a b).forgets = m.forgets := rfl
@[simp] theorem Memory.write_age (m : Memory) (a c : Nat) (b : Byte) : (m.write a b).age c = m.age c := rfl
@[simp] theorem Memory.write_unspecified (m : Memory) (a c : Nat) (b : Byte) :
    (m.write a b).unspecified c = m.unspecified c := rfl

/-- A read after a write: the byte written there, and every other byte as before. -/
theorem Memory.read_write (m : Memory) (a c : Nat) (b : Byte) (h : m.cells.Pairwise (fun x y => x.1 < y.1)) :
    (m.write a b).read c = if a = c then b else m.read c := by
  simp only [Memory.read, Memory.write_unspecified]
  simp only [Memory.write, lookupCell_insertCell _ _ _ _ h]
  split <;> simp

/-- Writing a byte keeps the listed addresses rising. -/
theorem Memory.write_sorted (m : Memory) (a : Nat) (b : Byte) (h : m.cells.Pairwise (fun x y => x.1 < y.1)) :
    (m.write a b).cells.Pairwise (fun x y => x.1 < y.1) := insertCell_sorted _ _ _ h

/-- Writing a byte of a RAM keeps the canonical form. -/
theorem Memory.write_wf (m : Memory) (a : Nat) (b : Byte) (h : m.wf) (ha : (inOutRam a || inSampleRam a) = true) :
    (m.write a b).wf :=
  ⟨m.write_sorted a b h.1, fun c hc => by
    rcases mem_insertCell hc with rfl | hc
    · exact ha
    · exact h.2 c hc⟩

/-! One word. -/

/-- The four bytes of a word, read back after it is written; every other byte as before (R90). -/
theorem Memory.read_writeWord (m : Memory) (a c : Nat) (w : Word) (h : m.cells.Pairwise (fun x y => x.1 < y.1)) :
    (m.writeWord a w).read c =
      if c = a then w.extractLsb' 0 8 else if c = a + 1 then w.extractLsb' 8 8
      else if c = a + 2 then w.extractLsb' 16 8 else if c = a + 3 then w.extractLsb' 24 8 else m.read c := by
  have h1 := m.write_sorted a (w.extractLsb' 0 8) h
  have h2 := Memory.write_sorted _ (a + 1) (w.extractLsb' 8 8) h1
  have h3 := Memory.write_sorted _ (a + 2) (w.extractLsb' 16 8) h2
  simp only [Memory.writeWord, Memory.read_write _ _ _ _ h3, Memory.read_write _ _ _ _ h2,
    Memory.read_write _ _ _ _ h1, Memory.read_write _ _ _ _ h]
  by_cases e0 : c = a
  · subst e0; simp
  by_cases e1 : c = a + 1
  · subst e1; simp
  by_cases e2 : c = a + 2
  · subst e2; simp
  by_cases e3 : c = a + 3
  · subst e3; simp
  simp [e0, e1, e2, e3, Ne.symm e0, Ne.symm e1, Ne.symm e2, Ne.symm e3]

/-- A byte outside the word written is as before. -/
theorem Memory.read_writeWord_frame (m : Memory) (a c : Nat) (w : Word)
    (h : m.cells.Pairwise (fun x y => x.1 < y.1)) (hc : c < a ∨ a + 4 ≤ c) : (m.writeWord a w).read c = m.read c := by
  rw [Memory.read_writeWord _ _ _ _ h]
  rw [if_neg (by omega), if_neg (by omega), if_neg (by omega), if_neg (by omega)]

/-- A word read after it is written. -/
theorem Memory.readWord_writeWord (m : Memory) (a : Nat) (w : Word) (h : m.cells.Pairwise (fun x y => x.1 < y.1)) :
    (m.writeWord a w).readWord a = w := by
  simp only [Memory.readWord, Memory.read_writeWord _ _ _ _ h]
  simpa using word_of_bytes w

/-- A word apart from the word written is as before. -/
theorem Memory.readWord_writeWord_frame (m : Memory) (a c : Nat) (w : Word)
    (h : m.cells.Pairwise (fun x y => x.1 < y.1)) (hc : c + 4 ≤ a ∨ a + 4 ≤ c) :
    (m.writeWord a w).readWord c = m.readWord c := by
  simp only [Memory.readWord]
  rw [Memory.read_writeWord_frame _ _ _ _ h (by omega), Memory.read_writeWord_frame _ _ _ _ h (by omega),
    Memory.read_writeWord_frame _ _ _ _ h (by omega), Memory.read_writeWord_frame _ _ _ _ h (by omega)]

/-- Writing a word inside a RAM keeps the canonical form. -/
theorem Memory.writeWord_wf (m : Memory) (a : Nat) (w : Word) (h : m.wf)
    (ha : ∀ k < 4, (inOutRam (a + k) || inSampleRam (a + k)) = true) : (m.writeWord a w).wf :=
  Memory.write_wf _ _ _ (Memory.write_wf _ _ _ (Memory.write_wf _ _ _ (Memory.write_wf _ _ _ h (ha 0 (by omega)))
    (ha 1 (by omega))) (ha 2 (by omega))) (ha 3 (by omega))

/-! Resets. -/

/-- A byte the abandoned run does not make unspecified reads as before (R332). -/
theorem Memory.read_forget (m : Memory) (n a : Nat) (h : forgotten n a = false) : (m.forget n).read a = m.read a := by
  have hage : (m.forget n).age a = m.age a := by simp [Memory.age, Memory.forget, h]
  have hl : lookupCell (m.forget n).cells a = lookupCell m.cells a :=
    lookupCell_filter _ _ _ (by rintro c rfl; simp [h])
  simp only [Memory.read, Memory.unspecified, hl, hage]
  rfl

theorem Memory.forget_wf (m : Memory) (n : Nat) (h : m.wf) : (m.forget n).wf :=
  ⟨h.1.filter _, fun c hc => h.2 c (List.mem_of_mem_filter hc)⟩

theorem Memory.hardReset_wf (m : Memory) : m.hardReset.wf := by simp [Memory.wf, Memory.hardReset]

/-! Where the RAMs' words lie (R82, R83). -/

theorem sampleAddr_inRam {n k : Nat} (hn : n < Config.maxBufLen) (hk : k < 4) :
    (inOutRam (sampleAddr n + k) || inSampleRam (sampleAddr n + k)) = true := by
  have : n < 0x100000 := hn
  simp only [inOutRam, inSampleRam, Bool.or_eq_true, Bool.and_eq_true, decide_eq_true_eq]
  simp only [sampleAddr, Config.sampleBase]
  omega

theorem outAddr_inRam {i k : Nat} (hi : i < Config.maxOutLen) (hk : k < 4) :
    (inOutRam (outAddr i + k) || inSampleRam (outAddr i + k)) = true := by
  have : i < 0x400 := hi
  simp only [inOutRam, inSampleRam, Bool.or_eq_true, Bool.and_eq_true, decide_eq_true_eq]
  simp only [outAddr, Config.outBase]
  omega

end Sys2Proof.Machine
end

