-- ==== Sys2Proof/Laws/State.lean ====
section
/-! SUPPORT. What each state update leaves in each field, true by unfolding it once. -/

namespace Sys2Proof.Machine

variable (s : State)

@[simp] theorem State.readOkay_eq (v : Word) : s.readOkay v = s.respond ⟨.okay, some v⟩ := rfl
@[simp] theorem State.readError_eq : s.readError = s.respond ⟨.error, some 0⟩ := rfl
@[simp] theorem State.writeOkay_eq : s.writeOkay = s.respond ⟨.okay, none⟩ := rfl
@[simp] theorem State.writeError_eq : s.writeError = s.respond ⟨.error, none⟩ := rfl

@[simp] theorem State.respond_build (r : Response) : (s.respond r).build = s.build := rfl
@[simp] theorem State.respond_irqEn (r : Response) : (s.respond r).irqEn = s.irqEn := rfl
@[simp] theorem State.respond_status (r : Response) : (s.respond r).status = s.status := rfl
@[simp] theorem State.respond_outCount (r : Response) : (s.respond r).outCount = s.outCount := rfl
@[simp] theorem State.respond_winCount (r : Response) : (s.respond r).winCount = s.winCount := rfl
@[simp] theorem State.respond_errInfo (r : Response) : (s.respond r).errInfo = s.errInfo := rfl
@[simp] theorem State.respond_cfg (r : Response) : (s.respond r).cfg = s.cfg := rfl
@[simp] theorem State.respond_mem (r : Response) : (s.respond r).mem = s.mem := rfl
@[simp] theorem State.respond_pos (r : Response) : (s.respond r).pos = s.pos := rfl
@[simp] theorem State.respond_work (r : Response) : (s.respond r).work = s.work := rfl
@[simp] theorem State.respond_line (r : Response) : (s.respond r).line = s.line := rfl
@[simp] theorem State.respond_fsm (r : Response) : (s.respond r).fsm = s.fsm := rfl
@[simp] theorem State.respond_port (r : Response) : (s.respond r).port = { s.port with resp := some r } := rfl

@[simp] theorem State.setSample_build (n : Nat) (w : Word) : (s.setSample n w).build = s.build := rfl
@[simp] theorem State.setSample_irqEn (n : Nat) (w : Word) : (s.setSample n w).irqEn = s.irqEn := rfl
@[simp] theorem State.setSample_status (n : Nat) (w : Word) : (s.setSample n w).status = s.status := rfl
@[simp] theorem State.setSample_outCount (n : Nat) (w : Word) : (s.setSample n w).outCount = s.outCount := rfl
@[simp] theorem State.setSample_winCount (n : Nat) (w : Word) : (s.setSample n w).winCount = s.winCount := rfl
@[simp] theorem State.setSample_errInfo (n : Nat) (w : Word) : (s.setSample n w).errInfo = s.errInfo := rfl
@[simp] theorem State.setSample_cfg (n : Nat) (w : Word) : (s.setSample n w).cfg = s.cfg := rfl
@[simp] theorem State.setSample_mem (n : Nat) (w : Word) : (s.setSample n w).mem = s.mem.writeWord (sampleAddr n) w := rfl
@[simp] theorem State.setSample_pos (n : Nat) (w : Word) : (s.setSample n w).pos = s.pos := rfl
@[simp] theorem State.setSample_work (n : Nat) (w : Word) : (s.setSample n w).work = s.work := rfl
@[simp] theorem State.setSample_line (n : Nat) (w : Word) : (s.setSample n w).line = s.line := rfl
@[simp] theorem State.setSample_fsm (n : Nat) (w : Word) : (s.setSample n w).fsm = s.fsm := rfl
@[simp] theorem State.setSample_port (n : Nat) (w : Word) : (s.setSample n w).port = s.port := rfl

@[simp] theorem State.setOut_build (i : Nat) (w : Word) : (s.setOut i w).build = s.build := rfl
@[simp] theorem State.setOut_irqEn (i : Nat) (w : Word) : (s.setOut i w).irqEn = s.irqEn := rfl
@[simp] theorem State.setOut_status (i : Nat) (w : Word) : (s.setOut i w).status = s.status := rfl
@[simp] theorem State.setOut_outCount (i : Nat) (w : Word) : (s.setOut i w).outCount = s.outCount := rfl
@[simp] theorem State.setOut_winCount (i : Nat) (w : Word) : (s.setOut i w).winCount = s.winCount := rfl
@[simp] theorem State.setOut_errInfo (i : Nat) (w : Word) : (s.setOut i w).errInfo = s.errInfo := rfl
@[simp] theorem State.setOut_cfg (i : Nat) (w : Word) : (s.setOut i w).cfg = s.cfg := rfl
@[simp] theorem State.setOut_mem (i : Nat) (w : Word) : (s.setOut i w).mem = s.mem.writeWord (outAddr i) w := rfl
@[simp] theorem State.setOut_pos (i : Nat) (w : Word) : (s.setOut i w).pos = s.pos := rfl
@[simp] theorem State.setOut_work (i : Nat) (w : Word) : (s.setOut i w).work = s.work := rfl
@[simp] theorem State.setOut_line (i : Nat) (w : Word) : (s.setOut i w).line = s.line := rfl
@[simp] theorem State.setOut_fsm (i : Nat) (w : Word) : (s.setOut i w).fsm = s.fsm := rfl
@[simp] theorem State.setOut_port (i : Nat) (w : Word) : (s.setOut i w).port = s.port := rfl

@[simp] theorem State.enterPass_build (p : BitVec 3) : (s.enterPass p).build = s.build := rfl
@[simp] theorem State.enterPass_irqEn (p : BitVec 3) : (s.enterPass p).irqEn = s.irqEn := rfl
@[simp] theorem State.enterPass_status (p : BitVec 3) : (s.enterPass p).status = s.status := rfl
@[simp] theorem State.enterPass_outCount (p : BitVec 3) : (s.enterPass p).outCount = s.outCount := rfl
@[simp] theorem State.enterPass_winCount (p : BitVec 3) : (s.enterPass p).winCount = s.winCount := rfl
@[simp] theorem State.enterPass_errInfo (p : BitVec 3) : (s.enterPass p).errInfo = s.errInfo := rfl
@[simp] theorem State.enterPass_cfg (p : BitVec 3) : (s.enterPass p).cfg = s.cfg := rfl
@[simp] theorem State.enterPass_mem (p : BitVec 3) : (s.enterPass p).mem = s.mem := rfl
@[simp] theorem State.enterPass_pos (p : BitVec 3) : (s.enterPass p).pos = { s.pos with phase := p, n := 0 } := rfl
@[simp] theorem State.enterPass_work (p : BitVec 3) : (s.enterPass p).work = s.work := rfl
@[simp] theorem State.enterPass_line (p : BitVec 3) : (s.enterPass p).line = s.line := rfl
@[simp] theorem State.enterPass_fsm (p : BitVec 3) : (s.enterPass p).fsm = s.fsm := rfl
@[simp] theorem State.enterPass_port (p : BitVec 3) : (s.enterPass p).port = s.port := rfl

@[simp] theorem State.nextSample_build : s.nextSample.build = s.build := rfl
@[simp] theorem State.nextSample_irqEn : s.nextSample.irqEn = s.irqEn := rfl
@[simp] theorem State.nextSample_status : s.nextSample.status = s.status := rfl
@[simp] theorem State.nextSample_outCount : s.nextSample.outCount = s.outCount := rfl
@[simp] theorem State.nextSample_winCount : s.nextSample.winCount = s.winCount := rfl
@[simp] theorem State.nextSample_errInfo : s.nextSample.errInfo = s.errInfo := rfl
@[simp] theorem State.nextSample_cfg : s.nextSample.cfg = s.cfg := rfl
@[simp] theorem State.nextSample_mem : s.nextSample.mem = s.mem := rfl
@[simp] theorem State.nextSample_pos : s.nextSample.pos = { s.pos with n := s.pos.n + 1 } := rfl
@[simp] theorem State.nextSample_work : s.nextSample.work = s.work := rfl
@[simp] theorem State.nextSample_line : s.nextSample.line = s.line := rfl
@[simp] theorem State.nextSample_fsm : s.nextSample.fsm = s.fsm := rfl
@[simp] theorem State.nextSample_port : s.nextSample.port = s.port := rfl

@[simp] theorem State.raise_build (c : BitVec 4) (i : Nat) : (s.raise c i).build = s.build := rfl
@[simp] theorem State.raise_irqEn (c : BitVec 4) (i : Nat) : (s.raise c i).irqEn = s.irqEn := rfl
@[simp] theorem State.raise_status (c : BitVec 4) (i : Nat) : (s.raise c i).status = { s.status with err := true, errCode := c, busy := false } := rfl
@[simp] theorem State.raise_outCount (c : BitVec 4) (i : Nat) : (s.raise c i).outCount = s.outCount := rfl
@[simp] theorem State.raise_winCount (c : BitVec 4) (i : Nat) : (s.raise c i).winCount = s.winCount := rfl
@[simp] theorem State.raise_errInfo (c : BitVec 4) (i : Nat) : (s.raise c i).errInfo = BitVec.ofNat 32 i := rfl
@[simp] theorem State.raise_cfg (c : BitVec 4) (i : Nat) : (s.raise c i).cfg = s.cfg := rfl
@[simp] theorem State.raise_mem (c : BitVec 4) (i : Nat) : (s.raise c i).mem = s.mem := rfl
@[simp] theorem State.raise_pos (c : BitVec 4) (i : Nat) : (s.raise c i).pos = { s.pos with phase := 0 } := rfl
@[simp] theorem State.raise_work (c : BitVec 4) (i : Nat) : (s.raise c i).work = s.work := rfl
@[simp] theorem State.raise_line (c : BitVec 4) (i : Nat) : (s.raise c i).line = s.line := rfl
@[simp] theorem State.raise_fsm (c : BitVec 4) (i : Nat) : (s.raise c i).fsm = s.fsm := rfl
@[simp] theorem State.raise_port (c : BitVec 4) (i : Nat) : (s.raise c i).port = s.port := rfl

@[simp] theorem State.complete_build : s.complete.build = s.build := rfl
@[simp] theorem State.complete_irqEn : s.complete.irqEn = s.irqEn := rfl
@[simp] theorem State.complete_status : s.complete.status = { s.status with done := true, busy := false } := rfl
@[simp] theorem State.complete_outCount : s.complete.outCount = s.outCount := rfl
@[simp] theorem State.complete_winCount : s.complete.winCount = s.winCount := rfl
@[simp] theorem State.complete_errInfo : s.complete.errInfo = s.errInfo := rfl
@[simp] theorem State.complete_cfg : s.complete.cfg = s.cfg := rfl
@[simp] theorem State.complete_mem : s.complete.mem = s.mem := rfl
@[simp] theorem State.complete_pos : s.complete.pos = { s.pos with phase := 0 } := rfl
@[simp] theorem State.complete_work : s.complete.work = s.work := rfl
@[simp] theorem State.complete_line : s.complete.line = s.line := rfl
@[simp] theorem State.complete_fsm : s.complete.fsm = s.fsm := rfl
@[simp] theorem State.complete_port : s.complete.port = s.port := rfl

@[simp] theorem State.refuseStart_build : s.refuseStart.build = s.build := rfl
@[simp] theorem State.refuseStart_irqEn : s.refuseStart.irqEn = s.irqEn := rfl
@[simp] theorem State.refuseStart_status : s.refuseStart.status = { s.status with done := false, err := true, errCode := errCount } := rfl
@[simp] theorem State.refuseStart_outCount : s.refuseStart.outCount = s.outCount := rfl
@[simp] theorem State.refuseStart_winCount : s.refuseStart.winCount = s.winCount := rfl
@[simp] theorem State.refuseStart_errInfo : s.refuseStart.errInfo = s.cfg.sampleCount := rfl
@[simp] theorem State.refuseStart_cfg : s.refuseStart.cfg = s.cfg := rfl
@[simp] theorem State.refuseStart_mem : s.refuseStart.mem = s.mem := rfl
@[simp] theorem State.refuseStart_pos : s.refuseStart.pos = s.pos := rfl
@[simp] theorem State.refuseStart_work : s.refuseStart.work = s.work := rfl
@[simp] theorem State.refuseStart_line : s.refuseStart.line = s.line := rfl
@[simp] theorem State.refuseStart_fsm : s.refuseStart.fsm = s.fsm := rfl
@[simp] theorem State.refuseStart_port : s.refuseStart.port = s.port := rfl

@[simp] theorem State.beginRun_build : s.beginRun.build = s.build := rfl
@[simp] theorem State.beginRun_irqEn : s.beginRun.irqEn = s.irqEn := rfl
@[simp] theorem State.beginRun_status : s.beginRun.status = ⟨true, false, false, false, 0⟩ := rfl
@[simp] theorem State.beginRun_outCount : s.beginRun.outCount = 0 := rfl
@[simp] theorem State.beginRun_winCount : s.beginRun.winCount = 0 := rfl
@[simp] theorem State.beginRun_errInfo : s.beginRun.errInfo = 0 := rfl
@[simp] theorem State.beginRun_cfg : s.beginRun.cfg = s.cfg := rfl
@[simp] theorem State.beginRun_mem : s.beginRun.mem = s.mem := rfl
@[simp] theorem State.beginRun_pos : s.beginRun.pos = ⟨if s.total = 0 then 6 else 1, 0, 0⟩ := rfl
@[simp] theorem State.beginRun_work : s.beginRun.work = { s.work with sum := .zero, sumSq := .zero } := rfl
@[simp] theorem State.beginRun_line : s.beginRun.line = s.line := rfl
@[simp] theorem State.beginRun_fsm : s.beginRun.fsm = .reset := rfl
@[simp] theorem State.beginRun_port : s.beginRun.port = s.port := rfl

@[simp] theorem State.softReset_build : s.softReset.build = s.build := rfl
@[simp] theorem State.softReset_irqEn : s.softReset.irqEn = false := rfl
@[simp] theorem State.softReset_status : s.softReset.status = .reset := rfl
@[simp] theorem State.softReset_outCount : s.softReset.outCount = 0 := rfl
@[simp] theorem State.softReset_winCount : s.softReset.winCount = 0 := rfl
@[simp] theorem State.softReset_errInfo : s.softReset.errInfo = 0 := rfl
@[simp] theorem State.softReset_cfg : s.softReset.cfg = .reset s.build := rfl
@[simp] theorem State.softReset_mem : s.softReset.mem = if s.status.busy then s.mem.forget s.total else s.mem := rfl
@[simp] theorem State.softReset_pos : s.softReset.pos = .reset := rfl
@[simp] theorem State.softReset_work : s.softReset.work = .reset := rfl
@[simp] theorem State.softReset_line : s.softReset.line = .reset := rfl
@[simp] theorem State.softReset_fsm : s.softReset.fsm = .reset := rfl
@[simp] theorem State.softReset_port : s.softReset.port = { s.port with cls := 0 } := rfl

@[simp] theorem State.hardReset_build : s.hardReset.build = s.build := rfl
@[simp] theorem State.hardReset_irqEn : s.hardReset.irqEn = false := rfl
@[simp] theorem State.hardReset_status : s.hardReset.status = .reset := rfl
@[simp] theorem State.hardReset_outCount : s.hardReset.outCount = 0 := rfl
@[simp] theorem State.hardReset_winCount : s.hardReset.winCount = 0 := rfl
@[simp] theorem State.hardReset_errInfo : s.hardReset.errInfo = 0 := rfl
@[simp] theorem State.hardReset_cfg : s.hardReset.cfg = .reset s.build := rfl
@[simp] theorem State.hardReset_mem : s.hardReset.mem = s.mem.hardReset := rfl
@[simp] theorem State.hardReset_pos : s.hardReset.pos = .reset := rfl
@[simp] theorem State.hardReset_work : s.hardReset.work = .reset := rfl
@[simp] theorem State.hardReset_line : s.hardReset.line = .reset := rfl
@[simp] theorem State.hardReset_fsm : s.hardReset.fsm = .reset := rfl
@[simp] theorem State.hardReset_port : s.hardReset.port = ⟨s.port.agenda, none, 0⟩ := rfl

@[simp] theorem State.nextWindow_build : s.nextWindow.build = s.build := rfl
@[simp] theorem State.nextWindow_irqEn : s.nextWindow.irqEn = s.irqEn := rfl
@[simp] theorem State.nextWindow_status : s.nextWindow.status = s.status := rfl
@[simp] theorem State.nextWindow_outCount : s.nextWindow.outCount = s.outCount := rfl
@[simp] theorem State.nextWindow_winCount : s.nextWindow.winCount = BitVec.ofNat 32 (s.pos.j + 1) := rfl
@[simp] theorem State.nextWindow_errInfo : s.nextWindow.errInfo = s.errInfo := rfl
@[simp] theorem State.nextWindow_cfg : s.nextWindow.cfg = s.cfg := rfl
@[simp] theorem State.nextWindow_mem : s.nextWindow.mem = s.mem := rfl
@[simp] theorem State.nextWindow_pos : s.nextWindow.pos = { s.pos with j := s.pos.j + 1 } := rfl
@[simp] theorem State.nextWindow_work : s.nextWindow.work = s.work := rfl
@[simp] theorem State.nextWindow_line : s.nextWindow.line = s.line := rfl
@[simp] theorem State.nextWindow_fsm : s.nextWindow.fsm = s.fsm := rfl
@[simp] theorem State.nextWindow_port : s.nextWindow.port = s.port := rfl

@[simp] theorem State.withAgenda_build (rest : List Stimulus) : (s.withAgenda rest).build = s.build := rfl
@[simp] theorem State.withAgenda_irqEn (rest : List Stimulus) : (s.withAgenda rest).irqEn = s.irqEn := rfl
@[simp] theorem State.withAgenda_status (rest : List Stimulus) : (s.withAgenda rest).status = s.status := rfl
@[simp] theorem State.withAgenda_outCount (rest : List Stimulus) : (s.withAgenda rest).outCount = s.outCount := rfl
@[simp] theorem State.withAgenda_winCount (rest : List Stimulus) : (s.withAgenda rest).winCount = s.winCount := rfl
@[simp] theorem State.withAgenda_errInfo (rest : List Stimulus) : (s.withAgenda rest).errInfo = s.errInfo := rfl
@[simp] theorem State.withAgenda_cfg (rest : List Stimulus) : (s.withAgenda rest).cfg = s.cfg := rfl
@[simp] theorem State.withAgenda_mem (rest : List Stimulus) : (s.withAgenda rest).mem = s.mem := rfl
@[simp] theorem State.withAgenda_pos (rest : List Stimulus) : (s.withAgenda rest).pos = s.pos := rfl
@[simp] theorem State.withAgenda_work (rest : List Stimulus) : (s.withAgenda rest).work = s.work := rfl
@[simp] theorem State.withAgenda_line (rest : List Stimulus) : (s.withAgenda rest).line = s.line := rfl
@[simp] theorem State.withAgenda_fsm (rest : List Stimulus) : (s.withAgenda rest).fsm = s.fsm := rfl
@[simp] theorem State.withAgenda_port (rest : List Stimulus) : (s.withAgenda rest).port = { s.port with agenda := rest } := rfl

@[simp] theorem State.acknowledge_build (d e : Bool) : (s.acknowledge d e).build = s.build := rfl
@[simp] theorem State.acknowledge_irqEn (d e : Bool) : (s.acknowledge d e).irqEn = s.irqEn := rfl
@[simp] theorem State.acknowledge_status (d e : Bool) : (s.acknowledge d e).status = { s.status with
      done := if d then false else s.status.done
      err := if e then false else s.status.err
      errCode := if e then 0 else s.status.errCode } := rfl
@[simp] theorem State.acknowledge_outCount (d e : Bool) : (s.acknowledge d e).outCount = s.outCount := rfl
@[simp] theorem State.acknowledge_winCount (d e : Bool) : (s.acknowledge d e).winCount = s.winCount := rfl
@[simp] theorem State.acknowledge_errInfo (d e : Bool) : (s.acknowledge d e).errInfo = if e then 0 else s.errInfo := rfl
@[simp] theorem State.acknowledge_cfg (d e : Bool) : (s.acknowledge d e).cfg = s.cfg := rfl
@[simp] theorem State.acknowledge_mem (d e : Bool) : (s.acknowledge d e).mem = s.mem := rfl
@[simp] theorem State.acknowledge_pos (d e : Bool) : (s.acknowledge d e).pos = s.pos := rfl
@[simp] theorem State.acknowledge_work (d e : Bool) : (s.acknowledge d e).work = s.work := rfl
@[simp] theorem State.acknowledge_line (d e : Bool) : (s.acknowledge d e).line = s.line := rfl
@[simp] theorem State.acknowledge_fsm (d e : Bool) : (s.acknowledge d e).fsm = s.fsm := rfl
@[simp] theorem State.acknowledge_port (d e : Bool) : (s.acknowledge d e).port = s.port := rfl

/-! An emission writes OUT_RAM and OUT_COUNT, or OUT_OVF, and nothing else (R236). -/

@[simp] theorem State.emit_build (k : BitVec 4) (p : Byte) : (s.emit k p).build = s.build := by
  unfold State.emit; split <;> rfl
@[simp] theorem State.emit_irqEn (k : BitVec 4) (p : Byte) : (s.emit k p).irqEn = s.irqEn := by
  unfold State.emit; split <;> rfl
@[simp] theorem State.emit_winCount (k : BitVec 4) (p : Byte) : (s.emit k p).winCount = s.winCount := by
  unfold State.emit; split <;> rfl
@[simp] theorem State.emit_errInfo (k : BitVec 4) (p : Byte) : (s.emit k p).errInfo = s.errInfo := by
  unfold State.emit; split <;> rfl
@[simp] theorem State.emit_cfg (k : BitVec 4) (p : Byte) : (s.emit k p).cfg = s.cfg := by
  unfold State.emit; split <;> rfl
@[simp] theorem State.emit_pos (k : BitVec 4) (p : Byte) : (s.emit k p).pos = s.pos := by
  unfold State.emit; split <;> rfl
@[simp] theorem State.emit_work (k : BitVec 4) (p : Byte) : (s.emit k p).work = s.work := by
  unfold State.emit; split <;> rfl
@[simp] theorem State.emit_line (k : BitVec 4) (p : Byte) : (s.emit k p).line = s.line := by
  unfold State.emit; split <;> rfl
@[simp] theorem State.emit_fsm (k : BitVec 4) (p : Byte) : (s.emit k p).fsm = s.fsm := by
  unfold State.emit; split <;> rfl
@[simp] theorem State.emit_port (k : BitVec 4) (p : Byte) : (s.emit k p).port = s.port := by
  unfold State.emit; split <;> rfl

/-! What depends on the build and the configuration alone. -/

theorem State.total_congr {s t : State} (h : s.cfg = t.cfg) : s.total = t.total := by simp [State.total, h]

theorem State.windows_congr {s t : State} (hb : s.build = t.build) (hc : s.cfg = t.cfg) : s.windows = t.windows := by
  simp [State.windows, State.total, hb, hc]

end Sys2Proof.Machine
end

