-- ==== Sys2Proof/Laws/Ops.lean ====
section
/-! SUPPORT. What each shared operation can do, said once. -/

namespace Sys2Proof.Machine

/-! The busy gate. -/

theorem State.gatedWrite_idle {s t : State} (h : s.status.busy = false) : s.gatedWrite t = t.writeOkay := by
  simp [State.gatedWrite, h]

theorem State.gatedWrite_busy {s t : State} (h : s.status.busy = true) : s.gatedWrite t = s.writeError := by
  simp [State.gatedWrite, h]

/-- A configuration write does one of two things. -/
theorem State.writeConfig_cases (s : State) (c : ConfigRegs) :
    (s.status.busy = true ∧ s.writeConfig c = s.writeError)
      ∨ (s.status.busy = false ∧ s.writeConfig c = { s with cfg := c }.writeOkay) := by
  cases h : s.status.busy
  · exact .inr ⟨rfl, s.gatedWrite_idle h⟩
  · exact .inl ⟨rfl, s.gatedWrite_busy h⟩

/-! RAM words. -/

/-- The index of a sample that exists. -/
theorem State.sample?_of_lt {s : State} {n : Nat} (h : n < s.build.bufLen) :
    s.sample? n = some (s.mem.readWord (sampleAddr n)) := by simp [State.sample?, h]

theorem State.sample?_eq_some {s : State} {n : Nat} {w : Word} (h : s.sample? n = some w) :
    n < s.build.bufLen ∧ w = s.mem.readWord (sampleAddr n) := by
  simp only [State.sample?] at h
  split at h
  · exact ⟨‹_›, (Option.some.inj h).symm⟩
  · cases h

/-- A micro-operation over a sample that exists runs. -/
theorem withSample_of_lt {s : State} (act : Word → State) (h : s.pos.n < s.build.bufLen) :
    withSample s act = .next (act (s.mem.readWord (sampleAddr s.pos.n))) := by
  simp [withSample, State.sample?_of_lt h]

/-- When a micro-operation over a sample answers, the sample exists. -/
theorem withSample_next {s t : State} {act : Word → State} (h : withSample s act = .next t) :
    s.pos.n < s.build.bufLen ∧ t = act (s.mem.readWord (sampleAddr s.pos.n)) := by
  simp only [withSample] at h
  split at h
  · cases h
  · obtain ⟨h1, rfl⟩ := State.sample?_eq_some ‹_›
    exact ⟨h1, (Host.Outcome.next.inj h).symm⟩

/-- A sample written keeps the canonical form of memory. -/
theorem State.setSample_wf {s : State} {n : Nat} {w : Word} (hn : n < Config.maxBufLen) (h : s.mem.wf) :
    (s.setSample n w).mem.wf := s.mem.writeWord_wf _ _ h fun _ => sampleAddr_inRam hn

/-- An entry written keeps the canonical form of memory. -/
theorem State.setOut_wf {s : State} {i : Nat} {w : Word} (hi : i < Config.maxOutLen) (h : s.mem.wf) :
    (s.setOut i w).mem.wf := s.mem.writeWord_wf _ _ h fun _ => outAddr_inRam hi

/-! Start. -/

/-- START does one of two things (R263). -/
theorem State.start_cases (s : State) :
    (s.build.bufLen < s.total ∧ s.start = s.refuseStart) ∨ (s.total ≤ s.build.bufLen ∧ s.start = s.beginRun) := by
  by_cases h : s.build.bufLen < s.total
  · exact .inl ⟨h, if_pos h⟩
  · exact .inr ⟨Nat.le_of_not_lt h, if_neg h⟩

/-- What a control write does (R274). -/
theorem execWrCtrl_cases (w : Word) (s : State) :
    (w.getLsbD 1 = true ∧ execWrCtrl w s = .next s.softReset.writeOkay)
      ∨ (w.getLsbD 1 = false ∧ w.getLsbD 0 = true ∧ s.status.busy = true ∧ execWrCtrl w s = .next s.writeError)
      ∨ (w.getLsbD 1 = false ∧ w.getLsbD 0 = true ∧ s.status.busy = false
        ∧ execWrCtrl w s = .next { s with irqEn := w.getLsbD 2 }.start.writeOkay)
      ∨ (w.getLsbD 1 = false ∧ w.getLsbD 0 = false
        ∧ execWrCtrl w s = .next { s with irqEn := w.getLsbD 2 }.writeOkay) := by
  simp only [execWrCtrl]
  cases h1 : w.getLsbD 1 <;> cases h0 : w.getLsbD 0 <;> cases hb : s.status.busy <;> simp

/-! Emission (R236). -/

/-- An emission does one of two things. -/
theorem State.emit_cases (s : State) (k : BitVec 4) (p : Byte) :
    (s.outCount.toNat < s.build.outLen
        ∧ s.emit k p = { s.setOut s.outCount.toNat (outEntry s.cfg.pchar k p) with outCount := s.outCount + 1 })
      ∨ (s.build.outLen ≤ s.outCount.toNat ∧ s.emit k p = { s with status := { s.status with outOvf := true } }) := by
  by_cases h : s.outCount.toNat < s.build.outLen
  · exact .inl ⟨h, if_pos h⟩
  · exact .inr ⟨Nat.le_of_not_lt h, if_neg h⟩

section Emission
variable (s : State) (k : BitVec 4) (p : Byte)

@[simp] theorem State.emit_busy : (s.emit k p).status.busy = s.status.busy := by
  obtain ⟨-, h⟩ | ⟨-, h⟩ := s.emit_cases k p <;> simp [h]
@[simp] theorem State.emit_done : (s.emit k p).status.done = s.status.done := by
  obtain ⟨-, h⟩ | ⟨-, h⟩ := s.emit_cases k p <;> simp [h]
@[simp] theorem State.emit_err : (s.emit k p).status.err = s.status.err := by
  obtain ⟨-, h⟩ | ⟨-, h⟩ := s.emit_cases k p <;> simp [h]
@[simp] theorem State.emit_errCode : (s.emit k p).status.errCode = s.status.errCode := by
  obtain ⟨-, h⟩ | ⟨-, h⟩ := s.emit_cases k p <;> simp [h]

end Emission

/-- An emission changes no byte outside the entry it writes. -/
theorem State.emit_read {s : State} (k : BitVec 4) (p : Byte) {a : Nat} (hm : s.mem.wf)
    (ha : a < outAddr s.outCount.toNat ∨ outAddr s.outCount.toNat + 4 ≤ a) :
    (s.emit k p).mem.read a = s.mem.read a := by
  obtain ⟨-, h⟩ | ⟨-, h⟩ := s.emit_cases k p
  · rw [h]; exact s.mem.read_writeWord_frame _ _ _ hm.1 ha
  · rw [h]

/-- An emission keeps the canonical form of memory. -/
theorem State.emit_wf {s : State} (k : BitVec 4) (p : Byte) (hl : s.build.outLen ≤ Config.maxOutLen) (hm : s.mem.wf) :
    (s.emit k p).mem.wf := by
  obtain ⟨hi, h⟩ | ⟨-, h⟩ := s.emit_cases k p
  · rw [h]; exact State.setOut_wf (Nat.lt_of_lt_of_le hi hl) hm
  · rw [h]; exact hm

/-- OUT_COUNT stays within OUT_RAM (R40). -/
theorem State.emit_outCount_le {s : State} (k : BitVec 4) (p : Byte) (hl : s.build.outLen ≤ Config.maxOutLen)
    (h : s.outCount.toNat ≤ s.build.outLen) : (s.emit k p).outCount.toNat ≤ s.build.outLen := by
  have hmax : Config.maxOutLen = 1024 := rfl
  obtain ⟨hi, he⟩ | ⟨-, he⟩ := s.emit_cases k p
  · rw [he]
    show (s.outCount + 1).toNat ≤ _
    have : (1 : Word).toNat = 1 := rfl
    rw [BitVec.toNat_add, this]
    omega
  · rw [he]; exact h

/-! The segmentation FSM. -/

/-- A saturating increment counts to 255 (R19). -/
theorem satInc_toNat (v : Byte) : (satInc v).toNat = min (v.toNat + 1) 255 := by
  by_cases h : v = 255
  · subst h; rfl
  · have hne : v.toNat ≠ 255 := fun hv => h (BitVec.eq_of_toNat_eq hv)
    have hlt := v.isLt
    have h1 : (1 : Byte).toNat = 1 := rfl
    rw [satInc, if_neg h, BitVec.toNat_add, h1]
    omega

/-- GAP after a detection window (R227). -/
def Fsm.nextGap (f : Fsm) : Byte := if f.gap = 0 then 0 else satInc f.gap

/-- What a detection does (R223): a first detection, the same key, another key within the guard interval, a key change. -/
theorem Fsm.keyStep_cases (f : Fsm) (guard : Byte) (c : BitVec 4) :
    (f.lk = 0 ∧ f.keyStep guard c = ⟨c, 1, 0, 0, f.nextGap, f.cool⟩)
      ∨ (f.lk ≠ 0 ∧ c = f.lk ∧ f.keyStep guard c = ⟨f.lk, satInc f.same, f.press, 0, f.nextGap, f.cool⟩)
      ∨ (f.lk ≠ 0 ∧ c ≠ f.lk ∧ guarded f.nextGap guard = true
        ∧ f.keyStep guard c = ⟨f.lk, satInc f.same, f.press, 0, f.nextGap, f.cool⟩)
      ∨ (f.lk ≠ 0 ∧ c ≠ f.lk ∧ guarded f.nextGap guard = false
        ∧ f.keyStep guard c = ⟨c, 1, 0, 0, f.nextGap, f.cool⟩) := by
  by_cases h0 : f.lk = 0
  · exact .inl ⟨h0, by simp only [Fsm.keyStep, if_pos h0]; rfl⟩
  by_cases h1 : c = f.lk
  · exact .inr (.inl ⟨h0, h1, by simp only [Fsm.keyStep, if_neg h0, if_pos h1]; rfl⟩)
  by_cases h2 : guarded f.nextGap guard = true
  · have h2' : guarded (if f.gap = 0 then 0 else satInc f.gap) guard = true := h2
    exact .inr (.inr (.inl ⟨h0, h1, h2, by simp only [Fsm.keyStep, if_neg h0, if_neg h1, if_pos h2']; rfl⟩))
  · have h2' : ¬guarded (if f.gap = 0 then 0 else satInc f.gap) guard = true := h2
    exact .inr (.inr (.inr ⟨h0, h1, by simpa using h2,
      by simp only [Fsm.keyStep, if_neg h0, if_neg h1, if_neg h2']; rfl⟩))

/-- A detection keeps the current key or takes the window's (R223). -/
theorem Fsm.keyStep_lk (f : Fsm) (guard : Byte) (c : BitVec 4) :
    (f.keyStep guard c).lk = f.lk ∨ (f.keyStep guard c).lk = 0 ∨ (f.keyStep guard c).lk = c := by
  obtain ⟨-, h⟩ | ⟨-, -, h⟩ | ⟨-, -, -, h⟩ | ⟨-, -, -, h⟩ := f.keyStep_cases guard c <;> simp [h]

/-- What a silent window does (R228): it only counts, or it ends a letter without output, or it ends a letter and emits
it. -/
theorem State.silenceStep_cases (s : State) :
    (∃ f : Fsm, f.lk = s.fsm.lk ∧ s.silenceStep = { s with fsm := f })
      ∨ s.silenceStep = { s with fsm := { Fsm.reset with cool := s.fsm.cool } }
      ∨ (s.fsm.lk ≠ 0 ∧ ∃ p : Byte, p ≠ 0
        ∧ s.silenceStep = { s.emit s.fsm.lk p with fsm := { Fsm.reset with cool := s.cooldown } }) := by
  simp only [State.silenceStep]
  split
  · rename_i h
    split
    · exact .inr (.inr ⟨h.2, _, ‹_›, rfl⟩)
    · exact .inr (.inl rfl)
  · exact .inl ⟨s.fsm.silenceCount s.confirm, rfl, rfl⟩

/-- What a window does to the machine (R222): it moves the FSM registers, and emits at most one entry. -/
theorem State.fsmStep_cases (s : State) (c : BitVec 4) :
    (∃ f : Fsm, (f.lk = s.fsm.lk ∨ f.lk = 0 ∨ f.lk = c) ∧ s.fsmStep c = { s with fsm := f })
      ∨ (s.fsm.lk ≠ 0 ∧ ∃ p : Byte, p ≠ 0
        ∧ s.fsmStep c = { s.emit s.fsm.lk p with fsm := { Fsm.reset with cool := s.cooldown } }) := by
  simp only [State.fsmStep]
  split
  · exact .inl ⟨{ s.fsm with cool := s.fsm.cool - 1 }, .inl rfl, rfl⟩
  · split
    · exact .inl ⟨s.fsm.keyStep s.guard c, Fsm.keyStep_lk .., rfl⟩
    · obtain ⟨f, hf, h⟩ | h | h := s.silenceStep_cases
      · exact .inl ⟨f, .inl hf, h⟩
      · exact .inl ⟨_, .inr (.inl rfl), h⟩
      · exact .inr h

/-- A class code presented to the FSM answers exactly when it is 0 to 12. -/
theorem presentClass_of_le {c : BitVec 4} (s : State) (h : c.toNat ≤ 12) : presentClass c s = .next (s.fsmStep c) :=
  if_neg (Nat.not_lt.mpr h)

theorem presentClass_next {c : BitVec 4} {s t : State} (h : presentClass c s = .next t) :
    c.toNat ≤ 12 ∧ t = s.fsmStep c := by
  simp only [presentClass] at h
  split at h
  · cases h
  · exact ⟨by omega, (Host.Outcome.next.inj h).symm⟩

/-- What the end-of-buffer flush does (R231): it emits at most one entry. -/
theorem State.flushEmit_cases (s : State) :
    s.flushEmit = s ∨ (s.fsm.lk ≠ 0 ∧ s.flushPresses ≠ 0 ∧ s.flushEmit = s.emit s.fsm.lk s.flushPresses) := by
  by_cases h : s.fsm.lk ≠ 0 ∧ s.flushPresses ≠ 0
  · exact .inr ⟨h.1, h.2, if_pos h⟩
  · exact .inl (if_neg h)

/-! The detector. -/

theorem State.window?_of_le {s : State} {j : Nat} (h : j * s.build.stride + Config.windowLength ≤ s.build.bufLen) :
    s.window? j = some (s.windowAt j) := if_pos h

/-- A classification over a window that exists. -/
theorem classifyWindow_eq {s : State} (classify : State → List F32 → Option (BitVec 4)) (act : BitVec 4 → State → Result)
    (h : s.pos.j * s.build.stride + Config.windowLength ≤ s.build.bufLen) :
    classifyWindow s classify act =
      match classify s (s.windowAt s.pos.j) with
      | none => .next (s.raise errDetect s.pos.j)
      | some c => act c { s with port := { s.port with cls := c } } := by
  simp only [classifyWindow, State.window?_of_le h] <;> cases classify s (s.windowAt s.pos.j) <;> rfl

/-- What a classification can do: an error entry, or the act on a class code (R194, R195). -/
theorem classifyWindow_cases {s t : State} {classify : State → List F32 → Option (BitVec 4)}
    {act : BitVec 4 → State → Result} (h : classifyWindow s classify act = .next t) :
    ∃ x, s.window? s.pos.j = some x ∧ ((classify s x = none ∧ t = s.raise errDetect s.pos.j)
      ∨ ∃ c, classify s x = some c ∧ act c { s with port := { s.port with cls := c } } = .next t) := by
  simp only [classifyWindow] at h
  split at h
  · cases h
  · rename_i x hx
    refine ⟨x, hx, ?_⟩
    split at h
    · exact .inl ⟨‹_›, (Host.Outcome.next.inj h).symm⟩
    · exact .inr ⟨_, ‹_›, h⟩

/-- A classified window's FSM step, and the next window (R196). -/
theorem stepWindow_next {c : BitVec 4} {s t : State} (h : stepWindow c s = .next t) :
    c.toNat ≤ 12 ∧ t = (s.fsmStep c).nextWindow := by
  simp only [stepWindow] at h
  split at h
  · obtain ⟨h1, rfl⟩ := presentClass_next ‹_›
    exact ⟨h1, (Host.Outcome.next.inj h).symm⟩
  · simp_all

/-- The three classification operations, by their selector (R120). -/
theorem detectorOf_cases {d : BitVec 2} {classify : State → List F32 → Option (BitVec 4)}
    (h : detectorOf d = some classify) :
    (d = 0 ∧ classify = goertzelClass) ∨ (d = 1 ∧ classify = strictClass) ∨ (d = 2 ∧ classify = spectralClass) := by
  by_cases h0 : d = 0
  · rw [detectorOf, if_pos h0] at h; exact .inl ⟨h0, (Option.some.inj h).symm⟩
  by_cases h1 : d = 1
  · rw [detectorOf, if_neg h0, if_pos h1] at h; exact .inr (.inl ⟨h1, (Option.some.inj h).symm⟩)
  by_cases h2 : d = 2
  · rw [detectorOf, if_neg h0, if_neg h1, if_pos h2] at h; exact .inr (.inr ⟨h2, (Option.some.inj h).symm⟩)
  · rw [detectorOf, if_neg h0, if_neg h1, if_neg h2] at h; cases h

/-- What the common decision answers (R192 to R194). -/
theorem decideClass_cases (m ks : List F32) (floor : F32) (accept : Nat → Bool) :
    (¬((∀ x ∈ m, x.isFinite = true) ∧ ∀ x ∈ ks, x.isFinite = true) ∧ decideClass m ks floor accept = none)
      ∨ (((∀ x ∈ m, x.isFinite = true) ∧ ∀ x ∈ ks, x.isFinite = true)
        ∧ decideClass m ks floor accept = some (if F32.lt (keyMagAt ks (bestKey ks)) floor then 0
          else if accept (bestKey ks) then BitVec.ofNat 4 (bestKey ks) else 0)) := by
  have hall : (allFinite m && allFinite ks) = true ↔ (∀ x ∈ m, x.isFinite = true) ∧ ∀ x ∈ ks, x.isFinite = true := by
    simp [allFinite]
  by_cases h : (allFinite m && allFinite ks) = true
  · exact .inr ⟨hall.mp h, by rw [decideClass, if_pos h]⟩
  · exact .inl ⟨fun hc => h (hall.mpr hc), by rw [decideClass, if_neg h]⟩

/-- Maximum selection answers a key. -/
theorem bestKey_range (ks : List F32) : 1 ≤ bestKey ks ∧ bestKey ks ≤ 12 := by
  suffices h : ∀ (l : List Nat) (b : Nat), (∀ k ∈ l, 1 ≤ k ∧ k ≤ 12) → 1 ≤ b ∧ b ≤ 12 →
      1 ≤ l.foldl (fun best k => if F32.lt (keyMagAt ks best) (keyMagAt ks k) then k else best) b
        ∧ l.foldl (fun best k => if F32.lt (keyMagAt ks best) (keyMagAt ks k) then k else best) b ≤ 12 from
    h _ _ (by decide) (by decide)
  intro l
  induction l with
  | nil => intro b _ hb; exact hb
  | cons k rest ih =>
    intro b hl hb
    refine ih _ (fun x hx => hl x (List.mem_cons_of_mem _ hx)) ?_
    beta_reduce
    split
    · exact hl k (List.mem_cons_self ..)
    · exact hb

end Sys2Proof.Machine
end

