-- ==== Sys2Proof/Laws/PerInstr.lean ====
section
/-! SUPPORT. Laws of each instruction as syntax, one lemma per constructor. -/

namespace Sys2Proof.Laws.RoundTrip

/-- Decoding the encoding of a well-formed instruction gives the instruction back. -/
def Statement (i : Instr) : Prop := i.wellFormed = true → decode (encode i) = .instr i

/-- A transaction that reaches its row round-trips. -/
theorem of_row {we : Bool} {addr : BitVec 24} {size : Size} {wdata : Word} {i : Instr}
    (he : encode i = busRaw we addr size wdata) (hd : decodeTransaction we addr size wdata = i) : Statement i :=
  fun _ => by rw [he, decode_busRaw, hd]

/-- A transaction to a reserved offset reaches BUS_RESERVED. -/
theorem reserved_row {we : Bool} {addr : BitVec 24} {wdata : Word} (ha : aligned addr = true)
    (hr : reservedOffset addr = true) (hw : noReadData we wdata = true) :
    decodeTransaction we addr .word wdata = .busReserved we addr wdata := by
  obtain ⟨h1, h2⟩ := reserved_regions hr
  have h0 := (aligned_iff addr).mp ha
  have hd : (if we = true then wdata else 0) = wdata := by
    cases we <;> simp_all [noReadData]
  have hc : ¬((Size.word : Size) ≠ .word ∨ addr.extractLsb' 0 2 ≠ 0) := by simp only [h0]; decide
  simp only [decodeTransaction, if_neg hc, decodeLegal, if_neg h1, if_neg h2, regAt_reserved hr, hd]

/-- A misaligned transaction, or one that is not 4 bytes, reaches BUS_ILLEGAL. -/
theorem illegal_row {we : Bool} {addr : BitVec 24} {size : Size} {wdata : Word}
    (h : (size != .word || !aligned addr) = true) (hw : noReadData we wdata = true) :
    decodeTransaction we addr size wdata = .busIllegal we addr size wdata := by
  have hc : size ≠ .word ∨ addr.extractLsb' 0 2 ≠ 0 := by
    rcases Bool.or_eq_true .. ▸ h with h | h
    · exact .inl (by simpa using h)
    · exact .inr fun h0 => by simp [(aligned_iff addr).mpr h0] at h
  have hd : (if we = true then wdata else 0) = wdata := by
    cases we <;> simp_all [noReadData]
  simp only [decodeTransaction, if_pos hc, hd]

theorem busIllegal (we : Bool) (addr : BitVec 24) (size : Size) (wdata : Word) :
    Statement (.busIllegal we addr size wdata) := fun h => by
  obtain ⟨h1, h2⟩ := Bool.and_eq_true .. ▸ h
  exact of_row rfl (illegal_row h1 h2) h

theorem busReserved (we : Bool) (addr : BitVec 24) (wdata : Word) : Statement (.busReserved we addr wdata) := fun h => by
  obtain ⟨h12, h3⟩ := Bool.and_eq_true .. ▸ h
  obtain ⟨h1, h2⟩ := Bool.and_eq_true .. ▸ h12
  exact of_row rfl (reserved_row h1 h2 h3) h

theorem rdSample (n : BitVec 20) : Statement (.rdSample n) := of_row rfl (by simp [decodeTransaction, decodeLegal])

theorem wrSample (n : BitVec 20) (wdata : Word) : Statement (.wrSample n wdata) :=
  of_row rfl (by simp [decodeTransaction, decodeLegal])

theorem rdOut (i : BitVec 10) : Statement (.rdOut i) := of_row rfl (by simp [decodeTransaction, decodeLegal])

theorem wrOut (i : BitVec 10) (wdata : Word) : Statement (.wrOut i wdata) :=
  of_row rfl (by simp [decodeTransaction, decodeLegal])

theorem rdId : Statement .rdId := of_row rfl rfl

theorem wrId (wdata : Word) : Statement (.wrId wdata) := of_row rfl rfl

theorem rdCaps : Statement .rdCaps := of_row rfl rfl

theorem wrCaps (wdata : Word) : Statement (.wrCaps wdata) := of_row rfl rfl

theorem rdWinCfg : Statement .rdWinCfg := of_row rfl rfl

theorem wrWinCfg (wdata : Word) : Statement (.wrWinCfg wdata) := of_row rfl rfl

theorem rdBufLen : Statement .rdBufLen := of_row rfl rfl

theorem wrBufLen (wdata : Word) : Statement (.wrBufLen wdata) := of_row rfl rfl

theorem rdOutLen : Statement .rdOutLen := of_row rfl rfl

theorem wrOutLen (wdata : Word) : Statement (.wrOutLen wdata) := of_row rfl rfl

theorem rdCtrl : Statement .rdCtrl := of_row rfl rfl

theorem wrCtrl (wdata : Word) : Statement (.wrCtrl wdata) := of_row rfl rfl

theorem rdStatus : Statement .rdStatus := of_row rfl rfl

theorem wrStatus (wdata : Word) : Statement (.wrStatus wdata) := of_row rfl rfl

theorem rdSampleCount : Statement .rdSampleCount := of_row rfl rfl

theorem wrSampleCount (wdata : Word) : Statement (.wrSampleCount wdata) := of_row rfl rfl

theorem rdOutCount : Statement .rdOutCount := of_row rfl rfl

theorem wrOutCount (wdata : Word) : Statement (.wrOutCount wdata) := of_row rfl rfl

theorem rdWinCount : Statement .rdWinCount := of_row rfl rfl

theorem wrWinCount (wdata : Word) : Statement (.wrWinCount wdata) := of_row rfl rfl

theorem rdErrInfo : Statement .rdErrInfo := of_row rfl rfl

theorem wrErrInfo (wdata : Word) : Statement (.wrErrInfo wdata) := of_row rfl rfl

theorem rdFsmCfg : Statement .rdFsmCfg := of_row rfl rfl

theorem wrFsmCfg (wdata : Word) : Statement (.wrFsmCfg wdata) := of_row rfl rfl

theorem rdPlaceholder : Statement .rdPlaceholder := of_row rfl rfl

theorem wrPlaceholder (wdata : Word) : Statement (.wrPlaceholder wdata) := of_row rfl rfl

theorem rdGateFactor : Statement .rdGateFactor := of_row rfl rfl

theorem wrGateFactor (wdata : Word) : Statement (.wrGateFactor wdata) := of_row rfl rfl

theorem rdNormEps : Statement .rdNormEps := of_row rfl rfl

theorem wrNormEps (wdata : Word) : Statement (.wrNormEps wdata) := of_row rfl rfl

theorem rdNoiseFloor : Statement .rdNoiseFloor := of_row rfl rfl

theorem wrNoiseFloor (wdata : Word) : Statement (.wrNoiseFloor wdata) := of_row rfl rfl

theorem rdToneFloor : Statement .rdToneFloor := of_row rfl rfl

theorem wrToneFloor (wdata : Word) : Statement (.wrToneFloor wdata) := of_row rfl rfl

theorem rdRatioThr : Statement .rdRatioThr := of_row rfl rfl

theorem wrRatioThr (wdata : Word) : Statement (.wrRatioThr wdata) := of_row rfl rfl

theorem rdEmphCoef : Statement .rdEmphCoef := of_row rfl rfl

theorem wrEmphCoef (wdata : Word) : Statement (.wrEmphCoef wdata) := of_row rfl rfl

theorem rdBpB0 : Statement .rdBpB0 := of_row rfl rfl

theorem wrBpB0 (wdata : Word) : Statement (.wrBpB0 wdata) := of_row rfl rfl

theorem rdBpB1 : Statement .rdBpB1 := of_row rfl rfl

theorem wrBpB1 (wdata : Word) : Statement (.wrBpB1 wdata) := of_row rfl rfl

theorem rdBpB2 : Statement .rdBpB2 := of_row rfl rfl

theorem wrBpB2 (wdata : Word) : Statement (.wrBpB2 wdata) := of_row rfl rfl

theorem rdBpB3 : Statement .rdBpB3 := of_row rfl rfl

theorem wrBpB3 (wdata : Word) : Statement (.wrBpB3 wdata) := of_row rfl rfl

theorem rdBpB4 : Statement .rdBpB4 := of_row rfl rfl

theorem wrBpB4 (wdata : Word) : Statement (.wrBpB4 wdata) := of_row rfl rfl

theorem rdBpA1 : Statement .rdBpA1 := of_row rfl rfl

theorem wrBpA1 (wdata : Word) : Statement (.wrBpA1 wdata) := of_row rfl rfl

theorem rdBpA2 : Statement .rdBpA2 := of_row rfl rfl

theorem wrBpA2 (wdata : Word) : Statement (.wrBpA2 wdata) := of_row rfl rfl

theorem rdBpA3 : Statement .rdBpA3 := of_row rfl rfl

theorem wrBpA3 (wdata : Word) : Statement (.wrBpA3 wdata) := of_row rfl rfl

theorem rdBpA4 : Statement .rdBpA4 := of_row rfl rfl

theorem wrBpA4 (wdata : Word) : Statement (.wrBpA4 wdata) := of_row rfl rfl

theorem fsmStepSilence : Statement .fsmStepSilence := fun _ => rfl

theorem fsmStepKey1 : Statement .fsmStepKey1 := fun _ => rfl

theorem fsmStepKey2 : Statement .fsmStepKey2 := fun _ => rfl

theorem fsmStepKey3 : Statement .fsmStepKey3 := fun _ => rfl

theorem fsmStepKey4 : Statement .fsmStepKey4 := fun _ => rfl

theorem fsmStepKey5 : Statement .fsmStepKey5 := fun _ => rfl

theorem fsmStepKey6 : Statement .fsmStepKey6 := fun _ => rfl

theorem fsmStepKey7 : Statement .fsmStepKey7 := fun _ => rfl

theorem fsmStepKey8 : Statement .fsmStepKey8 := fun _ => rfl

theorem fsmStepKey9 : Statement .fsmStepKey9 := fun _ => rfl

theorem fsmStepKey10 : Statement .fsmStepKey10 := fun _ => rfl

theorem fsmStepKey11 : Statement .fsmStepKey11 := fun _ => rfl

theorem fsmStepKey12 : Statement .fsmStepKey12 := fun _ => rfl

theorem clsReserved13 : Statement .clsReserved13 := fun _ => rfl

theorem clsReserved1415 (low : Bool) : Statement (.clsReserved1415 low) := by cases low <;> exact fun _ => rfl

theorem seqStatsStep : Statement .seqStatsStep := fun _ => rfl

theorem seqStatsEnd : Statement .seqStatsEnd := fun _ => rfl

theorem seqVarStep : Statement .seqVarStep := fun _ => rfl

theorem seqVarEnd : Statement .seqVarEnd := fun _ => rfl

theorem seqGateStep : Statement .seqGateStep := fun _ => rfl

theorem seqGateEnd : Statement .seqGateEnd := fun _ => rfl

theorem seqFilterStep : Statement .seqFilterStep := fun _ => rfl

theorem seqFilterEnd : Statement .seqFilterEnd := fun _ => rfl

theorem seqDetectStep : Statement .seqDetectStep := fun _ => rfl

theorem seqDetectEnd : Statement .seqDetectEnd := fun _ => rfl

theorem seqFlush : Statement .seqFlush := fun _ => rfl

theorem detClassifyGoertzel : Statement .detClassifyGoertzel := fun _ => rfl

theorem detClassifyGoertzelStrict : Statement .detClassifyGoertzelStrict := fun _ => rfl

theorem detClassifySpectral : Statement .detClassifySpectral := fun _ => rfl

theorem detReserved : Statement .detReserved := fun _ => rfl

end Sys2Proof.Laws.RoundTrip
end

