-- ==== Sys2Proof/Laws/Rom.lean ====
section
/-! SUPPORT. Rounding stays close to its quotient, and every entry of the read-only tables is finite (R175, R176, R185, R187);
so an arithmetic operation with a zero sample stays a zero. -/

namespace Sys2Proof

/-- A rounded quotient is at most one above the quotient rounded down. -/
theorem roundHalfEven_le (num den : Nat) : roundHalfEven num den ≤ num / den + 1 := by
  unfold roundHalfEven
  dsimp only
  split <;> omega

/-- Rounding to 24 significant bits at most doubles the quotient. -/
theorem roundMag_le (num den : Nat) : roundMag num den ≤ 2 * (num / den) + 1 := by
  have h := roundHalfEven_le num (den * 2 ^ quantumBits num den)
  rw [← Nat.div_div_eq_div_mul] at h
  have hq : 2 ^ quantumBits num den ≤ num / den + 1 := by
    unfold quantumBits
    by_cases h0 : num / den = 0
    · simp [h0]
    · have := Nat.log2_self_le h0
      have : 2 ^ (Nat.log2 (num / den) - 23) ≤ 2 ^ Nat.log2 (num / den) := Nat.pow_le_pow_right (by omega) (by omega)
      omega
  have hd := Nat.div_mul_le_self (num / den) (2 ^ quantumBits num den)
  calc roundMag num den ≤ (num / den / 2 ^ quantumBits num den + 1) * 2 ^ quantumBits num den := Nat.mul_le_mul_right _ h
    _ ≤ 2 * (num / den) + 1 := by rw [Nat.add_mul]; omega

/-- A quotient well inside the range is rounded to a finite datum. -/
theorem roundF32_isFinite (neg : Bool) (num den : Nat) (h : num / den < 2 ^ 250) : (roundF32 neg num den).isFinite = true := by
  have := roundMag_le num den
  simp only [roundF32]
  split
  · rename_i ho
    have : 2 * 2 ^ 250 < overflowMag := by decide +kernel
    generalize 2 ^ 250 = b at *
    omega
  · rfl

/-- A zero numerator is rounded to a zero. -/
@[simp] theorem roundF32_zero (neg : Bool) (den : Nat) : roundF32 neg 0 den = .fin neg 0 := by
  have : ¬overflowMag ≤ 0 := Nat.not_le.2 (Nat.two_pow_pos 277)
  simp [roundF32, roundMag, roundHalfEven, this]

namespace Rom

theorem cosSeries_le (x2 k i : Nat) : cosSeries x2 k i ≤ one := by
  cases k <;> simp [cosSeries]

theorem sinSeries_le (x2 k i : Nat) : sinSeries x2 k i ≤ one := by
  cases k <;> simp [sinSeries]

theorem sinEighth_le (num den : Nat) (h : num ≤ den) : sinEighth num den ≤ twoPi := by
  have hx : twoPi * num / den ≤ twoPi := Nat.div_le_of_le_mul (by rw [Nat.mul_comm den]; exact Nat.mul_le_mul_left _ h)
  refine le_trans ?_ hx
  exact Nat.div_le_of_le_mul (by rw [Nat.mul_comm one]; exact Nat.mul_le_mul_left _ (sinSeries_le ..))

theorem cosQuarter_le (num den : Nat) : cosQuarter num den ≤ twoPi := by
  unfold cosQuarter
  split
  · exact le_trans (cosSeries_le ..) (by decide)
  · exact sinEighth_le _ _ (by omega)

/-- A cosine of the tables is bounded. -/
theorem cosTurn_natAbs_le (num den : Nat) : (cosTurn num den).natAbs ≤ twoPi := by
  have key (h : Nat) : (if 4 * h ≤ den then (cosQuarter h den : Int)
      else -(cosQuarter (den - 2 * h) (2 * den) : Int)).natAbs ≤ twoPi := by
    have h1 := cosQuarter_le h den
    have h2 := cosQuarter_le (den - 2 * h) (2 * den)
    split <;> omega
  exact key _

/-- A table entry of moderate size is finite. -/
theorem nearest_isFinite (v : Int) (scale : Nat) (h : v.natAbs ≤ 1000 * one) : (nearest v scale).isFinite = true := by
  apply roundF32_isFinite
  refine lt_of_le_of_lt (Nat.div_le_self _ _) (lt_of_le_of_lt (Nat.mul_le_mul_right _ h) (by decide))

theorem hamming_isFinite (n : Nat) : (hamming n).isFinite = true := by
  have h := cosTurn_natAbs_le n (Config.windowLength - 1)
  apply nearest_isFinite
  generalize cosTurn n (Config.windowLength - 1) = c at h ⊢
  simp only [one, twoPi] at *
  omega

theorem hann_isFinite (n : Nat) : (hann n).isFinite = true := by
  have h := cosTurn_natAbs_le n (Config.windowLength - 1)
  apply nearest_isFinite
  generalize cosTurn n (Config.windowLength - 1) = c at h ⊢
  simp only [one, twoPi] at *
  omega

theorem gcoef_isFinite (f : Nat) : (gcoef f).isFinite = true := by
  have h := cosTurn_natAbs_le f Config.sampleRate
  apply nearest_isFinite
  generalize cosTurn f Config.sampleRate = c at h ⊢
  simp only [one, twoPi] at *
  omega

theorem cosT_isFinite (i : Nat) : (cosT i).isFinite = true :=
  nearest_isFinite _ _ (le_trans (cosTurn_natAbs_le ..) (by decide))

theorem sinT_isFinite (i : Nat) : (sinT i).isFinite = true :=
  nearest_isFinite _ _ (le_trans (cosTurn_natAbs_le ..) (by decide))

end Rom

/-- A finite datum is a sign and a magnitude. -/
theorem F32.isFinite_iff (x : F32) : x.isFinite = true ↔ ∃ s m, x = .fin s m := by
  cases x <;> simp [F32.isFinite]

/-- A zero times a finite datum is a zero. -/
theorem F32.zero_mul (s : Bool) (x : F32) (h : x.isFinite = true) : ∃ t, F32.mul (.fin s 0) x = .fin t 0 := by
  obtain ⟨t, m, rfl⟩ := (F32.isFinite_iff x).1 h
  simp [F32.mul]

/-- A finite datum times a zero is a zero. -/
theorem F32.mul_zero (s : Bool) (x : F32) (h : x.isFinite = true) : ∃ t, F32.mul x (.fin s 0) = .fin t 0 := by
  obtain ⟨t, m, rfl⟩ := (F32.isFinite_iff x).1 h
  simp [F32.mul]

/-- A zero plus a zero is a zero, `+0.0` if the first is. -/
theorem F32.zero_add (s t : Bool) : F32.add (.fin s 0) (.fin t 0) = .fin (s && t) 0 := by
  cases s <;> cases t <;> simp [F32.add, signedMag]

/-- A NaN operand makes a NaN. -/
theorem F32.add_nan (x : F32) : F32.add x .nan = .nan := by cases x <;> rfl

end Sys2Proof
end

