-- ==== Sys2Proof/Laws/Rounding.lean ====
section
/-! SUPPORT. What one rounding can do (R21): the rounded magnitude lies on the grid of its binade, within half a grid step of the
quotient; so `roundF32` answers the binary32 number nearest to it, ties to even. -/

namespace Sys2Proof

/-- A rounded quotient is within a half, and even at a tie. -/
theorem roundHalfEven_spec {num den : Nat} (hd : 0 < den) :
    2 * roundHalfEven num den * den ≤ 2 * num + den ∧ 2 * num ≤ 2 * roundHalfEven num den * den + den
    ∧ (2 * roundHalfEven num den * den = 2 * num + den ∨ 2 * num = 2 * roundHalfEven num den * den + den →
      roundHalfEven num den % 2 = 0) := by
  have h := Nat.div_add_mod num den
  have hr := Nat.mod_lt num hd
  unfold roundHalfEven
  dsimp only
  generalize num / den = m at *
  generalize num % den = r at *
  have e1 : 2 * m * den = 2 * (den * m) := by ring
  have e2 : 2 * (m + 1) * den = 2 * (den * m) + 2 * den := by ring
  split
  · rw [e2]
    refine ⟨by omega, by omega, fun ht => ?_⟩
    omega
  · rw [e1]
    refine ⟨by omega, by omega, fun ht => ?_⟩
    omega

/-- The size of a quotient against its grid: below 2^24 grid steps, and from 2^23 on where the grid is coarser than 1. -/
theorem quantumBits_spec {num den : Nat} (hd : 0 < den) :
    num < 2 ^ 24 * (den * 2 ^ quantumBits num den)
    ∧ (quantumBits num den ≠ 0 → 2 ^ 23 * (den * 2 ^ quantumBits num den) ≤ num) := by
  unfold quantumBits
  set g := num / den with hg
  have h1 : num < (g + 1) * den := Nat.lt_mul_of_div_lt (Nat.lt_succ_self _) hd
  have h2 : g * den ≤ num := Nat.div_mul_le_self num den
  have h3 : g < 2 ^ (Nat.log2 g + 1) := Nat.lt_log2_self
  constructor
  · have h4 : 2 ^ (Nat.log2 g + 1) ≤ 2 ^ 24 * 2 ^ (Nat.log2 g - 23) := by
      rw [← Nat.pow_add]
      exact Nat.pow_le_pow_right (by omega) (by omega)
    calc num < (g + 1) * den := h1
      _ ≤ 2 ^ 24 * 2 ^ (Nat.log2 g - 23) * den := Nat.mul_le_mul_right _ (by omega)
      _ = _ := by ring
  · intro h0
    have hg0 : g ≠ 0 := by rintro h; simp [h] at h0
    have h4 := Nat.log2_self_le hg0
    have h5 : 2 ^ 23 * 2 ^ (Nat.log2 g - 23) = 2 ^ Nat.log2 g := by
      rw [← Nat.pow_add]
      congr 1
      omega
    calc 2 ^ 23 * (den * 2 ^ (Nat.log2 g - 23)) = 2 ^ 23 * 2 ^ (Nat.log2 g - 23) * den := by ring
      _ ≤ g * den := Nat.mul_le_mul_right _ (by omega)
      _ ≤ num := h2

/-- A representable magnitude lies on the grid of every binade it reaches. -/
theorem representable_grid {r q : Nat} (h : (F32.fin false r).representable = true) (hr : 2 ^ (23 + q) ≤ r) :
    2 ^ q ∣ r := by
  simp only [F32.representable, Bool.and_eq_true, beq_iff_eq] at h
  have h0 : r ≠ 0 := by have := Nat.two_pow_pos (23 + q); omega
  have h1 : 23 + q ≤ Nat.log2 r := (Nat.le_log2 h0).2 hr
  exact (Nat.pow_dvd_pow 2 (by omega)).trans (Nat.dvd_of_mod_eq_zero h.2)

/-- What a rounded magnitude is: `m` steps of its grid, `m` at most 2^24, and at least 2^23 where the grid is coarser
than 1; within half a step of the quotient; `m` even at a tie. -/
theorem roundMag_spec {num den : Nat} (hd : 0 < den) :
    ∃ m q : Nat, q = quantumBits num den ∧ roundMag num den = m * 2 ^ q ∧ m ≤ 2 ^ 24 ∧ (q ≠ 0 → 2 ^ 23 ≤ m)
      ∧ num < 2 ^ 24 * (den * 2 ^ q) ∧ (q ≠ 0 → 2 ^ 23 * (den * 2 ^ q) ≤ num)
      ∧ 2 * m * (den * 2 ^ q) ≤ 2 * num + den * 2 ^ q ∧ 2 * num ≤ 2 * m * (den * 2 ^ q) + den * 2 ^ q
      ∧ (2 * m * (den * 2 ^ q) = 2 * num + den * 2 ^ q ∨ 2 * num = 2 * m * (den * 2 ^ q) + den * 2 ^ q → m % 2 = 0) := by
  obtain ⟨h1, h2⟩ := quantumBits_spec (num := num) hd
  have hD : 0 < den * 2 ^ quantumBits num den := Nat.mul_pos hd (Nat.two_pow_pos _)
  obtain ⟨h3, h4, h5⟩ := roundHalfEven_spec (num := num) hD
  refine ⟨roundHalfEven num (den * 2 ^ quantumBits num den), _, rfl, rfl, ?_, ?_, h1, h2, h3, h4, h5⟩
  · by_contra hc
    have : 2 * (2 ^ 24 + 1) * (den * 2 ^ quantumBits num den) ≤ 2 * num + den * 2 ^ quantumBits num den :=
      (Nat.mul_le_mul_right _ (by omega)).trans h3
    generalize den * 2 ^ quantumBits num den = D at *
    omega
  · intro hq
    have h2 := h2 hq
    by_contra hc
    have : 2 * num ≤ 2 * (2 ^ 23 - 1) * (den * 2 ^ quantumBits num den) + den * 2 ^ quantumBits num den :=
      h4.trans (Nat.add_le_add_right (Nat.mul_le_mul_right _ (by omega)) _)
    generalize den * 2 ^ quantumBits num den = D at *
    omega

/-- The magnitudes from which rounding overflows: the midpoint past the largest finite one. -/
theorem overflow_iff {num den : Nat} (hd : 0 < den) :
    overflowMag ≤ roundMag num den ↔ (2 ^ 25 - 1) * 2 ^ 252 * den ≤ num := by
  obtain ⟨m, q, -, hm, h24, h23, hlt, hge, hu, hl, ht⟩ := roundMag_spec (num := num) hd
  have e1 : overflowMag = 2 ^ 25 * 2 ^ 252 := Nat.pow_add 2 25 252
  rw [hm, e1]
  have hpow (k : Nat) : 2 ^ (252 + k) = 2 ^ 252 * 2 ^ k := Nat.pow_add 2 252 k
  have hmono (k : Nat) (h : q ≤ k) : 2 ^ q ≤ 2 ^ k := Nat.pow_le_pow_right (by omega) h
  have hmono' (k : Nat) (h : k ≤ q) : 2 ^ k ≤ 2 ^ q := Nat.pow_le_pow_right (by omega) h
  have hB : 0 < 2 ^ 252 := Nat.two_pow_pos 252
  have hT : (2 ^ 25 - 1) * 2 ^ 252 * den = (2 ^ 25 - 1) * (den * 2 ^ 252) := by
    rw [Nat.mul_assoc, Nat.mul_comm den]
  rw [hT]
  have split3 : q ≤ 252 ∨ q = 252 + 1 ∨ 252 + 2 ≤ q := by omega
  rcases split3 with hq | rfl | hq
  · have hmono := hmono 252 hq
    have a1 : m * 2 ^ q ≤ 2 ^ 24 * 2 ^ 252 := Nat.mul_le_mul h24 hmono
    have a2 : den * 2 ^ q ≤ den * 2 ^ 252 := Nat.mul_le_mul_left _ hmono
    generalize 2 ^ 252 = B at *
    generalize den * 2 ^ q = D at *
    generalize den * B = E at *
    constructor <;> intro h <;> omega
  · rw [hpow 1] at hlt hge hu hl ht ⊢
    generalize 2 ^ 252 = B at *
    have a1 : m * (B * 2 ^ 1) = 2 * m * B := by ring
    have a2 : den * (B * 2 ^ 1) = 2 * (den * B) := by ring
    have a3 : 2 ^ 25 * B ≤ 2 * m * B ↔ 2 ^ 24 ≤ m := by
      rw [Nat.mul_le_mul_right_iff hB]
      omega
    have hE : 0 < den * B := Nat.mul_pos hd hB
    rw [a1, a3]
    rw [a2] at hlt hge hu hl ht
    generalize den * B = E at *
    constructor <;> intro h
    · have hm24 : m = 2 ^ 24 := by omega
      subst hm24
      omega
    · by_contra hc
      have hmm : m = 2 ^ 24 - 1 ∨ m ≤ 2 ^ 24 - 2 := by omega
      rcases hmm with rfl | hm2
      · have := ht (.inr (by omega))
        omega
      · have hm3 : 2 * m * (2 * E) ≤ 2 * (2 ^ 24 - 2) * (2 * E) := Nat.mul_le_mul_right _ (by omega)
        omega
  · have hmono := hmono' _ hq
    have hge := hge (by omega)
    rw [hpow 2] at hmono
    have a1 : 2 ^ 23 * (2 ^ 252 * 2 ^ 2) ≤ m * 2 ^ q := Nat.mul_le_mul (h23 (by omega)) hmono
    have a2 : den * (2 ^ 252 * 2 ^ 2) ≤ den * 2 ^ q := Nat.mul_le_mul_left _ hmono
    generalize 2 ^ 252 = B at *
    have a3 : den * (B * 2 ^ 2) = 4 * (den * B) := by ring
    rw [a3] at a2
    generalize den * 2 ^ q = D at *
    generalize den * B = E at *
    constructor <;> intro h <;> omega

/-- A rounded magnitude below the overflow is representable, and no representable magnitude lies nearer to the quotient;
where another lies as near, the rounded one is an even number of steps of the grid, and an even significand. -/
theorem roundMag_nearest {num den : Nat} (hd : 0 < den) (ho : roundMag num den < overflowMag) :
    (F32.fin false (roundMag num den)).representable = true
    ∧ ∀ r, (F32.fin false r).representable = true →
      ((roundMag num den * den : Nat) - (num : Nat) : Int).natAbs ≤ ((r * den : Nat) - (num : Nat) : Int).natAbs
      ∧ (r ≠ roundMag num den →
        ((roundMag num den * den : Nat) - (num : Nat) : Int).natAbs = ((r * den : Nat) - (num : Nat) : Int).natAbs →
        roundMag num den / 2 ^ quantumBits num den % 2 = 0
          ∧ roundMag num den / 2 ^ (Nat.log2 (roundMag num den) - 23) % 2 = 0) := by
  obtain ⟨m, q, hqe, hm, h24, h23, hlt, hge, hu, hl, ht⟩ := roundMag_spec (num := num) hd
  rw [← hqe]
  -- the significand in the result's own binade
  have hlog : m < 2 ^ 24 → Nat.log2 (m * 2 ^ q) - 23 = q := by
    intro hm24
    by_cases hq : q = 0
    · subst hq
      rw [Nat.pow_zero, Nat.mul_one]
      have : m < 2 ^ (23 + 1) := hm24
      by_cases h0 : m = 0
      · simp [h0]
      · have := (Nat.log2_lt h0).2 this
        omega
    · have hm0 := h23 hq
      have hp := Nat.two_pow_pos q
      have h0 : m * 2 ^ q ≠ 0 := by
        have : 0 < m * 2 ^ q := Nat.mul_pos (by omega) hp
        omega
      have b1 : 23 + q ≤ Nat.log2 (m * 2 ^ q) := by
        rw [Nat.le_log2 h0, Nat.pow_add]
        exact Nat.mul_le_mul_right _ hm0
      have b2 : Nat.log2 (m * 2 ^ q) < 24 + q := by
        rw [Nat.log2_lt h0, Nat.pow_add]
        exact Nat.mul_lt_mul_of_pos_right hm24 hp
      omega
  have hlog' : m = 2 ^ 24 → Nat.log2 (m * 2 ^ q) - 23 = q + 1 := by
    rintro rfl
    rw [← Nat.pow_add, Nat.log2_two_pow]
    omega
  have hrep : m * 2 ^ q % 2 ^ (Nat.log2 (m * 2 ^ q) - 23) = 0 := by
    rcases Nat.lt_or_ge m (2 ^ 24) with h | h
    · rw [hlog h]
      exact Nat.mul_mod_left _ _
    · have : m = 2 ^ 24 := by omega
      rw [hlog' this, this, ← Nat.pow_add]
      exact Nat.mod_eq_zero_of_dvd (Nat.pow_dvd_pow 2 (by omega))
  have heven : m % 2 = 0 → m * 2 ^ q / 2 ^ q % 2 = 0 ∧ m * 2 ^ q / 2 ^ (Nat.log2 (m * 2 ^ q) - 23) % 2 = 0 := by
    intro he
    have b : m * 2 ^ q / 2 ^ q = m := Nat.mul_div_cancel _ (Nat.two_pow_pos q)
    refine ⟨by rw [b, he], ?_⟩
    rcases Nat.lt_or_ge m (2 ^ 24) with h | h
    · rw [hlog h, b, he]
    · have h : m = 2 ^ 24 := by omega
      rw [hlog' h, h, ← Nat.pow_add, Nat.pow_div (by omega) (by omega)]
      have : 24 + q - (q + 1) = 22 + 1 := by omega
      rw [this, Nat.pow_succ, Nat.mul_mod_left]
  rw [hm] at ho ⊢
  refine ⟨by simp only [F32.representable, Bool.and_eq_true, beq_iff_eq, decide_eq_true_eq]; exact ⟨ho, hrep⟩, ?_⟩
  intro r hr
  have hD : 0 < den * 2 ^ q := Nat.mul_pos hd (Nat.two_pow_pos q)
  have e : m * 2 ^ q * den = m * (den * 2 ^ q) := by ring
  have e2 : 2 * m * (den * 2 ^ q) = 2 * (m * (den * 2 ^ q)) := by ring
  rw [e]
  rw [e2] at hu hl ht
  by_cases hgrid : 2 ^ q ∣ r
  · obtain ⟨k, rfl⟩ := hgrid
    have ek : 2 ^ q * k * den = k * (den * 2 ^ q) := by ring
    rw [ek]
    by_cases hk : k = m
    · subst hk
      exact ⟨le_rfl, fun h => absurd (Nat.mul_comm _ _) h⟩
    · have far : (k + 1) * (den * 2 ^ q) ≤ m * (den * 2 ^ q) ∨ (m + 1) * (den * 2 ^ q) ≤ k * (den * 2 ^ q) := by
        rcases Nat.lt_or_ge k m with h | h
        · exact .inl (Nat.mul_le_mul_right _ h)
        · exact .inr (Nat.mul_le_mul_right _ (by omega))
      rw [Nat.add_mul, Nat.add_mul] at far
      generalize den * 2 ^ q = D at *
      generalize m * D = X at *
      generalize k * D = Y at *
      refine ⟨by omega, fun _ hxy => heven (ht ?_)⟩
      omega
  · have hr2 : r < 2 ^ (23 + q) := by
      by_contra hc
      exact hgrid (representable_grid hr (by omega))
    have hq : q ≠ 0 := by rintro rfl; simp at hgrid
    have hge := hge hq
    have c1 : (r + 1) * den ≤ 2 ^ 23 * (den * 2 ^ q) := by
      have : 2 ^ 23 * (den * 2 ^ q) = 2 ^ (23 + q) * den := by rw [Nat.pow_add]; ring
      rw [this]
      exact Nat.mul_le_mul_right _ hr2
    have c2 : 2 ^ 23 * (den * 2 ^ q) ≤ m * (den * 2 ^ q) := Nat.mul_le_mul_right _ (h23 hq)
    have c3 : m = 2 ^ 23 ∨ (2 ^ 23 + 1) * (den * 2 ^ q) ≤ m * (den * 2 ^ q) := by
      rcases Nat.eq_or_lt_of_le (h23 hq) with h | h
      · exact .inl h.symm
      · exact .inr (Nat.mul_le_mul_right _ h)
    rw [Nat.add_mul] at c1
    have strict : ((m * (den * 2 ^ q) : Nat) - (num : Nat) : Int).natAbs < ((r * den : Nat) - (num : Nat) : Int).natAbs := by
      rcases c3 with rfl | c3
      · generalize den * 2 ^ q = D at *
        generalize r * den = Y at *
        omega
      · rw [Nat.add_mul] at c3
        generalize den * 2 ^ q = D at *
        generalize m * D = X at *
        generalize r * den = Y at *
        omega
    exact ⟨strict.le, fun _ h => absurd h strict.ne⟩

/-- The distances of a grid point and a quotient, as real numbers and as integers. -/
theorem abs_sub_quotient {num den mag : Nat} {x : ℝ} (hd : 0 < den) (hx : x * den = num) :
    |(mag : ℝ) - x| * den = (((mag * den : Nat) - (num : Nat) : Int).natAbs : ℝ) := by
  have hd' : (0 : ℝ) < den := by exact_mod_cast hd
  have e : ((((mag * den : Nat) - (num : Nat) : Int).natAbs : ℕ) : ℝ) = |(((mag * den : Nat) - (num : Nat) : Int) : ℝ)| := by
    rw [← Int.cast_abs, Int.abs_eq_natAbs]
    rfl
  rw [e, show |(mag : ℝ) - x| * den = |((mag : ℝ) - x) * den| by rw [abs_mul, abs_of_pos hd'], sub_mul, hx]
  push_cast
  rfl

/-- `roundF32` is the rounding of R21: of a real number with the quotient `num / den` as its magnitude. -/
theorem roundF32_roundsTo {neg : Bool} {num den : Nat} {x : ℝ} (hd : 0 < den) (hx : |x| * 2 ^ 149 * den = num)
    (hn : x < 0 → neg = true) (hp : 0 < x → neg = false) : RoundsTo x (roundF32 neg num den) := by
  have hd' : (0 : ℝ) < den := by exact_mod_cast hd
  have hov : overflowMag ≤ roundMag num den ↔ 2 ^ 128 - 2 ^ 103 ≤ |x| := by
    rw [overflow_iff hd, ← Nat.cast_le (α := ℝ), ← hx]
    have e : (((2 ^ 25 - 1) * 2 ^ 252 * den : Nat) : ℝ) = (2 ^ 128 - 2 ^ 103) * 2 ^ 149 * den := by
      rw [Nat.cast_mul, Nat.cast_mul, Nat.cast_pow]
      congr 1
      have : ((2 : ℝ) ^ 128 - 2 ^ 103) * 2 ^ 149 = (2 ^ 25 - 1) * 2 ^ 252 := by ring
      rw [this]
      norm_num
    rw [e, mul_le_mul_iff_left₀ hd', mul_le_mul_iff_left₀ (by positivity)]
  simp only [roundF32]
  constructor
  · intro h
    rw [if_pos (hov.2 h)]
    rcases lt_trichotomy x 0 with h0 | h0 | h0
    · exact .inl ⟨by rw [hn h0], h0⟩
    · rw [h0, abs_zero] at h
      norm_num at h
    · exact .inr ⟨by rw [hp h0], h0⟩
  · intro h
    have ho : ¬overflowMag ≤ roundMag num den := by rw [hov]; exact not_le.2 h
    rw [if_neg ho]
    obtain ⟨hrep, hnear⟩ := roundMag_nearest hd (Nat.lt_of_not_le ho)
    refine ⟨neg, roundMag num den, rfl, hrep, hn, hp, ?_⟩
    have hzero : x = 0 → roundMag num den = 0 := by
      rintro rfl
      have h0 : num = 0 := by
        have : (num : ℝ) = 0 := by rw [← hx]; simp
        exact_mod_cast this
      have := (hnear 0 (by decide +kernel)).1
      rw [h0] at this ⊢
      simp at this
      omega
    generalize hmag : roundMag num den = mag at *
    set X : ℝ := x * 2 ^ 149 with hX
    obtain ⟨A, hA⟩ : ∃ A, A = |X| := ⟨_, rfl⟩
    have hXa : A * den = num := by rw [hA, hX, abs_mul, abs_of_pos (by positivity : (0 : ℝ) < 2 ^ 149), hx]
    have hself : |(signedMag neg mag : ℝ) - X| = |(mag : ℝ) - A| := by
      rcases lt_trichotomy x 0 with h0 | h0 | h0
      · have : X < 0 := by rw [hX]; exact mul_neg_of_neg_of_pos h0 (by positivity)
        rw [hn h0, hA, abs_of_neg this, signedMag, if_pos rfl, ← abs_neg]
        push_cast
        congr 1
        ring
      · rw [hzero h0]
        simp [hA, hX, h0, signedMag]
      · have : 0 < X := by rw [hX]; positivity
        rw [hp h0, hA, abs_of_pos this]
        simp [signedMag]
    intro t r hr
    have hr' : (F32.fin false r).representable = true := hr
    obtain ⟨h1, h2⟩ := hnear r hr'
    have hrev : |(r : ℝ) - A| ≤ |(signedMag t r : ℝ) - X| := by
      have e : (r : ℝ) = |(signedMag t r : ℝ)| := by cases t <;> simp [signedMag]
      rw [e, hA]
      exact abs_abs_sub_abs_le _ _
    have hle : |(mag : ℝ) - A| ≤ |(r : ℝ) - A| := by
      rw [← mul_le_mul_iff_left₀ hd', abs_sub_quotient hd hXa, abs_sub_quotient hd hXa]
      exact_mod_cast h1
    refine ⟨by rw [hself]; exact hle.trans hrev, fun hne heq => ?_⟩
    rw [hself] at heq
    by_cases hrm : r = mag
    · exfalso
      subst hrm
      have ht : t = !neg := by
        cases t <;> cases neg <;> simp_all
      have hr0 : r ≠ 0 := by
        rintro rfl
        cases t <;> cases neg <;> simp [signedMag] at hne
      have hr0' : (0 : ℝ) < r := by exact_mod_cast Nat.pos_of_ne_zero hr0
      have hx0 : x ≠ 0 := fun h0 => hr0 (hzero h0)
      have hXp : 0 < A := by rw [hA, abs_pos, hX]; exact mul_ne_zero hx0 (by positivity)
      have hfar : |(signedMag t r : ℝ) - X| = r + A := by
        rcases lt_or_gt_of_ne hx0 with h0 | h0
        · have hX0 : X < 0 := by rw [hX]; exact mul_neg_of_neg_of_pos h0 (by positivity)
          rw [ht, hn h0, hA, abs_of_neg hX0]
          simp only [signedMag, Bool.not_true, Bool.false_eq_true, if_false, Int.cast_natCast]
          rw [abs_of_pos (by linarith)]
          ring
        · have hX0 : 0 < X := by rw [hX]; positivity
          rw [ht, hp h0, hA, abs_of_pos hX0]
          simp only [signedMag, Bool.not_false, if_true, Int.cast_neg, Int.cast_natCast]
          rw [abs_of_neg (by linarith)]
          ring
      rw [hfar] at heq
      rcases abs_cases ((r : ℝ) - A) with ⟨h3, -⟩ | ⟨h3, -⟩ <;> linarith
    · have hed : |(mag : ℝ) - A| = |(r : ℝ) - A| := le_antisymm hle (heq ▸ hrev)
      refine (h2 hrm ?_).2
      have := congrArg (· * (den : ℝ)) hed
      simp only [abs_sub_quotient hd hXa] at this
      exact_mod_cast this

end Sys2Proof
end

