-- ==== Sys2Proof/Laws/Step.lean ====
section
/-! SUPPORT. What an operation and a step can do, said once over all of them: how a next state comes about. -/

namespace Sys2Proof.Machine

/-! What a window and a flush leave unchanged. -/

section Frames
variable (s : State) (c : BitVec 4)

theorem State.fsmStep_frame : (s.fsmStep c).build = s.build ∧ (s.fsmStep c).irqEn = s.irqEn
    ∧ (s.fsmStep c).status.busy = s.status.busy ∧ (s.fsmStep c).status.done = s.status.done
    ∧ (s.fsmStep c).status.err = s.status.err ∧ (s.fsmStep c).status.errCode = s.status.errCode
    ∧ (s.fsmStep c).winCount = s.winCount ∧ (s.fsmStep c).errInfo = s.errInfo ∧ (s.fsmStep c).cfg = s.cfg
    ∧ (s.fsmStep c).pos = s.pos ∧ (s.fsmStep c).work = s.work ∧ (s.fsmStep c).line = s.line
    ∧ (s.fsmStep c).port = s.port := by
  obtain ⟨f, -, h⟩ | ⟨-, p, -, h⟩ := s.fsmStep_cases c
  · simp [h]
  · rw [h]
    obtain ⟨-, h⟩ | ⟨-, h⟩ := s.emit_cases s.fsm.lk p <;> simp [h]

/-- A window of a key emits nothing. -/
theorem State.fsmStep_key (hc : c ≠ 0) : (s.fsmStep c).status = s.status ∧ (s.fsmStep c).mem = s.mem
    ∧ (s.fsmStep c).outCount = s.outCount := by
  simp only [State.fsmStep, if_pos hc]
  split <;> simp

theorem State.flushEmit_frame : s.flushEmit.build = s.build ∧ s.flushEmit.irqEn = s.irqEn
    ∧ s.flushEmit.status.busy = s.status.busy ∧ s.flushEmit.status.done = s.status.done
    ∧ s.flushEmit.status.err = s.status.err ∧ s.flushEmit.status.errCode = s.status.errCode
    ∧ s.flushEmit.winCount = s.winCount ∧ s.flushEmit.errInfo = s.errInfo ∧ s.flushEmit.cfg = s.cfg
    ∧ s.flushEmit.pos = s.pos ∧ s.flushEmit.work = s.work ∧ s.flushEmit.line = s.line
    ∧ s.flushEmit.port = s.port := by
  obtain h | ⟨-, -, h⟩ := s.flushEmit_cases
  · simp [h]
  · rw [h]
    obtain ⟨-, h⟩ | ⟨-, h⟩ := s.emit_cases s.fsm.lk s.flushPresses <;> simp [h]

/-- A window changes no byte outside the output entry it may write. -/
theorem State.fsmStep_read {s : State} (c : BitVec 4) {a : Nat} (hm : s.mem.wf)
    (ha : a < outAddr s.outCount.toNat ∨ outAddr s.outCount.toNat + 4 ≤ a) : (s.fsmStep c).mem.read a = s.mem.read a := by
  obtain ⟨f, -, h⟩ | ⟨-, p, -, h⟩ := s.fsmStep_cases c
  · rw [h]
  · rw [h]; exact State.emit_read _ _ hm ha

/-- The flush changes no byte outside the output entry it may write. -/
theorem State.flushEmit_read {s : State} {a : Nat} (hm : s.mem.wf)
    (ha : a < outAddr s.outCount.toNat ∨ outAddr s.outCount.toNat + 4 ≤ a) : s.flushEmit.mem.read a = s.mem.read a := by
  obtain h | ⟨-, -, h⟩ := s.flushEmit_cases
  · rw [h]
  · rw [h]; exact State.emit_read _ _ hm ha

end Frames

/-! The micro-operations. -/

/-- How a micro-operation comes to a next state: by an error, with the code and info of R301's table, or by its own effect. -/
inductive MicroCases (i : Instr) (s t : State) : Prop
  | raise (w : Work) (c : BitVec 4) (k : Nat) (h : t = { s with work := w }.raise c k)
      (hw : w = s.work ∨ i = .seqVarEnd ∧ s.work.acc.isFinite = true ∧ w = s.gateLevel)
      (hc : (i = .seqStatsStep ∧ c = 2 ∧ k = s.pos.n) ∨ (i = .seqStatsEnd ∧ c = 3 ∧ k = 0)
        ∨ (i = .seqVarEnd ∧ c = 3 ∧ k = 0) ∨ (i = .seqFilterStep ∧ c = 4 ∧ k = s.pos.n)
        ∨ (i = .seqDetectStep ∧ c = 5 ∧ k = s.pos.j))
  | statsStep (v : F32) (hi : i = .seqStatsStep) (hn : s.pos.n < s.build.bufLen) (hv : v.isFinite = true)
      (h : t = { s with
        work := { s.work with sum := s.work.sum.add v, sumSq := s.work.sumSq.add (v.mul v) } }.nextSample)
  | statsEnd (hi : i = .seqStatsEnd)
      (h : t = { s with work := { s.work with mean := s.work.sum.div (.ofNat s.total), acc := .zero } }.enterPass 2)
  | varStep (d : F32) (hi : i = .seqVarStep) (hn : s.pos.n < s.build.bufLen)
      (h : t = { s with work := { s.work with acc := s.work.acc.add (d.mul d) } }.nextSample)
  | varEnd (hi : i = .seqVarEnd) (h : t = { s with work := { s.gateLevel with maxAbs := .zero } }.enterPass 3)
  | gateStep (w : Word) (hi : i = .seqGateStep) (hn : s.pos.n < s.build.bufLen)
      (h : t = { s.setSample s.pos.n w with work := { s.work with
        maxAbs := if F32.lt s.work.maxAbs (F32.ofBits w).abs then (F32.ofBits w).abs else s.work.maxAbs } }.nextSample)
  | gateEnd (b : Bool) (hi : i = .seqGateEnd)
      (h : t = { s with work := { s.work with norm := b }, line := .reset }.enterPass 4)
  | filterStep (w x : Word) (hi : i = .seqFilterStep) (hn : s.pos.n < s.build.bufLen)
      (h : t = { s.setSample s.pos.n x with
        line := s.line.shift (s.normalized w) (s.bandPass (s.normalized w)) }.nextSample)
  | filterEnd (hi : i = .seqFilterEnd) (h : t = { s with pos := ⟨5, 0, 0⟩ })
  | detectStep (c : BitVec 4) (hi : i = .seqDetectStep) (hc : c.toNat ≤ 12)
      (h : t = ({ s with port := { s.port with cls := c } }.fsmStep c).nextWindow)
  | detectEnd (hi : i = .seqDetectEnd) (h : t = { s with pos := { s.pos with phase := 6 } })
  | flush (hi : i = .seqFlush) (h : t = { s.flushEmit with fsm := .reset }.complete)

/-- What a micro-operation can do. -/
theorem micro_cases {i : Instr} {s t : State} (hm : isMicroOp i = true) (h : exec i s = .next t) : MicroCases i s t := by
  cases i <;> try (cases hm; done)
  case seqStatsStep =>
    obtain ⟨hn, h⟩ := withSample_next h
    dsimp only at h
    split at h
    · exact .statsStep _ rfl hn ‹_› h
    · exact .raise s.work 2 s.pos.n h (.inl rfl) (.inl ⟨rfl, rfl, rfl⟩)
  case seqStatsEnd =>
    have h := (Host.Outcome.next.inj h).symm
    split at h
    · exact .statsEnd rfl h
    · exact .raise s.work 3 0 h (.inl rfl) (by simp)
  case seqVarStep =>
    obtain ⟨hn, h⟩ := withSample_next h
    exact .varStep _ rfl hn h
  case seqVarEnd =>
    have h := (Host.Outcome.next.inj h).symm
    split at h
    · dsimp only at h
      split at h
      · exact .varEnd rfl h
      · exact .raise s.gateLevel 3 0 h (.inr ⟨rfl, ‹_›, rfl⟩) (by simp)
    · exact .raise s.work 3 0 h (.inl rfl) (by simp)
  case seqGateStep =>
    obtain ⟨hn, h⟩ := withSample_next h
    exact .gateStep _ rfl hn h
  case seqGateEnd => exact .gateEnd _ rfl (Host.Outcome.next.inj h).symm
  case seqFilterStep =>
    obtain ⟨hn, h⟩ := withSample_next h
    dsimp only at h
    split at h
    · exact .filterStep _ _ rfl hn h
    · exact .raise s.work 4 s.pos.n h (.inl rfl) (by simp)
  case seqFilterEnd => exact .filterEnd rfl (Host.Outcome.next.inj h).symm
  case seqDetectEnd => exact .detectEnd rfl (Host.Outcome.next.inj h).symm
  case seqFlush => exact .flush rfl (Host.Outcome.next.inj h).symm
  case seqDetectStep =>
    have h : execSeqDetectStep s = .next t := h
    simp only [execSeqDetectStep] at h
    split at h
    · cases h
    · obtain ⟨x, -, ⟨-, h⟩ | ⟨c, -, hc⟩⟩ := classifyWindow_cases h
      · exact .raise s.work 5 s.pos.j h (.inl rfl) (by simp)
      · obtain ⟨h1, h2⟩ := stepWindow_next hc
        exact .detectStep c rfl h1 h2

/-! All operations. -/

/-- How any operation comes to a next state. -/
inductive ExecCases (i : Instr) (s t : State) : Prop
  | respond (r : Response) (hi : isBusRow i = true) (h : t = s.respond r)
  | config (c : ConfigRegs) (r : Response) (hi : isBusRow i = true) (hb : s.status.busy = false)
      (h : t = { s with cfg := c }.respond r)
  | acknowledge (w : Word) (r : Response) (hi : i = .wrStatus w) (hb : s.status.busy = false)
      (h : t = (s.acknowledge (w.getLsbD 1) (w.getLsbD 2)).respond r)
  | control (w : Word) (hi : i = .wrCtrl w) (h : execWrCtrl w s = .next t)
  | sample (n : BitVec 20) (w : Word) (r : Response) (hi : i = .wrSample n w) (hb : s.status.busy = false)
      (hn : n.toNat < s.build.bufLen) (h : t = (s.setSample n.toNat w).respond r)
  | silence (hi : i = .fsmStepSilence) (h : t = s.fsmStep 0)
  | key (k : BitVec 4) (hi : (k, i) ∈ keyRows) (h0 : k ≠ 0) (h12 : k.toNat ≤ 12) (h : t = s.fsmStep k)
  | micro (hi : isMicroOp i = true) (h : exec i s = .next t)
  | classify (hi : i ∈ [Instr.detClassifyGoertzel, .detClassifyGoertzelStrict, .detClassifySpectral])
      (h : t = s.raise errDetect s.pos.j ∨ ∃ c, t = { s with port := { s.port with cls := c } })

theorem classifyOnly_next {s t : State} {classify : State → List F32 → Option (BitVec 4)}
    (h : classifyOnly s classify = .next t) :
    t = s.raise errDetect s.pos.j ∨ ∃ c, t = { s with port := { s.port with cls := c } } := by
  obtain ⟨x, -, ⟨-, rfl⟩ | ⟨c, -, hc⟩⟩ := classifyWindow_cases h
  · exact .inl rfl
  · exact .inr ⟨c, (Host.Outcome.next.inj hc).symm⟩

theorem ExecCases.of_refuse {i : Instr} {s t : State} {we : Bool} (hi : isBusRow i = true) (h : t = s.refuse we) :
    ExecCases i s t := by
  cases we
  · exact .respond _ hi h
  · exact .respond _ hi h

theorem ExecCases.of_readRam {i : Instr} {s t : State} {ok : Bool} {w : Word} (hi : isBusRow i = true)
    (h : readRam s ok w = .next t) : ExecCases i s t := by
  have h := (Host.Outcome.next.inj h).symm
  split at h <;> exact .respond _ hi h

theorem ExecCases.of_writeConfig {i : Instr} {s t : State} {c : ConfigRegs} (hi : isBusRow i = true)
    (h : t = s.writeConfig c) : ExecCases i s t := by
  cases hb : s.status.busy
  · rw [State.writeConfig, State.gatedWrite_idle hb] at h
    exact .config c _ hi hb h
  · rw [State.writeConfig, State.gatedWrite_busy hb] at h
    exact .respond _ hi h

theorem ExecCases.of_key {i : Instr} {s t : State} (k : BitVec 4) (hi : (k, i) ∈ keyRows) (h0 : k ≠ 0)
    (h : presentClass k s = .next t) : ExecCases i s t :=
  let ⟨h12, ht⟩ := presentClass_next h
  .key k hi h0 h12 ht

/-- What an operation can do. -/
theorem exec_cases {i : Instr} {s t : State} (h : exec i s = .next t) : ExecCases i s t := by
  cases i
  case wrStatus w =>
    have h := (Host.Outcome.next.inj h).symm
    cases hb : s.status.busy
    · rw [State.gatedWrite_idle hb] at h
      exact .acknowledge w _ rfl hb h
    · rw [State.gatedWrite_busy hb] at h
      exact .respond _ rfl h
  case wrCtrl w => exact .control w rfl h
  case wrSample n w =>
    have h := (Host.Outcome.next.inj h).symm
    by_cases hn : n.toNat < s.build.bufLen
    · rw [if_pos hn] at h
      cases hb : s.status.busy
      · rw [State.gatedWrite_idle hb] at h
        exact .sample n w _ rfl hb hn h
      · rw [State.gatedWrite_busy hb] at h
        exact .respond _ rfl h
    · rw [if_neg hn] at h
      exact .respond _ rfl h
  case rdSample n => exact .of_readRam rfl h
  case rdOut n => exact .of_readRam rfl h
  case busIllegal we a sz w => exact .of_refuse rfl (Host.Outcome.next.inj h).symm
  case busReserved we a w => exact .of_refuse rfl (Host.Outcome.next.inj h).symm
  case fsmStepSilence => exact .silence rfl (presentClass_next (c := 0) (s := s) (t := t) h).2
  case clsReserved13 => cases h
  case clsReserved1415 low => cases low <;> cases h
  case detReserved => cases h
  case detClassifyGoertzel => exact .classify (by simp) (classifyOnly_next h)
  case detClassifyGoertzelStrict => exact .classify (by simp) (classifyOnly_next h)
  case detClassifySpectral => exact .classify (by simp) (classifyOnly_next h)
  case fsmStepKey1 => exact .of_key 1 (by decide) (by decide) h
  case fsmStepKey2 => exact .of_key 2 (by decide) (by decide) h
  case fsmStepKey3 => exact .of_key 3 (by decide) (by decide) h
  case fsmStepKey4 => exact .of_key 4 (by decide) (by decide) h
  case fsmStepKey5 => exact .of_key 5 (by decide) (by decide) h
  case fsmStepKey6 => exact .of_key 6 (by decide) (by decide) h
  case fsmStepKey7 => exact .of_key 7 (by decide) (by decide) h
  case fsmStepKey8 => exact .of_key 8 (by decide) (by decide) h
  case fsmStepKey9 => exact .of_key 9 (by decide) (by decide) h
  case fsmStepKey10 => exact .of_key 10 (by decide) (by decide) h
  case fsmStepKey11 => exact .of_key 11 (by decide) (by decide) h
  case fsmStepKey12 => exact .of_key 12 (by decide) (by decide) h
  all_goals first
    | exact .respond _ rfl (Host.Outcome.next.inj h).symm
    | exact .micro rfl h
    | exact .of_writeConfig rfl (Host.Outcome.next.inj h).symm

/-! The step. -/

/-- How a step comes to a next state: an idle block, a reset pulse, or an operation that a raw operation decodes to, at the
sequencer's turn or from the agenda. -/
inductive StepCases (s t : State) : Prop
  | idle (u : State) (hu : s.TurnOf u) (h0 : s.pos.phase = 0) (h : t = u)
  | reset (rest : List Stimulus) (ha : s.port.agenda = .rst :: rest) (h : t = (s.withAgenda rest).hardReset)
  | micro (u : State) (i : Instr) (hu : s.TurnOf u) (h0 : s.pos.phase ≠ 0) (hd : decode s.microOpOp = .instr i)
      (h : exec i u = .next t)
  | present (raw : RawOp) (rest : List Stimulus) (i : Instr) (ha : s.port.agenda = .op raw :: rest)
      (hp : s.admits raw = true) (hd : decode raw = .instr i) (h : exec i (s.withAgenda rest) = .next t)

/-- What a step makes of what it fetched. -/
def afterFetch : Fetched → Result
  | .idle t => .next t
  | .reset t => .next t.hardReset
  | .misplaced => .fault .seqBadPhase
  | .noSuchBuild => .refused .noSuchBuild
  | .perform raw t =>
    match decode raw with
    | .instr i => exec i t
    | .reject e => stopOn e

theorem step_eq (s : State) : step s = afterFetch (fetch s) := by unfold step afterFetch; rfl

theorem afterFetch_perform {raw : RawOp} {s t : State} (h : afterFetch (.perform raw s) = .next t) :
    ∃ i, decode raw = .instr i ∧ exec i s = .next t := by
  simp only [afterFetch] at h
  split at h
  · exact ⟨_, ‹_›, h⟩
  · rename_i e _
    cases e <;> cases h

theorem afterFetch_turn {s u t : State} (hu : s.TurnOf u) (h : afterFetch (sequencerTurn u) = .next t) : StepCases s t := by
  have hp : u.pos = s.pos := by obtain ⟨-, rfl⟩ | ⟨rest, -, rfl⟩ := hu <;> rfl
  have hm : u.microOpOp = s.microOpOp := by obtain ⟨-, rfl⟩ | ⟨rest, -, rfl⟩ := hu <;> rfl
  simp only [sequencerTurn] at h
  by_cases h0 : u.pos.phase = 0
  · rw [if_pos h0] at h
    exact .idle u hu (hp ▸ h0) (Host.Outcome.next.inj h).symm
  · rw [if_neg h0] at h
    obtain ⟨i, hd, he⟩ := afterFetch_perform h
    exact .micro u i hu (hp ▸ h0) (hm ▸ hd) he

theorem fetch_build {s : State} (hd : s.build.detector ≠ 3) : fetch s = nextStimulus s := if_neg hd

theorem fetch_noSuchBuild {s : State} (hd : s.build.detector = 3) : fetch s = .noSuchBuild := if_pos hd

/-- In a configuration that no build has every step is refused (R120, R122, R321). -/
theorem step_noSuchBuild {s : State} (hd : s.build.detector = 3) : step s = .refused .noSuchBuild := by
  rw [step_eq, fetch_noSuchBuild hd]
  rfl

/-- Only a configuration that some build has is stepped. -/
theorem step_detector {s t : State} (h : step s = .next t) : s.build.detector ≠ 3 := by
  intro hd
  rw [step_noSuchBuild hd] at h
  cases h

/-- What a step can do. -/
theorem step_cases {s t : State} (h : step s = .next t) : StepCases s t := by
  have hd := step_detector h
  rw [step_eq, fetch_build hd, nextStimulus] at h
  cases ha : s.port.agenda with
  | nil =>
    rw [ha] at h
    exact afterFetch_turn (.inl ⟨ha, rfl⟩) h
  | cons x rest =>
    rw [ha] at h
    cases x with
    | tick => exact afterFetch_turn (.inr ⟨rest, ha, rfl⟩) h
    | rst => exact .reset rest ha (Host.Outcome.next.inj h).symm
    | op raw =>
      by_cases hb : s.admits raw = true
      · simp only [hb, if_true] at h
        obtain ⟨i, hd, he⟩ := afterFetch_perform h
        exact .present raw rest i ha hb hd he
      · simp [hb, afterFetch] at h

/-- A step at an empty agenda or a tick is the sequencer's turn. -/
theorem step_turn {s u : State} (hd : s.build.detector ≠ 3) (hu : s.TurnOf u) :
    step s = afterFetch (sequencerTurn u) := by
  rw [step_eq, fetch_build hd, nextStimulus]
  obtain ⟨ha, rfl⟩ | ⟨rest, ha, rfl⟩ := hu <;> simp only [ha]

end Sys2Proof.Machine
end

