-- ==== Sys2Proof/Laws/Tables.lean ====
section
/-! SUPPORT. A table entry is the rounding of its formula (R23): a fixed-point value whose two neighbours at the distance of
its error are rounded alike is rounded as the real value it stands for. -/

namespace Sys2Proof

/-- A number between two others that `v` is at least as near to as `r`. -/
theorem nearer_between {v r a b x : ℝ} (ha : |v - a| ≤ |r - a|) (hb : |v - b| ≤ |r - b|) (hax : a ≤ x) (hxb : x ≤ b) :
    |v - x| ≤ |r - x| ∧ (|v - x| = |r - x| → v ≠ r → |v - a| = |r - a| ∨ |v - b| = |r - b|) := by
  have sq (z : ℝ) : |v - z| ≤ |r - z| ↔ 0 ≤ (r - v) * (r + v - 2 * z) := by
    rw [← sq_le_sq, ← sub_nonneg]
    have : (r - z) ^ 2 - (v - z) ^ 2 = (r - v) * (r + v - 2 * z) := by ring
    rw [this]
  have sq' (z : ℝ) : |v - z| = |r - z| ↔ (r - v) * (r + v - 2 * z) = 0 := by
    rw [← sq_eq_sq_iff_abs_eq_abs, eq_comm, ← sub_eq_zero]
    have : (r - z) ^ 2 - (v - z) ^ 2 = (r - v) * (r + v - 2 * z) := by ring
    rw [this]
  rw [sq] at ha hb ⊢
  rw [sq', sq', sq']
  rcases lt_trichotomy v r with h | h | h
  · have hb' : 0 ≤ r + v - 2 * b := by by_contra hc; nlinarith
    refine ⟨mul_nonneg (by linarith) (by linarith), fun he _ => .inr ?_⟩
    rcases mul_eq_zero.1 he with he | he
    · linarith
    · rw [show r + v - 2 * b = 0 by linarith, mul_zero]
  · rw [h]
    simp
  · have ha' : r + v - 2 * a ≤ 0 := by by_contra hc; nlinarith
    refine ⟨mul_nonneg_of_nonpos_of_nonpos (by linarith) (by linarith), fun he _ => .inl ?_⟩
    rcases mul_eq_zero.1 he with he | he
    · linarith
    · rw [show r + v - 2 * a = 0 by linarith, mul_zero]

/-- Two numbers that are rounded alike leave no room for another rounding between them. -/
theorem RoundsTo.between {a b x : ℝ} {y : F32} (ha : RoundsTo a y) (hb : RoundsTo b y) (hax : a ≤ x) (hxb : x ≤ b)
    (hf : y.isFinite = true) : RoundsTo x y := by
  have fin_lt : ∀ {z : ℝ}, RoundsTo z y → |z| < 2 ^ 128 - 2 ^ 103 := by
    intro z hz
    by_contra hc
    rcases hz.overflow (not_lt.1 hc) with ⟨h, -⟩ | ⟨h, -⟩ <;> rw [h] at hf <;> cases hf
  have hla := fin_lt ha
  have hlb := fin_lt hb
  have hlx : |x| < 2 ^ 128 - 2 ^ 103 := by
    rw [abs_lt] at *
    constructor <;> linarith [hla.1, hlb.2]
  obtain ⟨s, m, rfl, hrep, hn, hp, h1⟩ := ha.nearest hla
  obtain ⟨s', m', he, -, hn', hp', h2⟩ := hb.nearest hlb
  obtain ⟨rfl, rfl⟩ := F32.fin.inj he
  refine ⟨fun h => absurd hlx (not_lt.2 h), fun _ => ⟨s, m, rfl, hrep, ?_, ?_, ?_⟩⟩
  · intro h
    exact hn (lt_of_le_of_lt hax h)
  · intro h
    exact hp' (lt_of_lt_of_le h hxb)
  · intro t r hr
    obtain ⟨a1, a2⟩ := h1 t r hr
    obtain ⟨b1, b2⟩ := h2 t r hr
    have hp : (0 : ℝ) < 2 ^ 149 := by positivity
    obtain ⟨c1, c2⟩ := nearer_between a1 b1 (mul_le_mul_of_nonneg_right hax hp.le) (mul_le_mul_of_nonneg_right hxb hp.le)
    refine ⟨c1, fun hne he => ?_⟩
    rcases c2 he (fun h => hne (by exact_mod_cast h.symm)) with h | h
    · exact a2 hne h
    · exact b2 hne h

namespace Rom

/-- `nearest` rounds its fixed-point value. -/
theorem nearest_value (v : Int) {s : Nat} (hs : 0 < s) : RoundsTo ((v : ℝ) / (s * one)) (nearest v s) := by
  have hs' : (0 : ℝ) < s := by exact_mod_cast hs
  have ho : (one : ℝ) = 2 ^ 128 := by norm_num [one]
  have hd : (0 : ℝ) < s * one := mul_pos hs' one_pos
  refine roundF32_roundsTo hs ?_ ?_ ?_
  · rw [abs_div, abs_of_pos hd, ← Int.cast_abs, Int.abs_eq_natAbs, ho]
    push_cast
    field_simp
    norm_num
  · intro h
    have : (v : ℝ) < 0 := by
      by_contra hc
      exact absurd h (not_lt.2 (div_nonneg (not_lt.1 hc) hd.le))
    simpa using (by exact_mod_cast this : v < 0)
  · intro h
    have : (0 : ℝ) < v := by
      by_contra hc
      exact absurd h (not_lt.2 (div_nonpos_of_nonpos_of_nonneg (not_lt.1 hc) hd.le))
    simpa using (by exact_mod_cast this.le : 0 ≤ v)

/-- A fixed-point value whose two neighbours at the distance of its error are rounded alike is rounded as the real value. -/
theorem nearest_roundsTo {v : Int} {s e : Nat} {x : ℝ} {y : F32} (hs : 0 < s) (hx : |x * (s * one) - v| ≤ e)
    (h1 : nearest (v - e) s = y) (h2 : nearest (v + e) s = y) (hf : y.isFinite = true) :
    RoundsTo x y := by
  have hs' : (0 : ℝ) < s := by exact_mod_cast hs
  have hd : (0 : ℝ) < s * one := mul_pos hs' one_pos
  have r1 := nearest_value (v - e) hs
  have r2 := nearest_value (v + e) hs
  rw [h1] at r1
  rw [h2] at r2
  rw [abs_le] at hx
  refine r1.between r2 ?_ ?_ hf
  · rw [div_le_iff₀ hd]
    push_cast
    linarith [hx.1]
  · rw [le_div_iff₀ hd]
    push_cast
    linarith [hx.2]

end Rom

end Sys2Proof
end

