-- ==== Sys2Proof/Tests/Slice0.lean ====
section
/-! SUPPORT. The model's own tests: the well-formedness checks, the decoding of words written out from the encodings, one-step
vectors from 95_test_vectors.md and the rules' examples, and a witness for the hypotheses of each statement. -/

namespace Sys2Proof.Tests

open Sys2Proof.Machine

set_option Elab.async false

/-! Well-formedness: each check refuses an ill-formed term. -/

theorem test_wellFormed_refuses_legal_busIllegal : (Instr.busIllegal false 0x18 .word 0).wellFormed = false := by decide
theorem test_wellFormed_refuses_read_data : (Instr.busIllegal false 0x18 .byte 1).wellFormed = false := by decide
theorem test_wellFormed_refuses_misaligned_reserved : (Instr.busReserved true 0x72 0).wellFormed = false := by decide
theorem test_wellFormed_refuses_register : (Instr.busReserved true 0x6C 0).wellFormed = false := by decide
theorem test_wellFormed_refuses_outRam : (Instr.busReserved true 0x1FFC 0).wellFormed = false := by decide
theorem test_wellFormed_refuses_sampleRam : (Instr.busReserved true 0x7FFFFC 0).wellFormed = false := by decide
theorem test_wellFormed_refuses_reserved_read_data : (Instr.busReserved false 0x70 1).wellFormed = false := by decide
theorem test_wellFormed_takes_first_reserved : (Instr.busReserved false 0x70 0).wellFormed = true := by decide

/-! Decoding: each word is written out from R90, R111, R113, R114, R116, R119 and R120. -/

/-- SEL = {0, 0x0000oo} and no WDATA: a read at register offset `o`. -/
def readAt (o : Byte) : RawOp := ⟨.bus, [o, 0, 0, 0x00, 0, 0, 0, 0]⟩

/-- SEL = {1, 0x0000oo} and WDATA = 0x12345678: a write at register offset `o`. -/
def writeAt (o : Byte) : RawOp := ⟨.bus, [o, 0, 0, 0x01, 0x78, 0x56, 0x34, 0x12]⟩

theorem test_decode_reads_1 : [0x00, 0x04, 0x08, 0x0C, 0x10, 0x14, 0x18, 0x1C, 0x20, 0x24].map (fun o => decode (readAt o))
    = [Instr.rdId, .rdCaps, .rdWinCfg, .rdBufLen, .rdOutLen, .rdCtrl, .rdStatus, .rdSampleCount, .rdOutCount,
       .rdWinCount].map .instr := by decide +kernel

theorem test_decode_reads_2 : [0x28, 0x2C, 0x30, 0x34, 0x38, 0x3C, 0x40, 0x44, 0x48].map (fun o => decode (readAt o))
    = [Instr.rdErrInfo, .rdFsmCfg, .rdPlaceholder, .rdGateFactor, .rdNormEps, .rdNoiseFloor, .rdToneFloor, .rdRatioThr,
       .rdEmphCoef].map .instr := by decide +kernel

theorem test_decode_reads_3 : [0x4C, 0x50, 0x54, 0x58, 0x5C, 0x60, 0x64, 0x68, 0x6C].map (fun o => decode (readAt o))
    = [Instr.rdBpB0, .rdBpB1, .rdBpB2, .rdBpB3, .rdBpB4, .rdBpA1, .rdBpA2, .rdBpA3, .rdBpA4].map .instr := by decide +kernel

theorem test_decode_writes_1 : [0x00, 0x04, 0x08, 0x0C, 0x10, 0x14, 0x18, 0x1C, 0x20, 0x24].map (fun o => decode (writeAt o))
    = ([.wrId, .wrCaps, .wrWinCfg, .wrBufLen, .wrOutLen, .wrCtrl, .wrStatus, .wrSampleCount, .wrOutCount,
        .wrWinCount] : List (Word → Instr)).map fun i => .instr (i 0x12345678) := by decide +kernel

theorem test_decode_writes_2 : [0x28, 0x2C, 0x30, 0x34, 0x38, 0x3C, 0x40, 0x44, 0x48].map (fun o => decode (writeAt o))
    = ([.wrErrInfo, .wrFsmCfg, .wrPlaceholder, .wrGateFactor, .wrNormEps, .wrNoiseFloor, .wrToneFloor, .wrRatioThr,
        .wrEmphCoef] : List (Word → Instr)).map fun i => .instr (i 0x12345678) := by decide +kernel

theorem test_decode_writes_3 : [0x4C, 0x50, 0x54, 0x58, 0x5C, 0x60, 0x64, 0x68, 0x6C].map (fun o => decode (writeAt o))
    = ([.wrBpB0, .wrBpB1, .wrBpB2, .wrBpB3, .wrBpB4, .wrBpA1, .wrBpA2, .wrBpA3, .wrBpA4] : List (Word → Instr)).map
        fun i => .instr (i 0x12345678) := by decide +kernel

/-- R114's rows at both ends of their regions, and the offsets around them (R84, R86). -/
theorem test_decode_ram_and_reserved :
    decode ⟨.bus, [0x00, 0x00, 0x40, 0x00, 0, 0, 0, 0]⟩ = .instr (.rdSample 0)
    ∧ decode ⟨.bus, [0xFC, 0xFF, 0x7F, 0x00, 0, 0, 0, 0]⟩ = .instr (.rdSample 0xFFFFF)
    ∧ decode ⟨.bus, [0x04, 0x00, 0x40, 0x01, 0, 0, 0xC0, 0x7F]⟩ = .instr (.wrSample 1 0x7FC00000)
    ∧ decode ⟨.bus, [0x00, 0x10, 0x00, 0x00, 0, 0, 0, 0]⟩ = .instr (.rdOut 0)
    ∧ decode ⟨.bus, [0xFC, 0x1F, 0x00, 0x00, 0, 0, 0, 0]⟩ = .instr (.rdOut 0x3FF)
    ∧ decode ⟨.bus, [0x00, 0x10, 0x00, 0x01, 0x41, 0, 0, 0]⟩ = .instr (.wrOut 0 0x41)
    ∧ decode ⟨.bus, [0x70, 0x00, 0x00, 0x00, 0, 0, 0, 0]⟩ = .instr (.busReserved false 0x70 0)
    ∧ decode ⟨.bus, [0x00, 0x20, 0x00, 0x00, 0, 0, 0, 0]⟩ = .instr (.busReserved false 0x2000 0)
    ∧ decode ⟨.bus, [0xFC, 0xFF, 0xFF, 0x01, 1, 0, 0, 0]⟩ = .instr (.busReserved true 0xFFFFFC 1) := by decide +kernel

/-- R112 step 1: a 1-byte read of STATUS, a misaligned 4-byte write (SIZE codes of log entry 2). -/
theorem test_decode_illegal :
    decode ⟨.bus, [0x18, 0, 0, 0x02, 0, 0, 0, 0]⟩ = .instr (.busIllegal false 0x18 .byte 0)
    ∧ decode ⟨.bus, [0x16, 0, 0, 0x01, 0xFF, 0xFF, 0xFF, 0xFF]⟩ = .instr (.busIllegal true 0x16 .word 0xFFFFFFFF) := by
  decide +kernel

theorem test_decode_classes : [0, 1, 2, 3, 4, 5, 6, 7, 8, 9, 10, 11, 12, 13, 14, 15].map (fun c => decode ⟨.cls, [c]⟩)
    = ([Instr.fsmStepSilence, .fsmStepKey1, .fsmStepKey2, .fsmStepKey3, .fsmStepKey4, .fsmStepKey5, .fsmStepKey6,
        .fsmStepKey7] ++ [Instr.fsmStepKey8, .fsmStepKey9, .fsmStepKey10, .fsmStepKey11, .fsmStepKey12, .clsReserved13,
        .clsReserved1415 false, .clsReserved1415 true]).map .instr := by decide +kernel

theorem test_decode_microOps : [2, 3, 4, 5, 6, 7, 8, 9, 10, 11, 13].map (fun u => decode ⟨.seq, [u]⟩)
    = [Instr.seqStatsStep, .seqStatsEnd, .seqVarStep, .seqVarEnd, .seqGateStep, .seqGateEnd, .seqFilterStep, .seqFilterEnd,
       .seqDetectStep, .seqDetectEnd, .seqFlush].map .instr := by decide +kernel

theorem test_decode_noMicroOp : [0x0, 0x1, 0xC, 0xE, 0xF].map (fun u => decode ⟨.seq, [u]⟩)
    = List.replicate 5 (.reject .noMicroOp) := by decide +kernel

theorem test_decode_detectors : [0, 1, 2, 3].map (fun d => decode ⟨.det, [d]⟩)
    = [Instr.detClassifyGoertzel, .detClassifyGoertzelStrict, .detClassifySpectral, .detReserved].map .instr := by
  decide +kernel

theorem test_decode_rejects_strays : decode ⟨.cls, [0x10]⟩ = .reject .strayBits
    ∧ decode ⟨.bus, [0, 0, 0, 0x08, 0, 0, 0, 0]⟩ = .reject .strayBits
    ∧ decode ⟨.bus, [0, 0, 0, 0x06, 0, 0, 0, 0]⟩ = .reject .noSuchSize
    ∧ decode ⟨.bus, [0]⟩ = .reject .wrongLength := by decide +kernel

/-- R113's two example words, through the table's word. -/
theorem test_decodeTableWord : decodeTableWord 32 0x0000018 = some .rdStatus
    ∧ decodeTableWord 32 0x1000014 = some (.wrCtrl 0) ∧ decodeTableWord 8 0x4 = some .fsmStepKey4 := by decide +kernel

/-! Small states. -/

/-- The bytes of one word at a byte offset, lowest first (R90). -/
def cellsOf (a : Nat) (b0 b1 b2 b3 : Byte) : List Host.Cell := [(a, b0), (a + 1, b1), (a + 2, b2), (a + 3, b3)]

/-- A state after reset with the cells given in memory. -/
def withCells (cells : List Host.Cell) : State := { State.reset with mem := ⟨cells, 0, []⟩ }

/-- A state in a run: BUSY, a phase, N samples and a pass index. -/
def inRun (s : State) (phase : BitVec 3) (total : Word) (n : Nat) : State :=
  { s with
    status := { s.status with busy := true }
    pos := ⟨phase, n, 0⟩
    cfg := { s.cfg with sampleCount := total } }

/-- A state whose FSM is at (LK, SAME, PRESS, SIL, GAP, COOL). -/
def fsmAt (lk : BitVec 4) (same press sil gap cool : Byte) : State :=
  { State.reset with fsm := ⟨lk, same, press, sil, gap, cool⟩ }

/-- What an operation makes of a state, seen by `f`. -/
def after {α : Type} (i : Instr) (s : State) (f : State → α) : Option α :=
  match exec i s with
  | .next t => some (f t)
  | _ => none

/-- The response of an operation. -/
def answer (i : Instr) (s : State) : Option (Option Response) := after i s fun t => t.port.resp

/-! One-step vectors of §2.1, §2.6 and §2.7 of 95_test_vectors.md. -/

/-- BUS-1 to BUS-3. -/
theorem test_bus_reads : answer .rdId .reset = some (some ⟨.okay, some 0x464D5444⟩)
    ∧ answer .rdWinCfg .reset = some (some ⟨.okay, some 0x08BD08BD⟩)
    ∧ answer .rdBufLen .reset = some (some ⟨.okay, some 0x00100000⟩)
    ∧ answer .rdFsmCfg .reset = some (some ⟨.okay, some 0x00010304⟩)
    ∧ answer .rdBpA4 .reset = some (some ⟨.okay, some 0x3F5AC4C7⟩) := by decide +kernel

/-- BUS-13 to BUS-16. -/
theorem test_bus_config_writes :
    after (.wrPlaceholder 0xFFFFFF41) .reset (fun t => regValue t .placeholder) = some 0x00000041
    ∧ after (.wrFsmCfg 0x02000103) .reset (fun t => (t.confirm, t.pause, t.guard, t.cooldown)) = some (3, 1, 0, 2)
    ∧ after (.wrCtrl 0xFFFFFFF8) .reset (fun t => (t.irqEn, t.status.busy)) = some (false, false)
    ∧ after (.wrCtrl 0x4) .reset (fun t => regValue t .ctrl) = some 0x00000004 := by decide +kernel

/-- BUS-17: E_COUNT; BUS-19 and BUS-20: an accepted START. -/
theorem test_bus_start :
    after (.wrCtrl 1) { State.reset with cfg := { State.reset.cfg with sampleCount := 0x00100001 } }
      (fun t => (statusWord t, t.errInfo)) = some (0x00000014, 0x00100001)
    ∧ after (.wrCtrl 1) { State.reset with cfg := { State.reset.cfg with sampleCount := 0x00100000 } } statusWord
      = some 0x00000101
    ∧ after (.wrCtrl 1) .reset statusWord = some 0x00000601 := by decide +kernel

/-- BUS-18 and EXC-7. -/
theorem test_bus_acknowledge :
    after (.wrStatus 4) { State.reset with status := ⟨false, false, true, false, 1⟩, errInfo := 0x00100001 }
      (fun t => (statusWord t, t.errInfo)) = some (0, 0)
    ∧ after (.wrStatus 2) { State.reset with status := ⟨false, false, true, false, 2⟩, errInfo := 1 }
      (fun t => (statusWord t, t.errInfo)) = some (0x00000024, 1) := by decide +kernel

/-- BUS-22 to BUS-25: the busy gate. -/
theorem test_bus_gate : answer (.rdSample 0) (inRun .reset 1 4 0) = some (some ⟨.error, some 0⟩)
    ∧ answer (.wrSample 0 0) (inRun .reset 1 4 0) = some (some ⟨.error, none⟩)
    ∧ answer (.wrFsmCfg 0) (inRun .reset 1 4 0) = some (some ⟨.error, none⟩)
    ∧ answer (.wrCtrl 1) (inRun .reset 1 4 0) = some (some ⟨.error, none⟩) := by decide +kernel

/-- RST-2 and BUS-27: a soft reset restores the configuration and does not start. -/
theorem test_soft_reset :
    after (.wrCtrl 3) { inRun .reset 1 4 0 with cfg := { State.reset.cfg with noiseFloor := 0, fsmCfg := 0 } }
      (fun t => (t.cfg.noiseFloor, t.cfg.fsmCfg, statusWord t)) = some (0x40800000, 0x00010304, 0) := by decide +kernel

/-- BUS-12: a written word reads back, and its low byte stands first. -/
theorem test_sample_write : after (.wrSample 1 0x7FC00001) .reset
    (fun t => (t.mem.cells, t.mem.readWord 0x400004)) = some (cellsOf 0x400004 0x01 0x00 0xC0 0x7F, 0x7FC00001) := by
  decide +kernel

/-! The preprocessor, examples of R141 to R147 and vectors PRE-1, PRE-10, PRE-14. -/

theorem test_statsStep : after .seqStatsStep (inRun (withCells (cellsOf 0x400000 0 0 0x80 0xBF)) 1 4 0)
    (fun t => (t.work.sum.toBits, t.work.sumSq.toBits, t.pos.n)) = some (0xBF800000, 0x3F800000, 1) := by decide +kernel

theorem test_statsStep_nan : after .seqStatsStep (inRun (withCells (cellsOf 0x400004 0 0 0xC0 0x7F)) 1 3 1)
    (fun t => (statusWord t, t.errInfo)) = some (0x00000024, 1) := by decide +kernel

theorem test_statsEnd : after .seqStatsEnd
    { inRun .reset 1 4 4 with work := { Work.reset with sum := .ofBits 0x40400000, sumSq := .ofBits 0x40200000 } }
    (fun t => (t.work.mean.toBits, t.pos)) = some (0x3F400000, ⟨2, 0, 0⟩) := by decide +kernel

theorem test_varStep : after .seqVarStep
    { inRun (withCells (cellsOf 0x400000 0 0 0 0x3F)) 2 4 0 with work := { Work.reset with acc := .ofBits 0x40000000 } }
    (fun t => t.work.acc.toBits) = some 0x40100000 := by decide +kernel

theorem test_varEnd : after .seqVarEnd
    { inRun .reset 2 4 4 with work := { Work.reset with acc := .ofBits 0x40200000, sumSq := .ofBits 0x40200000 } }
    (fun t => (t.work.std.toBits, t.work.rms.toBits, t.work.thr.toBits, t.work.gate.toBits))
    = some (0x3F4A62C2, 0x3F4A62C2, 0x3F5E9FD6, 0x3F300001) := by decide +kernel

theorem test_gateStep : after .seqGateStep
    { inRun (withCells (cellsOf 0x400000 0 0 0 0xBF)) 3 4 0 with work := { Work.reset with gate := .ofBits 0x3F300001 } }
    (fun t => (t.mem.readWord 0x400000, t.work.maxAbs.toBits)) = some (0, 0) := by decide +kernel

theorem test_gateStep_keeps : after .seqGateStep
    { inRun (withCells (cellsOf 0x400000 0 0 0x80 0xBF)) 3 4 0 with work := { Work.reset with gate := .ofBits 0x3F800000 } }
    (fun t => (t.mem.readWord 0x400000, t.work.maxAbs.toBits)) = some (0xBF800000, 0x3F800000) := by decide +kernel

theorem test_gateEnd : after .seqGateEnd { inRun .reset 3 4 4 with work := { Work.reset with maxAbs := .ofBits 0x3F800000 } }
    (fun t => (t.work.norm, t.pos)) = some (true, ⟨4, 0, 0⟩) := by decide +kernel

/-- The second sample of PRE-1: −1.0 behind an impulse of 1.0. -/
theorem test_filterStep : after .seqFilterStep
    { inRun (withCells (cellsOf 0x400004 0 0 0x80 0xBF)) 4 4 1 with
      work := { Work.reset with maxAbs := .ofBits 0x3F800000, norm := true }
      line := { DelayLine.reset with x1 := .ofBits 0x3F800000, y1 := .ofBits 0x3B3B7008 } }
    (fun t => (t.mem.readWord 0x400004, t.line.x1.toBits, t.line.x2.toBits, t.line.y2.toBits))
    = some (0x3BADA924, 0xBF800000, 0x3F800000, 0x3B3B7008) := by decide +kernel

theorem test_filterStep_error : after .seqFilterStep
    { inRun (withCells (cellsOf 0x400000 0 0 0 0)) 4 4 0 with work := { Work.reset with norm := true } }
    (fun t => (statusWord t, t.errInfo)) = some (0x00000044, 0) := by decide +kernel

theorem test_phase_ends : after .seqFilterEnd (inRun .reset 4 4 4) statusWord = some 0x00000501
    ∧ after .seqDetectEnd (inRun .reset 5 4 0) statusWord = some 0x00000601 := by decide +kernel

/-! The tables (vector DET-14) and the decision steps. -/

theorem test_rom_windows : (Rom.hamming 0).toBits = 0x3DA3D70A ∧ (Rom.hamming 1).toBits = 0x3DA3D805
    ∧ (Rom.hamming 1102).toBits = 0x3F800000 ∧ (Rom.hamming 2204).toBits = 0x3DA3D70A ∧ (Rom.hann 0).toBits = 0
    ∧ (Rom.hann 1).toBits = 0x360859AF ∧ (Rom.hann 1102).toBits = 0x3F800000 := by decide +kernel

theorem test_rom_gcoef : Rom.freqs.map (fun f => (Rom.gcoef f).toBits)
    = [0x3FFEBD1F, 0x3FFE7604, 0x3FFE1DBE, 0x3FFDB3E3, 0x3FFC3623, 0x3FFB6052, 0x3FFA5A43] := by decide +kernel

theorem test_rom_bins : Rom.freqs.map Rom.bin = [65, 72, 79, 87, 112, 124, 137] := by decide +kernel

theorem test_rom_twiddles : (Rom.cosT 1).toBits = 0x3F7FFFEC ∧ (Rom.sinT 1).toBits = 0x3AC90FD5 ∧ (Rom.cosT 1024).toBits = 0
    ∧ (Rom.sinT 1024).toBits = 0x3F800000 ∧ (Rom.cosT 2048).toBits = 0xBF800000 := by decide +kernel

/-- R192: the second of two equal maxima does not win. -/
theorem test_bestKey_tie : bestKey ([1, 1, 1, 3, 1, 1, 3, 1, 1, 1, 1, 1].map F32.ofNat) = 4 := by decide +kernel

/-- DET-15 and DET-16: the ratio 0.2006 is rejected, 0.3005 accepted; R181: a NaN threshold disables its test. -/
theorem test_balanced :
    balanced (.ofBits 0x4394CC6C) (.ofBits 0x426EBE5F) (.ofBits 0x40000000) (.ofBits 0x3E800000) = false
    ∧ balanced (.ofBits 0x4394CE5B) (.ofBits 0x42B2E2AB) (.ofBits 0x40000000) (.ofBits 0x3E800000) = true
    ∧ balanced (.ofBits 0x4394CC6C) (.ofBits 0x426EBE5F) (.ofBits 0x40000000) .nan = true := by decide +kernel

/-! Binary32 corners of R21 and R22. -/

/-- 2^24 + 1 ties to even; a subnormal times 0.5 ties to even; an overflow is an infinity; 0 ÷ 0 is a NaN. -/
theorem test_binary32 : (F32.add (.ofBits 0x4B800000) (.ofBits 0x3F800000)).toBits = 0x4B800000
    ∧ (F32.mul (.ofBits 0x00000003) (.ofBits 0x3F000000)).toBits = 0x00000002
    ∧ (F32.add (.ofBits 0x7F7FFFFF) (.ofBits 0x7F7FFFFF)).toBits = 0x7F800000
    ∧ F32.div .zero .zero = .nan ∧ (F32.sqrt (.ofBits 0x40000000)).toBits = 0x3FB504F3 := by decide +kernel

/-! The segmentation state machine: vectors FSM-1, FSM-2, FSM-5, FSM-6, FSM-8 and FSM-14. -/

theorem test_fsm_key_first : after .fsmStepKey4 (fsmAt 0 0 0 1 1 0) (fun t => t.fsm) = some ⟨4, 1, 0, 0, 2, 0⟩ := by
  decide +kernel

theorem test_fsm_key_guarded : after .fsmStepKey5 (fsmAt 4 0 1 1 1 0) (fun t => t.fsm) = some ⟨4, 1, 1, 0, 2, 0⟩ := by
  decide +kernel

theorem test_fsm_key_change : after .fsmStepKey5 (fsmAt 4 0 1 2 2 0) (fun t => t.fsm) = some ⟨5, 1, 0, 0, 3, 0⟩ := by
  decide +kernel

theorem test_fsm_cooldown : after .fsmStepKey4 (fsmAt 0 0 0 0 0 2) (fun t => t.fsm) = some ⟨0, 0, 0, 0, 0, 1⟩ := by
  decide +kernel

theorem test_fsm_silence_confirms : after .fsmStepSilence (fsmAt 4 4 0 0 0 0) (fun t => t.fsm)
    = some ⟨4, 0, 1, 1, 1, 0⟩ := by decide +kernel

theorem test_fsm_silence_emits : after .fsmStepSilence (fsmAt 4 0 4 2 2 0)
    (fun t => (t.fsm, t.outCount, t.mem.readWord 0x1000)) = some (⟨0, 0, 0, 0, 0, 0⟩, 1, 0x00044049) := by decide +kernel

theorem test_fsm_other_keys : [Instr.fsmStepKey1, .fsmStepKey2, .fsmStepKey3, .fsmStepKey6, .fsmStepKey7, .fsmStepKey8,
    .fsmStepKey9, .fsmStepKey10, .fsmStepKey11, .fsmStepKey12].map (fun i => after i .reset fun t => t.fsm.lk)
    = [1, 2, 3, 6, 7, 8, 9, 10, 11, 12].map some := by decide +kernel

theorem test_flush : after .seqFlush { inRun (fsmAt 4 4 2 0 5 1) 6 4 0 with winCount := 0 }
    (fun t => (statusWord t, t.fsm.cool, t.mem.readWord 0x1000)) = some (0x00000002, 0, 0x00034048) := by decide +kernel

/-- BUS-20: the flush of a run with no letter pending. -/
theorem test_flush_empty : after .seqFlush (inRun .reset 6 0 0) (fun t => (statusWord t, t.outCount)) = some (2, 0) := by
  decide +kernel

/-! Reset and the step. -/

theorem test_reset_pulse : (match step { inRun .reset 3 4 2 with port := ⟨[.rst], none, 0⟩ } with
    | .next t => some (statusWord t, t.cfg.sampleCount, t.port.agenda) | _ => none) = some (0, 0, []) := by decide +kernel

/-- SEQ-2 and an idle block (R320). -/
theorem test_step_sequencer : (match step (inRun .reset 6 0 0) with | .next t => some (statusWord t) | _ => none) = some 2
    ∧ step .reset = .next .reset := ⟨by decide +kernel, rfl⟩

theorem test_withFetchWord : (match step (State.reset.withFetchWord 32 0x1000014) with
    | .next t => some (t.port.resp, t.port.agenda) | _ => none) = some (some ⟨.okay, none⟩, [])
    ∧ (match step (State.reset.withFetchWord 8 4) with | .next t => some t.fsm.lk | _ => none) = some 4 := by decide +kernel

/-! Witnesses: for each statement with hypotheses, states and operands that meet them, at the boundaries of each clause. -/

/-- The checks of `State.Inv`, as propositions that can be decided. -/
abbrev InvChecks (s : State) : Prop :=
  (s.build.detector ≠ 3 ∧ 1 ≤ s.build.bufLen ∧ s.build.bufLen ≤ 0x100000 ∧ 1 ≤ s.build.outLen ∧ s.build.outLen ≤ 0x400)
  ∧ ((s.status.busy = true ↔ s.pos.phase ≠ 0) ∧ s.pos.phase ≠ 7
    ∧ (s.status.busy = true → s.status.done = false ∧ s.status.err = false)
    ∧ ¬(s.status.done = true ∧ s.status.err = true)
    ∧ (s.status.err = false → s.status.errCode = 0 ∧ s.errInfo = 0)
    ∧ (s.status.err = true → 1 ≤ s.status.errCode.toNat ∧ s.status.errCode.toNat ≤ 5))
  ∧ ((s.status.busy = true → s.total ≤ s.build.bufLen)
    ∧ (1 ≤ s.pos.phase.toNat → s.pos.phase.toNat ≤ 4 → s.pos.n ≤ s.total ∧ s.winCount = 0 ∧ s.outCount = 0)
    ∧ (s.pos.phase = 5 → s.pos.j ≤ s.windows ∧ s.winCount = BitVec.ofNat 32 s.pos.j)
    ∧ (s.pos.phase = 6 → s.winCount = BitVec.ofNat 32 s.windows))
  ∧ s.outCount.toNat ≤ s.build.outLen ∧ s.fsm.lk.toNat ≤ 12 ∧ s.mem.wf

theorem inv_of_checks (s : State) (h : InvChecks s) : s.Inv := by
  obtain ⟨h1, ⟨h2, h3, h4, h5, h6, h7⟩, ⟨h8, h9, h10, h11⟩, h12, h13, h14⟩ := h
  exact ⟨h1, ⟨h2, h3, h4, h5, h6, h7⟩, ⟨h8, h9, h10, h11⟩, h12, h13, h14⟩

/-- A state whose next stimulus is a 4-byte write. -/
def writeNext (s : State) (addr : BitVec 24) (wdata : Word) : State :=
  { s with port := { s.port with agenda := [.op (busRaw true addr .word wdata)] } }

theorem test_witness_DecodeOfEncode : (Instr.busReserved true 0xFFFFFC 1).wellFormed = true
    ∧ (Instr.busIllegal true 0x16 .word 1).wellFormed = true ∧ (Instr.wrSample 0xFFFFF 1).wellFormed = true := by decide

theorem test_witness_DecodedIsWellFormed : decode ⟨.bus, [0x6C, 0, 0, 0x01, 1, 0, 0, 0]⟩ = .instr (.wrBpA4 1) := by decide

theorem test_witness_DecodingOrder :
    ((BitVec.extractLsb' 0 2 (0x000002 : BitVec 24)) ≠ 0)
    ∧ ((0x00006C : BitVec 24).extractLsb' 0 2 = 0 ∧ (regRow true .bpA4).matches (selOf true 0x00006C) = true)
    ∧ (rdSampleRow.matches (selOf false 0x400000) = true ∧ rdSampleRow.matches (selOf false 0x7FFFFC) = true)
    ∧ (wrSampleRow.matches (selOf true 0x400000) = true ∧ wrSampleRow.matches (selOf true 0x7FFFFC) = true)
    ∧ (rdOutRow.matches (selOf false 0x001000) = true ∧ rdOutRow.matches (selOf false 0x001FFC) = true)
    ∧ (wrOutRow.matches (selOf true 0x001000) = true ∧ wrOutRow.matches (selOf true 0x001FFC) = true)
    ∧ (∀ row ∈ busRows, row.matches (selOf false 0x000070) = false)
    ∧ (∀ row ∈ busRows, row.matches (selOf true 0x000FFC) = false)
    ∧ (∀ row ∈ busRows, row.matches (selOf false 0x002000) = false)
    ∧ (∀ row ∈ busRows, row.matches (selOf true 0x3FFFFC) = false)
    ∧ ∀ row ∈ busRows, row.matches (selOf false 0x800000) = false := by decide +kernel

theorem test_witness_StepRunsDecodedOperation :
    State.reset.build.detector ≠ 3 ∧ (writeNext .reset 0x14 1).build.detector ≠ 3
    ∧ ((Instr.fsmStepKey4).wellFormed = true ∧ (encode .fsmStepKey4).fmt ≠ .seq)
    ∧ ((Instr.wrCtrl 1).wellFormed = true ∧ (encode (.wrCtrl 1)).fmt ≠ .seq ∧ (encode (.wrCtrl 1)).fmt = .bus)
    ∧ (writeNext .reset 0x14 1).port.agenda = .op (busRaw true 0x14 .word 1) :: [] := by decide +kernel

/-- Every phase, in the middle of its pass and at its end, at the turn of an empty agenda and of a tick. -/
theorem test_witness_SequencerPerformsSelectedRow :
    (State.reset.build.detector ≠ 3 ∧ State.reset.TurnOf .reset ∧ State.reset.pos.phase = 0)
    ∧ (∀ p ∈ [(1 : BitVec 3), 2, 3, 4, 5, 6, 7], ∀ n ∈ [3, 4],
      (inRun .reset p 4 n).build.detector ≠ 3 ∧ (inRun .reset p 4 n).TurnOf (inRun .reset p 4 n) ∧ (inRun .reset p 4 n).pos.phase = p)
    ∧ { inRun .reset 1 4 0 with port := ⟨[.tick], none, 0⟩ }.TurnOf (inRun .reset 1 4 0) :=
  ⟨⟨by decide, .inl ⟨rfl, rfl⟩, rfl⟩,
    fun _ _ _ _ => ⟨(by decide : State.reset.build.detector ≠ 3), .inl ⟨rfl, rfl⟩, rfl⟩, .inr ⟨[], rfl, rfl⟩⟩

theorem test_witness_ResetPulse : State.reset.build.detector ≠ 3
    ∧ { inRun .reset 3 4 2 with port := ⟨[.rst, .tick], none, 0⟩ }.port.agenda = .rst :: [.tick] :=
  ⟨by decide, rfl⟩

/-- A configuration that no build has: a host read of CAPS, a START and the end of a run are all refused (R120, R321). -/
theorem test_witness_ReservedRowsStop :
    let s (agenda : List Stimulus) : State :=
      { State.resetOf { Build.default with detector := 3 } with port := ⟨agenda, none, 0⟩ }
    (s []).build.detector = 3 ∧ step (s [.op (readAt 0x04)]) = .refused .noSuchBuild
    ∧ step (s [.op (busRaw true 0x14 .word 1)]) = .refused .noSuchBuild
    ∧ step (inRun (s []) 6 0 0) = .refused .noSuchBuild := ⟨rfl, rfl, rfl, rfl⟩

theorem test_witness_idle_writes : State.reset.status.busy = false ∧ Reg.gateFactor ∈ binary32Regs ∧ Reg.bpA4 ∈ binary32Regs
    ∧ (0x3 : Word).getLsbD 1 = true ∧ ((0x5 : Word).getLsbD 1 = false ∧ (0x5 : Word).getLsbD 0 = true)
    ∧ ((0x4 : Word).getLsbD 1 = false ∧ (0x4 : Word).getLsbD 0 = false) ∧ (inRun .reset 1 4 0).status.busy = true := by decide

theorem test_witness_SoftReset_regions : ¬(0x1000 ≤ 0xFFF ∧ 0xFFF < 0x2000) ∧ ¬(0x1000 ≤ 0x2000 ∧ 0x2000 < 0x2000)
    ∧ ¬(0x400000 ≤ sampleAddr 4 ∧ sampleAddr 4 < sampleAddr (inRun .reset 1 4 0).total) := by decide

theorem test_witness_SampleWrite : State.reset.mem.wf ∧ State.reset.status.busy = false
    ∧ (0xFFFFF : BitVec 20).toNat < State.reset.build.bufLen
    ∧ ({ Build.default with bufLen := 4 } : Build).bufLen ≤ (4 : BitVec 20).toNat
    ∧ ({ Build.default with outLen := 4 } : Build).outLen ≤ (4 : BitVec 10).toNat := by decide +kernel

theorem test_witness_BusyGate : (inRun .reset 1 4 0).status.busy = true
    ∧ (∀ r : Reg, decodeTransaction true 0x400000 .word 0 ≠ r.readRow)
    ∧ (∀ w : Word, decodeTransaction true 0x400000 .word 0 ≠ .wrCtrl w)
    ∧ (∀ r : Reg, decodeTransaction false 0x018 .byte 0 ≠ r.readRow)
    ∧ ∀ w : Word, decodeTransaction false 0x018 .byte 0 ≠ .wrCtrl w := by
  have h1 : decodeTransaction true 0x400000 .word 0 = .wrSample 0 0 := by decide
  have h2 : decodeTransaction false 0x018 .byte 0 = .busIllegal false 0x018 .byte 0 := by decide
  rw [h1, h2]
  refine ⟨rfl, ?_, ?_, ?_, ?_⟩ <;> intro r <;> first | exact Instr.noConfusion | (cases r <;> exact Instr.noConfusion)

theorem test_witness_HostCannotDisturbRun : (inRun .reset 1 4 0).status.busy = true ∧ isBusRow (.wrCtrl 4) = true
    ∧ (∀ w, Instr.wrCtrl 4 = .wrCtrl w → w.getLsbD 1 = false) :=
  ⟨rfl, by decide, by intro w h; cases h; rfl⟩

/-- The first and the last word of SAMPLE_RAM, finite and not. -/
theorem test_witness_preprocessor_steps :
    (inRun (withCells (cellsOf 0x7FFFFC 0 0 0x80 0x3F)) 1 0x100000 0xFFFFF).pos.n < State.reset.build.bufLen
    ∧ (inRun (withCells (cellsOf 0x7FFFFC 0 0 0x80 0x3F)) 1 0x100000 0xFFFFF).mem.wf
    ∧ (F32.ofBits ((withCells (cellsOf 0x7FFFFC 0 0 0x80 0x3F)).mem.readWord (sampleAddr 0xFFFFF))).isFinite = true
    ∧ (F32.ofBits ((withCells (cellsOf 0x400000 0 0 0x80 0x7F)).mem.readWord (sampleAddr 0))).isFinite = false := by
  decide +kernel

/-- The preprocessor's last computation: `e` of R147 for a state. -/
def filterResult (s : State) (w : Word) : F32 := s.emphasis (s.bandPass (s.normalized w))

theorem test_witness_FilterStep : (filterResult (inRun .reset 4 4 0) 0x3F800000).isFinite = true
    ∧ (filterResult { inRun .reset 4 4 0 with work := { Work.reset with norm := true } } 0).isFinite = false := by
  decide +kernel

/-- VarEnd's three clauses: all finite; ACC infinite; THR a NaN, by a NaN GATE_FACTOR (PRE-11). -/
theorem test_witness_VarEnd :
    (let s := inRun .reset 2 4 4
     s.work.acc.isFinite = true ∧ s.gateLevel.thr.isFinite = true ∧ s.gateLevel.gate.isFinite = true)
    ∧ (F32.inf false).isFinite = false
    ∧ (let s := { inRun .reset 2 4 4 with cfg := { (inRun .reset 2 4 4).cfg with gateFactor := 0x7FC00000 } }
       s.work.acc.isFinite = true ∧ s.gateLevel.thr.isFinite = false) := by decide +kernel

theorem test_witness_StatsEnd : State.reset.work.sum.isFinite = true ∧ State.reset.work.sumSq.isFinite = true
    ∧ ({ Work.reset with sumSq := .inf false } : Work).sumSq.isFinite = false := by decide

/-! Windows: one of zeros, and one whose last sample is a NaN. -/

theorem lookupCell_range' (b : Byte) (a : Nat) : ∀ n lo : Nat, lo ≤ a → a < lo + n →
    lookupCell ((List.range' lo n).map fun k => (k, b)) a = some b := by
  intro n
  induction n with
  | zero => intro lo h1 h2; omega
  | succ n ih =>
    intro lo h1 h2
    simp only [List.range'_succ, List.map_cons, lookupCell]
    split
    · rfl
    · exact ih (lo + 1) (by omega) (by omega)

/-- A state at window 0 of 2205 samples, all +0.0. -/
def zeroWindow : State := inRun (withCells ((List.range' 0x400000 8820).map fun k => (k, 0))) 5 2205 0

/-- A state at window 0 of 2205 samples whose last one is a NaN. -/
def nanWindow : State := inRun (withCells (cellsOf 0x402270 0 0 0xC0 0x7F)) 5 2205 0

theorem zeroWindow_word (n : Nat) (h : n < 2205) : zeroWindow.mem.readWord (sampleAddr n) = 0 := by
  have key (k : Nat) (hk : k < 8820) : zeroWindow.mem.read (0x400000 + k) = 0 := by
    show ((lookupCell ((List.range' 0x400000 8820).map fun k => (k, 0)) (0x400000 + k)).getD _) = 0
    rw [lookupCell_range' 0 _ _ _ (by omega) (by omega)]
    rfl
  have e : sampleAddr n = 0x400000 + 4 * n := rfl
  have h3 : zeroWindow.mem.read (sampleAddr n + 3) = 0 := by rw [e, Nat.add_assoc]; exact key _ (by omega)
  have h2 : zeroWindow.mem.read (sampleAddr n + 2) = 0 := by rw [e, Nat.add_assoc]; exact key _ (by omega)
  have h1 : zeroWindow.mem.read (sampleAddr n + 1) = 0 := by rw [e, Nat.add_assoc]; exact key _ (by omega)
  have h0 : zeroWindow.mem.read (sampleAddr n) = 0 := by rw [e]; exact key _ (by omega)
  unfold Memory.readWord
  rw [h3, h2, h1, h0]
  decide

theorem test_witness_ZeroWindowCompletes : zeroWindow.windowExists zeroWindow.pos.j
    ∧ (∀ n < 2205, zeroWindow.mem.readWord (sampleAddr (zeroWindow.pos.j * zeroWindow.build.stride + n)) = 0)
    ∧ (zeroWindow.build.detector = 0 ∨ zeroWindow.build.detector = 2)
    ∧ ({ Build.default with detector := 1 } : Build).detector = 1 := by
  refine ⟨by show 0 * 2205 + 2205 ≤ 0x100000; decide, ?_, .inl rfl, rfl⟩
  intro n h
  have : zeroWindow.pos.j * zeroWindow.build.stride + n = n := by
    show 0 * 2205 + n = n
    omega
  rw [this]
  exact zeroWindow_word n h

theorem zeroWindow_windowAt : zeroWindow.windowAt 0 = List.replicate 2205 (.fin false 0) := by
  apply List.ext_getElem
  · simp only [State.windowAt, Config.windowLength, List.length_map, List.length_range, List.length_replicate]
  · intro n h1 h2
    simp only [List.length_replicate] at h2
    simp only [State.windowAt, List.getElem_map, List.getElem_range, List.getElem_replicate]
    rw [show 0 * zeroWindow.build.stride + n = n by omega, zeroWindow_word n h2]
    decide

/-- A zero of either sign. -/
def isZero (x : F32) : Prop := ∃ s, x = .fin s 0

theorem isZero_add {x y : F32} (hx : isZero x) (hy : isZero y) : isZero (x.add y) := by
  obtain ⟨s, rfl⟩ := hx
  obtain ⟨t, rfl⟩ := hy
  exact ⟨_, F32.zero_add s t⟩

theorem isZero_sub {x y : F32} (hx : isZero x) (hy : isZero y) : isZero (x.sub y) := by
  obtain ⟨t, rfl⟩ := hy
  exact isZero_add hx ⟨!t, rfl⟩

theorem isZero_mul {x y : F32} (hx : isZero x) (hy : y.isFinite = true) : isZero (x.mul y) := by
  obtain ⟨s, rfl⟩ := hx
  exact F32.zero_mul s y hy

theorem isZero_mul' {x y : F32} (hx : x.isFinite = true) (hy : isZero y) : isZero (x.mul y) := by
  obtain ⟨s, rfl⟩ := hy
  exact F32.mul_zero s x hx

theorem isZero_finite {x : F32} (h : isZero x) : x.isFinite = true := by
  obtain ⟨s, rfl⟩ := h
  rfl

theorem goertzel_zero (c : F32) (hc : c.isFinite = true) (k n : Nat) (s1 s2 : F32) (h1 : isZero s1) (h2 : isZero s2) :
    isZero (goertzel c n s1 s2 (List.replicate k (.fin false 0))).1
      ∧ isZero (goertzel c n s1 s2 (List.replicate k (.fin false 0))).2 := by
  induction k generalizing n s1 s2 with
  | zero => exact ⟨h1, h2⟩
  | succ k ih =>
    exact ih _ _ _ (isZero_sub (isZero_add (isZero_mul ⟨false, rfl⟩ (Rom.hamming_isFinite n)) (isZero_mul' hc h1)) h2) h1

theorem toneMag_zero (k f : Nat) : isZero (toneMag (List.replicate k (.fin false 0)) f) := by
  have hc := Rom.gcoef_isFinite f
  obtain ⟨h1, h2⟩ := goertzel_zero _ hc k 0 .zero .zero ⟨false, rfl⟩ ⟨false, rfl⟩
  have hp : isZero (goertzelPower (Rom.gcoef f)
      (goertzel (Rom.gcoef f) 0 .zero .zero (List.replicate k (.fin false 0))).1
      (goertzel (Rom.gcoef f) 0 .zero .zero (List.replicate k (.fin false 0))).2) :=
    isZero_sub (isZero_add (isZero_mul h1 (isZero_finite h1)) (isZero_mul h2 (isZero_finite h2)))
      (isZero_mul (isZero_mul' hc h1) (isZero_finite h2))
  obtain ⟨s, e⟩ := hp
  simp only [toneMag, e]
  split
  · exact ⟨false, rfl⟩
  · exact ⟨s, rfl⟩

theorem decideClass_zeros (s0 s1 s2 s3 s4 s5 s6 : Bool) :
    (let m : List F32 := [.fin s0 0, .fin s1 0, .fin s2 0, .fin s3 0, .fin s4 0, .fin s5 0, .fin s6 0]
     decideClass m (Rom.keys.map (toneKeyMag m)) (.ofBits 0x40800000) fun _ => true) = some 0 := by
  revert s0 s1 s2 s3 s4 s5 s6
  decide +kernel

/-- A window of zeros is class 0 of the Goertzel variant under the reset NOISE_FLOOR (DET-1). -/
theorem zeroWindow_class : goertzelClass zeroWindow (zeroWindow.windowAt 0) = some 0 := by
  rw [zeroWindow_windowAt]
  have hm := toneMag_zero 2205
  simp only [goertzelClass, classifyGoertzel]
  obtain ⟨s0, e0⟩ := hm 697
  obtain ⟨s1, e1⟩ := hm 770
  obtain ⟨s2, e2⟩ := hm 852
  obtain ⟨s3, e3⟩ := hm 941
  obtain ⟨s4, e4⟩ := hm 1209
  obtain ⟨s5, e5⟩ := hm 1336
  obtain ⟨s6, e6⟩ := hm 1477
  have e : Rom.freqs.map (toneMag (List.replicate 2205 (.fin false 0)))
      = [.fin s0 0, .fin s1 0, .fin s2 0, .fin s3 0, .fin s4 0, .fin s5 0, .fin s6 0] := by
    simp only [Rom.freqs, Rom.low, Rom.high, List.cons_append, List.nil_append, List.map_cons, List.map_nil, e0, e1, e2,
      e3, e4, e5, e6]
  rw [e]
  exact decideClass_zeros s0 s1 s2 s3 s4 s5 s6

theorem goertzel_nan_last (c : F32) (n : Nat) (s1 s2 : F32) (xs : List F32) :
    (goertzel c n s1 s2 (xs ++ [.nan])).1 = .nan := by
  induction xs generalizing n s1 s2 with
  | nil => rfl
  | cons x xs ih => exact ih ..

theorem toneMag_nan_last (xs : List F32) (f : Nat) : toneMag (xs ++ [.nan]) f = .nan := by
  simp only [toneMag, goertzelPower, goertzel_nan_last]
  rfl

theorem nanWindow_windowAt : ∃ xs, nanWindow.windowAt 0 = xs ++ [.nan] := by
  refine ⟨(List.range 2204).map fun n => F32.ofBits (nanWindow.mem.readWord (sampleAddr (0 * nanWindow.build.stride + n))), ?_⟩
  simp only [State.windowAt, Config.windowLength, List.range_succ (n := 2204), List.map_append, List.map_cons, List.map_nil]
  rw [show F32.ofBits (nanWindow.mem.readWord (sampleAddr (0 * nanWindow.build.stride + 2204))) = .nan by decide +kernel]

/-- A NaN in a window gives no class (DET-12). -/
theorem nanWindow_class : goertzelClass nanWindow (nanWindow.windowAt 0) = none := by
  obtain ⟨xs, e⟩ := nanWindow_windowAt
  rw [e]
  simp only [goertzelClass, classifyGoertzel, decideClass, Rom.freqs, Rom.low, List.cons_append, List.map_cons,
    toneMag_nan_last]
  rfl

theorem test_witness_windowExists : State.reset.windowExists 0 ∧ State.reset.windowExists 474
    ∧ { State.reset with build := { Build.default with halfStride := true, bufLen := 2205 } }.windowExists 0 := by
  refine ⟨?_, ?_, ?_⟩
  · show 0 * 2205 + 2205 ≤ 0x100000
    decide
  · show 474 * 2205 + 2205 ≤ 0x100000
    decide
  · show 0 * 1102 + 2205 ≤ 2205
    decide

/-! A window whose last sample alone is not zero, and the spectral magnitudes of the windows above. -/

/-- A state at window 0 of 2205 samples, all +0.0 but the last, which is 1000.0. -/
def lastWindow : State :=
  inRun (withCells ((List.range' 0x400000 8816).map (fun k => (k, 0)) ++ cellsOf 0x402270 0 0 0x7A 0x44)) 5 2205 0

theorem lookupCell_append {b : Byte} (a : Nat) (m : List Host.Cell) : ∀ l : List Host.Cell,
    lookupCell l a = some b → lookupCell (l ++ m) a = some b := by
  intro l
  induction l with
  | nil => intro h; cases h
  | cons c l ih =>
    intro h
    simp only [List.cons_append, lookupCell] at h ⊢
    split
    · rw [if_pos ‹_›] at h
      exact h
    · rw [if_neg ‹_›] at h
      exact ih h

theorem lookupCell_skip (b : Byte) (a : Nat) (m : List Host.Cell) : ∀ n lo : Nat, lo + n ≤ a →
    lookupCell ((List.range' lo n).map (fun k => (k, b)) ++ m) a = lookupCell m a := by
  intro n
  induction n with
  | zero => intro lo _; rfl
  | succ n ih =>
    intro lo h
    simp only [List.range'_succ, List.map_cons, List.cons_append, lookupCell]
    rw [if_neg (by omega)]
    exact ih (lo + 1) (by omega)

theorem lastWindow_windowAt : lastWindow.windowAt 0 = List.replicate 2204 (.fin false 0) ++ [F32.ofBits 0x447A0000] := by
  have hz (n : Nat) (h : n < 2204) : lastWindow.mem.readWord (sampleAddr n) = 0 := by
    have key (k : Nat) (hk : k < 8816) : lastWindow.mem.read (0x400000 + k) = 0 := by
      show ((lookupCell ((List.range' 0x400000 8816).map (fun k => (k, 0)) ++ _) (0x400000 + k)).getD _) = 0
      rw [lookupCell_append _ _ _ (lookupCell_range' 0 _ _ _ (by omega) (by omega))]
      rfl
    have e : sampleAddr n = 0x400000 + 4 * n := rfl
    have h3 : lastWindow.mem.read (sampleAddr n + 3) = 0 := by rw [e, Nat.add_assoc]; exact key _ (by omega)
    have h2 : lastWindow.mem.read (sampleAddr n + 2) = 0 := by rw [e, Nat.add_assoc]; exact key _ (by omega)
    have h1 : lastWindow.mem.read (sampleAddr n + 1) = 0 := by rw [e, Nat.add_assoc]; exact key _ (by omega)
    have h0 : lastWindow.mem.read (sampleAddr n) = 0 := by rw [e]; exact key _ (by omega)
    unfold Memory.readWord
    rw [h3, h2, h1, h0]
    decide
  have hl : lastWindow.mem.readWord (sampleAddr 2204) = 0x447A0000 := by
    have key (k : Nat) (b : Byte) (hk : 8816 ≤ k) (h : lookupCell (cellsOf 0x402270 0 0 0x7A 0x44) (0x400000 + k) = some b) :
        lastWindow.mem.read (0x400000 + k) = b := by
      show ((lookupCell ((List.range' 0x400000 8816).map (fun k => (k, 0)) ++ _) (0x400000 + k)).getD _) = b
      rw [lookupCell_skip 0 _ _ _ _ (by omega), h]
      rfl
    have h3 : lastWindow.mem.read (sampleAddr 2204 + 3) = 0x44 := key 8819 _ (by decide) (by decide)
    have h2 : lastWindow.mem.read (sampleAddr 2204 + 2) = 0x7A := key 8818 _ (by decide) (by decide)
    have h1 : lastWindow.mem.read (sampleAddr 2204 + 1) = 0 := key 8817 _ (by decide) (by decide)
    have h0 : lastWindow.mem.read (sampleAddr 2204) = 0 := key 8816 _ (by decide) (by decide)
    unfold Memory.readWord
    rw [h3, h2, h1, h0]
    decide
  simp only [State.windowAt, Config.windowLength, List.range_succ (n := 2204), List.map_append, List.map_cons, List.map_nil]
  have hw : F32.ofBits (lastWindow.mem.readWord (sampleAddr (0 * lastWindow.build.stride + 2204))) = F32.ofBits 0x447A0000 :=
    congrArg F32.ofBits (Eq.trans (by rw [Nat.zero_mul, Nat.zero_add]) hl)
  refine congrArg₂ (fun xs y => xs ++ [y]) ?_ hw
  apply List.ext_getElem
  · simp only [List.length_map, List.length_range, List.length_replicate]
  · intro n h1 h2
    simp only [List.length_replicate] at h2
    simp only [List.getElem_map, List.getElem_range, List.getElem_replicate]
    rw [show 0 * lastWindow.build.stride + n = n by omega, hz n h2]
    decide

/-- One nonzero sample has the same magnitude, 1000.0 · HAMMING[2204], at every tone. -/
theorem toneMag_lastWindow (f : Nat) (hf : f ∈ Rom.freqs) :
    toneMag (List.replicate 2204 (.fin false 0) ++ [F32.ofBits 0x447A0000]) f = .ofBits 1117782016 := by
  obtain ⟨⟨s, e1⟩, ⟨t, e2⟩⟩ :=
    goertzel_zero _ (Rom.gcoef_isFinite f) 2204 0 .zero .zero ⟨false, rfl⟩ ⟨false, rfl⟩
  unfold toneMag
  simp only [goertzel_append, e1, e2, List.length_replicate]
  have key : ∀ f ∈ Rom.freqs, ∀ s t : Bool,
      (let v := ((((F32.ofBits 0x447A0000).mul (Rom.hamming (0 + 2204))).add ((Rom.gcoef f).mul (.fin s 0))).sub (.fin t 0))
       let p := goertzelPower (Rom.gcoef f) v (.fin s 0)
       if F32.lt p .zero then F32.zero else p.sqrt) = .ofBits 1117782016 := by decide +kernel
  exact key f hf s t

theorem map_const7 {w : List F32} {v : F32} (h : ∀ f ∈ Rom.freqs, toneMag w f = v) :
    Rom.freqs.map (toneMag w) = List.replicate 7 v := List.map_congr_left h

theorem map_const21 {w : List F32} {v : F32} (h : ∀ b, binMag w b = v) : allBins.map (binMag w) = List.replicate 21 v :=
  List.map_congr_left fun b _ => h b

theorem binMag_of_dft {b : Nat} {w : List F32} (h : dft b 0 .zero .zero w = (.fin false 0, .fin false 0)) :
    binMag w b = .fin false 0 := by
  unfold binMag
  rw [h]
  decide +kernel

/-- The strict variant accepts the best key of a balanced window. -/
theorem lastWindow_class : strictClass lastWindow (lastWindow.windowAt 0) = some 1 := by
  have e := map_const7 toneMag_lastWindow
  rw [← lastWindow_windowAt] at e
  unfold strictClass classifyStrict
  rw [e]
  decide +kernel

theorem dft_zero (b k n : Nat) :
    dft b n (.fin false 0) (.fin false 0) (List.replicate k (.fin false 0)) = (.fin false 0, .fin false 0) := by
  induction k generalizing n with
  | zero => rfl
  | succ k ih =>
    obtain ⟨s, h⟩ := F32.zero_mul false _ (Rom.hann_isFinite n)
    obtain ⟨t, ht⟩ := F32.zero_mul s _ (Rom.cosT_isFinite (b * n % Config.transformSize))
    obtain ⟨u, hu⟩ := F32.zero_mul s _ (Rom.sinT_isFinite (b * n % Config.transformSize))
    rw [List.replicate_succ]
    unfold dft
    dsimp only
    rw [h, ht, hu, F32.sub, F32.negate, F32.zero_add, F32.zero_add, Bool.false_and, Bool.false_and]
    exact ih (n + 1)

theorem binMag_nan_last (xs : List F32) (b : Nat) : binMag (xs ++ [.nan]) b = .nan := by
  unfold binMag
  rw [dft_append]
  dsimp only
  rw [show F32.mul .nan (Rom.hann (0 + xs.length)) = .nan from rfl]
  rw [show F32.mul .nan (Rom.cosT (b * (0 + xs.length) % Config.transformSize)) = .nan from rfl, F32.add_nan]
  rfl

/-- A window of zeros is class 0 of the spectral variant under the reset NOISE_FLOOR. -/
theorem zeroWindow_spectral : spectralClass zeroWindow (zeroWindow.windowAt 0) = some 0 := by
  have e := map_const21 fun b => binMag_of_dft (dft_zero b 2205 0)
  rw [← zeroWindow_windowAt] at e
  unfold spectralClass classifySpectral
  rw [e]
  decide +kernel

/-- A NaN in a window gives no class of the spectral and the strict variant either. -/
theorem nanWindow_others : spectralClass nanWindow (nanWindow.windowAt 0) = none
    ∧ strictClass nanWindow (nanWindow.windowAt 0) = none := by
  obtain ⟨xs, e⟩ := nanWindow_windowAt
  rw [e]
  constructor
  · unfold spectralClass classifySpectral
    rw [map_const21 (binMag_nan_last xs)]
    decide +kernel
  · unfold strictClass classifyStrict
    rw [map_const7 fun f _ => toneMag_nan_last xs f]
    decide +kernel

/-- GoertzelClassification's and StrictClassification's branches: a rejected window, an accepted one, one that is not finite. -/
theorem test_witness_StrictClassification : lastWindow.windowExists lastWindow.pos.j
    ∧ strictClass lastWindow (lastWindow.windowAt lastWindow.pos.j) = some 1
    ∧ goertzelClass zeroWindow (zeroWindow.windowAt zeroWindow.pos.j) = some 0
    ∧ nanWindow.windowExists nanWindow.pos.j ∧ strictClass nanWindow (nanWindow.windowAt nanWindow.pos.j) = none :=
  ⟨test_witness_windowExists.1, lastWindow_class, zeroWindow_class, test_witness_windowExists.1, nanWindow_others.2⟩

/-- SpectralClassification's branches: a window whose magnitudes are finite, and one where they are not. -/
theorem test_witness_SpectralClassification : zeroWindow.windowExists zeroWindow.pos.j
    ∧ spectralClass zeroWindow (zeroWindow.windowAt zeroWindow.pos.j) = some 0
    ∧ nanWindow.windowExists nanWindow.pos.j ∧ spectralClass nanWindow (nanWindow.windowAt nanWindow.pos.j) = none :=
  ⟨test_witness_windowExists.1, zeroWindow_spectral, test_witness_windowExists.1, nanWindow_others.1⟩

/-- DetectStep's two clauses: a window with a class, and one without. -/
theorem test_witness_DetectStep : zeroWindow.windowExists zeroWindow.pos.j
    ∧ detectorOf zeroWindow.build.detector = some goertzelClass
    ∧ goertzelClass zeroWindow (zeroWindow.windowAt zeroWindow.pos.j) = some 0
    ∧ nanWindow.windowExists nanWindow.pos.j ∧ detectorOf nanWindow.build.detector = some goertzelClass
    ∧ goertzelClass nanWindow (nanWindow.windowAt nanWindow.pos.j) = none :=
  ⟨test_witness_windowExists.1, rfl, zeroWindow_class, test_witness_windowExists.1, rfl, nanWindow_class⟩

/-- Two states with the same window, at a boundary of SAMPLE_RAM. -/
theorem test_witness_WindowsAreIndependent :
    let s := State.reset
    let t := { inRun .reset 5 2205 0 with irqEn := true, outCount := 7 }
    s.windowExists 474 ∧ t.windowExists 474
    ∧ (∀ n < 2205, s.mem.readWord (sampleAddr (474 * s.build.stride + n))
        = t.mem.readWord (sampleAddr (474 * t.build.stride + n)))
    ∧ s.cfg.noiseFloor = t.cfg.noiseFloor ∧ s.cfg.toneFloor = t.cfg.toneFloor ∧ s.cfg.ratioThr = t.cfg.ratioThr
    ∧ detectorOf 1 = some strictClass ∧ s.window? 474 = some (s.windowAt 474) :=
  ⟨test_witness_windowExists.2.1, test_witness_windowExists.2.1, fun _ _ => rfl, rfl, rfl, rfl, rfl,
    if_pos (by show 474 * 2205 + 2205 ≤ 0x100000; decide)⟩

theorem test_witness_ClassCodeRange :
    classifyGoertzel (zeroWindow.windowAt 0) (.ofBits zeroWindow.cfg.noiseFloor) = some 0 := zeroWindow_class

theorem test_witness_BestKeyIsFirstMaximum :
    (let ks := List.replicate 12 F32.zero
     ks.length = 12 ∧ (∀ x ∈ ks, x.isFinite = true) ∧ bestKey ks = 1)
    ∧ (let ks := Rom.keys.map F32.ofNat
       ks.length = 12 ∧ (∀ x ∈ ks, x.isFinite = true) ∧ bestKey ks = 12) := by decide +kernel

/-- The FSM statements: each clause of KeyStep at the guard's boundary, the pause's boundary, a cooldown of 1. -/
theorem test_witness_fsm :
    ((4, Instr.fsmStepKey4) ∈ keyRows ∧ (12, Instr.fsmStepKey12) ∈ keyRows)
    ∧ ((fsmAt 0 0 0 1 1 0).fsm.cool = 0 ∧ (fsmAt 0 0 0 1 1 0).fsm.lk = 0)
    ∧ ((fsmAt 4 255 0 0 0 0).fsm.cool = 0 ∧ (4 : BitVec 4) = (fsmAt 4 255 0 0 0 0).fsm.lk ∧ (4 : BitVec 4) ≠ 0)
    ∧ ((5 : BitVec 4) ≠ (fsmAt 4 0 1 1 1 0).fsm.lk ∧ (2 : Byte) ≠ 0 ∧ (2 : Byte).toNat - 1 ≤ (fsmAt 4 0 1 1 1 0).guard.toNat)
    ∧ ((5 : BitVec 4) ≠ (fsmAt 4 0 1 2 2 0).fsm.lk
      ∧ ¬((3 : Byte) ≠ 0 ∧ (3 : Byte).toNat - 1 ≤ (fsmAt 4 0 1 2 2 0).guard.toNat))
    ∧ (fsmAt 4 0 1 2 2 1).fsm.cool ≠ 0 := by decide

theorem test_witness_SilenceStep : (fsmAt 4 4 255 2 2 0).fsm.cool = 0
    ∧ (3 : Byte).toNat = min ((fsmAt 4 4 255 2 2 0).fsm.sil.toNat + 1) 255
    ∧ (3 : Byte).toNat = (if (fsmAt 4 4 255 2 2 0).fsm.sil = 0 then 1 else min ((fsmAt 4 4 255 2 2 0).fsm.gap.toNat + 1) 255)
    ∧ (255 : Byte).toNat = (if (fsmAt 4 4 255 2 2 0).confirm.toNat ≤ (fsmAt 4 4 255 2 2 0).fsm.same.toNat then
        min ((fsmAt 4 4 255 2 2 0).fsm.press.toNat + 1) 255 else (fsmAt 4 4 255 2 2 0).fsm.press.toNat) := by decide

theorem test_witness_Flush : (255 : Byte).toNat = min ((fsmAt 4 4 255 0 0 0).fsm.press.toNat
    + (if (fsmAt 4 4 255 0 0 0).confirm.toNat ≤ (fsmAt 4 4 255 0 0 0).fsm.same.toNat then 1 else 0)) 255 := by decide

theorem test_witness_Emission : State.reset.mem.wf ∧ State.reset.build.outLen ≤ 1024
    ∧ { State.reset with outCount := 1023 }.outCount.toNat < State.reset.build.outLen
    ∧ State.reset.build.outLen ≤ { State.reset with outCount := 1024 }.outCount.toNat
    ∧ symtab 4 3 = some 0x48 ∧ symtab 4 0 = none := by decide +kernel

theorem test_witness_ShortRunsAddNoPress : (fsmAt 4 0 1 2 2 0).fsm.cool = 0 ∧ (fsmAt 4 0 1 2 2 0).fsm.lk ≠ 0
    ∧ (fsmAt 4 0 1 2 2 0).fsm.same = 0 ∧ 2 ≤ (fsmAt 4 0 1 2 2 0).pause.toNat ∧ (fsmAt 4 0 1 2 2 0).confirm.toNat = 4 := by
  decide

/-! Invariants and runs. -/

theorem test_witness_inv_flush : (inRun .reset 6 0 0).Inv := inv_of_checks _ (by decide +kernel)

theorem test_witness_inv_start : { State.reset with cfg := { State.reset.cfg with sampleCount := 0x00100000 } }.Inv :=
  inv_of_checks _ (by decide +kernel)

theorem test_witness_IrqRisesAtRunEnd : isMicroOp .seqFlush = true ∧ (inRun .reset 6 0 0).StatusLegal
    ∧ (inRun .reset 6 0 0).status.busy = true ∧ ∃ t, exec .seqFlush (inRun .reset 6 0 0) = .next t :=
  ⟨rfl, test_witness_inv_flush.status, rfl, _, rfl⟩

/-- A micro-operation that raises each of the errors 2 to 5. -/
theorem test_witness_ErrorEntry :
    (∃ t, exec .seqStatsStep (inRun (withCells (cellsOf 0x400000 0 0 0x80 0x7F)) 1 4 0) = .next t ∧ t.status.err = true)
    ∧ (∃ t, exec .seqStatsEnd { inRun .reset 1 4 4 with work := { Work.reset with sum := .nan } } = .next t
      ∧ t.status.err = true)
    ∧ (∃ t, exec .seqVarEnd { inRun .reset 2 4 4 with work := { Work.reset with acc := .inf false } } = .next t
      ∧ t.status.err = true)
    ∧ (∃ t, exec .seqFilterStep { inRun (withCells (cellsOf 0x400000 0 0 0 0)) 4 4 0 with
        work := { Work.reset with norm := true } } = .next t ∧ t.status.err = true)
    ∧ (∃ t, exec .seqDetectStep nanWindow = .next t ∧ t.status.err = true)
    ∧ nanWindow.status.err = false := by
  have key (i : Instr) (s : State) (h : after i s (fun t => t.status.err) = some true) :
      ∃ t, exec i s = .next t ∧ t.status.err = true := by
    unfold after at h
    split at h
    · exact ⟨_, ‹_›, by simpa using h⟩
    · cases h
  refine ⟨key _ _ (by decide +kernel), key _ _ (by decide +kernel), key _ _ (by decide +kernel),
    key _ _ (by decide +kernel), ?_, rfl⟩
  refine ⟨nanWindow.raise errDetect 0, ?_, rfl⟩
  · show classifyWindow nanWindow goertzelClass stepWindow = _
    unfold classifyWindow
    rw [show nanWindow.window? nanWindow.pos.j = some (nanWindow.windowAt 0) from
      if_pos (by show 0 * 2205 + 2205 ≤ 0x100000; decide)]
    simp only [nanWindow_class]
    rfl

theorem test_witness_FlagsSetOnlyWhereTheRulesSay :
    ∃ t, exec .seqFlush (inRun .reset 6 0 0) = .next t ∧ t.status.done = true := ⟨_, rfl, rfl⟩

theorem test_witness_StepKeepsLegal : (writeNext .reset 0x14 1).Inv ∧ (∃ t, step (writeNext .reset 0x14 1) = .next t)
    ∧ (writeNext .reset 0x14 1).work.representable = true ∧ (writeNext .reset 0x14 1).line.representable = true :=
  ⟨inv_of_checks _ (by decide +kernel), ⟨_, rfl⟩, by decide +kernel, by decide +kernel⟩

theorem test_witness_MemoryFrame : State.reset.mem.wf ∧ (∃ t, exec (.wrSample 0 1) .reset = .next t)
    ∧ (∀ w, Instr.wrSample 0 1 ≠ .wrCtrl w) ∧ storeAddr (.wrSample 0 1) .reset = some 0x400000
    ∧ ∃ t, exec (.wrCtrl 2) (inRun .reset 1 4 0) = .next t :=
  ⟨by decide, ⟨_, rfl⟩, fun _ => Instr.noConfusion, rfl, ⟨_, rfl⟩⟩

theorem test_witness_RunIgnoresHostState : isMicroOp .seqFlush = true
    ∧ (inRun .reset 6 0 0).core = { inRun .reset 6 0 0 with irqEn := true, port := ⟨[], some ⟨.error, none⟩, 0⟩ }.core :=
  ⟨rfl, rfl⟩

theorem test_witness_MicroStepMakesProgress : (inRun .reset 6 0 0).Inv ∧ (inRun .reset 6 0 0).port.agenda = []
    ∧ (inRun .reset 6 0 0).pos.phase ≠ 0 ∧ ∃ t, step (inRun .reset 6 0 0) = .next t :=
  ⟨test_witness_inv_flush, rfl, by decide, _, rfl⟩

/-- A run of no sample, and one that fills SAMPLE_RAM. -/
theorem test_witness_RunEnds : State.reset.Inv ∧ State.reset.total ≤ State.reset.build.bufLen
    ∧ (let s := { State.reset with cfg := { State.reset.cfg with sampleCount := 0x00100000 } }
       s.Inv ∧ s.port.agenda = [] ∧ s.status.busy = false ∧ s.total ≤ s.build.bufLen)
    ∧ (1 : Word).getLsbD 1 = false ∧ (1 : Word).getLsbD 0 = true :=
  ⟨inv_of_checks _ (by decide +kernel), by decide, ⟨test_witness_inv_start, rfl, rfl, by decide +kernel⟩, rfl, rfl⟩

theorem test_witness_LegalMachineNeverStops : (writeNext .reset 0x14 1).Inv ∧ (writeNext .reset 0x14 1).PhysicalAgenda := by
  refine ⟨test_witness_StepKeepsLegal.1, ?_⟩
  intro x hx
  cases hx with
  | head => exact ⟨true, 0x14, .word, 1, rfl⟩
  | tail _ h => cases h

/-- A tie, an inexact quotient, and an overflow. -/
theorem test_witness_RoundingIsNearestEven : roundF32 false (2 ^ 24 + 1) 1 = .fin false (2 ^ 24)
    ∧ roundF32 true 1 3 = .fin true 0 ∧ roundF32 false overflowMag 1 = .inf false := by decide +kernel

/-- The two sides of the overflow boundary: the midpoint past the largest finite magnitude, and one unit below it (R21). -/
theorem test_rounding_overflow : roundF32 false ((2 ^ 25 - 1) * 2 ^ 252) 1 = .inf false
    ∧ roundF32 false ((2 ^ 25 - 1) * 2 ^ 252 - 1) 1 = F32.ofBits 0x7F7FFFFF := by decide +kernel

/-- The least and the largest finite magnitude, and the largest number whose root is taken. -/
theorem test_witness_IntegerRoot : (F32.fin false 1).representable = true
    ∧ (F32.fin false ((2 ^ 24 - 1) * 2 ^ 253)).representable = true ∧ (2 ^ 24 - 1) * 2 ^ 253 * 2 ^ 149 < 2 ^ 428 := by
  decide +kernel

theorem test_witness_PatternRoundTrip : F32.ofBits 0x7F7FFFFF ≠ .nan ∧ F32.fin true 1 ≠ .nan
    ∧ (F32.fin true 1).representable = true := by decide +kernel

end Sys2Proof.Tests
end

section
/-! PROOFS. What binary32 arithmetic answers is a binary32 value, and the working registers and the delay line hold only such
values (R21, R53, R54). -/

namespace Sys2Proof

/-! Operations answer binary32 values (R21), whatever their operands are. -/

theorem representable_iff (s : Bool) (m : Nat) :
    (F32.fin s m).representable = true ↔ m < overflowMag ∧ 2 ^ (Nat.log2 m - 23) ∣ m := by
  simp [F32.representable, Nat.dvd_iff_mod_eq_zero]

/-- A significand of 24 bits, scaled by an exponent of the format. -/
theorem representable_of_significand (s : Bool) {m q : Nat} (hm : m < 2 ^ 24) (hq : q ≤ 253) :
    (F32.fin s (m * 2 ^ q)).representable = true := by
  have hlt : m * 2 ^ q < 2 ^ (24 + q) := by
    rw [Nat.pow_add]
    exact Nat.mul_lt_mul_of_pos_right hm (Nat.two_pow_pos q)
  rw [representable_iff]
  constructor
  · rw [overflowMag]
    exact lt_of_lt_of_le hlt (Nat.pow_le_pow_right (by omega) (by omega))
  · by_cases h0 : m * 2 ^ q = 0
    · rw [h0]
      exact Nat.dvd_zero _
    · have hlog : Nat.log2 (m * 2 ^ q) < 24 + q := (Nat.log2_lt h0).2 hlt
      exact (Nat.pow_dvd_pow 2 (by omega)).trans (Nat.dvd_mul_left _ _)

@[simp] theorem representable_zero (s : Bool) : (F32.fin s 0).representable = true := by
  simpa using representable_of_significand s (m := 0) (q := 0) (by omega) (by omega)

@[simp] theorem F32.zero_representable : F32.zero.representable = true := representable_zero false

theorem roundF32_representable (neg : Bool) (num : Nat) {den : Nat} (hd : 0 < den) :
    (roundF32 neg num den).representable = true := by
  simp only [roundF32]
  split
  · rfl
  · exact (roundMag_nearest hd (Nat.lt_of_not_le ‹_›)).1

@[simp] theorem F32.add_representable (x y : F32) : (x.add y).representable = true := by
  unfold F32.add
  split
  case h_6 =>
    dsimp only
    split
    · exact representable_zero _
    · exact roundF32_representable _ _ Nat.one_pos
  case h_3 => split <;> rfl
  all_goals rfl

@[simp] theorem F32.sub_representable (x y : F32) : (x.sub y).representable = true := F32.add_representable ..

@[simp] theorem F32.mul_representable (x y : F32) : (x.mul y).representable = true := by
  unfold F32.mul
  split
  case h_6 => exact roundF32_representable _ _ (Nat.two_pow_pos 149)
  case h_4 => split <;> rfl
  case h_5 => split <;> rfl
  all_goals rfl

@[simp] theorem F32.div_representable (x y : F32) : (x.div y).representable = true := by
  unfold F32.div
  split
  case h_6 =>
    split
    · split <;> rfl
    · exact roundF32_representable _ _ (by omega)
  case h_5 => exact representable_zero _
  all_goals rfl

@[simp] theorem F32.sqrt_representable (x : F32) : x.sqrt.representable = true := by
  unfold F32.sqrt
  split
  case h_4 => exact representable_zero _
  case h_6 => exact roundF32_representable _ _ Nat.two_pos
  all_goals rfl

@[simp] theorem F32.abs_representable (x : F32) : x.abs.representable = x.representable := by cases x <;> rfl

/-- The datum of any pattern is a binary32 value (R90). -/
@[simp] theorem F32.ofBits_representable (w : Word) : (F32.ofBits w).representable = true := by
  have hfr := (w.extractLsb' 0 23).isLt
  have hex := (w.extractLsb' 23 8).isLt
  simp only [F32.ofBits]
  generalize (w.extractLsb' 0 23).toNat = fr at hfr ⊢
  generalize (w.extractLsb' 23 8).toNat = ex at hex ⊢
  split
  · split <;> rfl
  · split
    · simpa using representable_of_significand (w.getLsbD 31) (m := fr) (q := 0) (by omega) (by omega)
    · exact representable_of_significand _ (by omega) (by omega)

end Sys2Proof

namespace Sys2Proof.Machine

/-! What every step keeps (R53, R54). -/

/-- The working registers and the delay line hold binary32 values. -/
def State.Binary32 (s : State) : Prop := s.work.representable = true ∧ s.line.representable = true

theorem Work.representable_iff (w : Work) : w.representable = true ↔ w.sum.representable = true
    ∧ w.sumSq.representable = true ∧ w.mean.representable = true ∧ w.acc.representable = true
    ∧ w.std.representable = true ∧ w.rms.representable = true ∧ w.thr.representable = true
    ∧ w.gate.representable = true ∧ w.maxAbs.representable = true := by
  simp only [Work.representable, Bool.and_eq_true, and_assoc]

theorem DelayLine.representable_iff (l : DelayLine) : l.representable = true ↔ l.x1.representable = true
    ∧ l.x2.representable = true ∧ l.x3.representable = true ∧ l.x4.representable = true ∧ l.y1.representable = true
    ∧ l.y2.representable = true ∧ l.y3.representable = true ∧ l.y4.representable = true := by
  simp only [DelayLine.representable, Bool.and_eq_true, and_assoc]

@[simp] theorem Work.reset_representable : Work.reset.representable = true := by
  simp [Work.representable_iff, Work.reset]

@[simp] theorem DelayLine.reset_representable : DelayLine.reset.representable = true := by
  simp [DelayLine.representable_iff, DelayLine.reset]

/-- STD, RMS, THR and GATE are fresh results (R144). -/
theorem State.gateLevel_representable {s : State} (h : s.work.representable = true) :
    s.gateLevel.representable = true := by
  simp_all [Work.representable_iff, State.gateLevel]

/-- The quotient or the sample itself (R148). -/
theorem State.normalized_representable (s : State) (w : Word) : (s.normalized w).representable = true := by
  unfold State.normalized
  split <;> simp

theorem State.bandPass_representable (s : State) (u : F32) : (s.bandPass u).representable = true :=
  F32.sub_representable ..

theorem DelayLine.shift_representable {l : DelayLine} {u y : F32} (h : l.representable = true)
    (hu : u.representable = true) (hy : y.representable = true) : (l.shift u y).representable = true := by
  simp_all [DelayLine.representable_iff, DelayLine.shift]

/-- A state update that touches neither the working registers nor the delay line. -/
theorem State.Binary32.congr {s t : State} (h : s.Binary32) (hw : t.work = s.work) (hl : t.line = s.line) :
    t.Binary32 := by
  simpa only [State.Binary32, hw, hl] using h

theorem State.Binary32.fsmStep {s : State} (h : s.Binary32) (c : BitVec 4) : (s.fsmStep c).Binary32 := by
  obtain ⟨-, -, -, -, -, -, -, -, -, -, hwork, hline, -⟩ := s.fsmStep_frame c
  exact h.congr hwork hline

theorem micro_keeps_binary32 {i : Instr} {s t : State} (hs : s.Binary32) (h : MicroCases i s t) : t.Binary32 := by
  obtain ⟨hw, hl⟩ := id hs
  have hall := (Work.representable_iff _).1 hw
  cases h with
  | raise w c k h hw' =>
    rw [h]
    obtain rfl | ⟨-, -, rfl⟩ := hw'
    · exact hs
    · exact ⟨State.gateLevel_representable hw, hl⟩
  | statsStep v _ _ _ h => rw [h]; exact ⟨by simp [Work.representable_iff, hall], hl⟩
  | statsEnd _ h => rw [h]; exact ⟨by simp [Work.representable_iff, hall], hl⟩
  | varStep d _ _ h => rw [h]; exact ⟨by simp [Work.representable_iff, hall], hl⟩
  | varEnd _ h =>
    have hg := (Work.representable_iff _).1 (State.gateLevel_representable hw)
    rw [h]
    exact ⟨by simp [Work.representable_iff, hg], hl⟩
  | gateStep w _ _ h =>
    rw [h]
    refine ⟨?_, hl⟩
    have hmax : (if F32.lt s.work.maxAbs (F32.ofBits w).abs then (F32.ofBits w).abs
        else s.work.maxAbs).representable = true := by split <;> simp [hall]
    simp [Work.representable_iff, hall, hmax]
  | gateEnd b _ h => rw [h]; exact ⟨by simpa [Work.representable_iff] using hall, DelayLine.reset_representable⟩
  | filterStep w x _ _ h =>
    rw [h]
    exact ⟨hw, DelayLine.shift_representable hl (s.normalized_representable w) (s.bandPass_representable _)⟩
  | filterEnd _ h => rw [h]; exact hs
  | detectStep c _ _ h =>
    rw [h]
    exact State.Binary32.fsmStep (s := { s with port := { s.port with cls := c } }) hs c
  | detectEnd _ h => rw [h]; exact hs
  | flush _ h =>
    obtain ⟨-, -, -, -, -, -, -, -, -, -, hwork, hline, -⟩ := s.flushEmit_frame
    rw [h]
    exact hs.congr hwork hline

/-- A control write resets the registers, clears the sums of a new run, or leaves them (R263, R274, R331). -/
theorem wrCtrl_keeps_binary32 {w : Word} {s t : State} (hs : s.Binary32) (h : execWrCtrl w s = .next t) :
    t.Binary32 := by
  obtain ⟨-, he⟩ | ⟨-, -, -, he⟩ | ⟨-, -, -, he⟩ | ⟨-, -, he⟩ := execWrCtrl_cases w s <;>
    obtain rfl := Host.Outcome.next.inj (he.symm.trans h)
  · exact ⟨Work.reset_representable, DelayLine.reset_representable⟩
  · exact hs
  · obtain ⟨-, he⟩ | ⟨-, he⟩ := State.start_cases { s with irqEn := w.getLsbD 2 } <;> rw [he]
    · exact hs
    · exact ⟨by simpa [Work.representable_iff] using ((Work.representable_iff _).1 hs.1).2.2, hs.2⟩
  · exact hs

theorem exec_keeps_binary32 {i : Instr} {s t : State} (hs : s.Binary32) (h : exec i s = .next t) : t.Binary32 := by
  cases exec_cases h with
  | respond r _ h => rw [h]; exact hs
  | config c r _ _ h => rw [h]; exact hs
  | acknowledge w r _ _ h => rw [h]; exact hs
  | control w _ h => exact wrCtrl_keeps_binary32 hs h
  | sample n w r _ _ _ h => rw [h]; exact hs
  | silence _ h => rw [h]; exact hs.fsmStep 0
  | key k _ _ _ h => rw [h]; exact hs.fsmStep k
  | micro hi h => exact micro_keeps_binary32 hs (micro_cases hi h)
  | classify _ h =>
    obtain rfl | ⟨c, rfl⟩ := h
    · exact hs
    · exact hs

/-- Taking a turn moves the agenda only. -/
theorem State.TurnOf.keeps_binary32 {s u : State} (hu : s.TurnOf u) (hs : s.Binary32) : u.Binary32 := by
  obtain ⟨-, rfl⟩ | ⟨rest, -, rfl⟩ := hu
  · exact hs
  · exact hs

theorem step_keeps_binary32 {s t : State} (hs : s.Binary32) (h : step s = .next t) : t.Binary32 := by
  cases step_cases h with
  | idle u hu _ h => rw [h]; exact hu.keeps_binary32 hs
  | reset rest _ h => rw [h]; exact ⟨Work.reset_representable, DelayLine.reset_representable⟩
  | micro u i hu _ _ h => exact exec_keeps_binary32 (hu.keeps_binary32 hs) h
  | present raw rest i _ _ _ h => exact exec_keeps_binary32 (s := s.withAgenda rest) hs h

/-- Settles O51: by what a step, an operation and a micro-operation can do, each register a step writes is the result of an
operation, the datum of a pattern, or a register moved. -/
theorem stepKeepsBinary32 : Obligations.StepKeepsBinary32 :=
  fun _ _ hw hl h => step_keeps_binary32 ⟨hw, hl⟩ h

end Sys2Proof.Machine
end

section
/-! PROOFS. The reverse symbol table holds no code twice (R15, R50): an open entry is looked up among the codes that are not
fixed, and a code has one pair. -/

namespace Sys2Proof.Machine

/-- The fixed entries' codes are no open ones. -/
theorem fixed_not_mem_openCodes : (0x48 : Byte) ∉ openCodes ∧ (0x49 : Byte) ∉ openCodes := by decide +kernel

/-- Where an entry of the table comes from: it is one of the two fixed ones, or its code is an open one of that pair. -/
theorem symtab_eq_some {k : BitVec 4} {p c : Byte} (h : symtab k p = some c) :
    (k = 4 ∧ p = 3 ∧ c = 0x48) ∨ (k = 4 ∧ p = 4 ∧ c = 0x49)
      ∨ (c ∈ openCodes ∧ Config.openSymbol c = some (k, p)) := by
  simp only [symtab] at h
  split at h
  case isTrue hH => exact .inl ⟨hH.1, hH.2, (Option.some.inj h).symm⟩
  split at h
  case isTrue hI => exact .inr (.inl ⟨hI.1, hI.2, (Option.some.inj h).symm⟩)
  split at h
  case isTrue => cases h
  exact .inr (.inr ⟨List.mem_of_find?_eq_some h, by simpa using List.find?_some h⟩)

theorem symtab_injective {k k' : BitVec 4} {p p' c : Byte} (h : symtab k p = some c) (h' : symtab k' p' = some c) :
    k = k' ∧ p = p' := by
  obtain ⟨hH, hI⟩ := fixed_not_mem_openCodes
  obtain ⟨rfl, rfl, rfl⟩ | ⟨rfl, rfl, rfl⟩ | ⟨hm, ho⟩ := symtab_eq_some h <;>
    obtain ⟨rfl, rfl, hc⟩ | ⟨rfl, rfl, hc⟩ | ⟨hm', ho'⟩ := symtab_eq_some h'
  case inl.inl | inr.inl.inr.inl => exact ⟨rfl, rfl⟩
  case inl.inr.inl | inr.inl.inl => exact absurd hc (by decide)
  case inl.inr.inr => exact absurd hm' hH
  case inr.inl.inr.inr => exact absurd hm' hI
  case inr.inr.inl => exact absurd (hc ▸ hm) hH
  case inr.inr.inr.inl => exact absurd (hc ▸ hm) hI
  case inr.inr.inr.inr => simpa using ho.symm.trans ho'

/-- Settles O45, by where an entry of the table can come from. -/
theorem symbolTableInjective : Obligations.SymbolTableInjective :=
  ⟨rfl, rfl, fun _ _ _ _ _ => symtab_injective⟩

end Sys2Proof.Machine
end

section
/-! PROOFS. Each operation on finite data is the real result rounded once, and zero divisors, infinities and NaNs are answered
as IEEE 754 says (R21, R22). -/

namespace Sys2Proof

/-! The real number a finite datum stands for. -/

/-- The real number of a sign and a magnitude, which counts units of 2^(-149) (R21). -/
noncomputable def realOf (s : Bool) (m : Nat) : ℝ := signedMag s m / 2 ^ 149

theorem abs_signedMag (s : Bool) (m : Nat) : |(signedMag s m : ℝ)| = m := by cases s <;> simp [signedMag]

theorem signedMag_not (s : Bool) (m : Nat) : signedMag (!s) m = -signedMag s m := by cases s <;> simp [signedMag]

theorem abs_realOf (s : Bool) (m : Nat) : |realOf s m| = m / 2 ^ 149 := by
  rw [realOf, abs_div, abs_signedMag, abs_of_pos (by positivity)]

theorem realOf_eq_zero_iff (s : Bool) (m : Nat) : realOf s m = 0 ↔ m = 0 := by
  rw [← abs_eq_zero, abs_realOf]
  simp

theorem realOf_not (s : Bool) (m : Nat) : realOf (!s) m = -realOf s m := by
  rw [realOf, realOf, signedMag_not]
  push_cast
  ring

theorem realOf_nonneg (m : Nat) : 0 ≤ realOf false m := div_nonneg (by simp [signedMag]) (by positivity)

theorem realOf_nonpos (m : Nat) : realOf true m ≤ 0 := by
  have h := realOf_nonneg m
  have e : realOf true m = -realOf false m := realOf_not false m
  linarith

/-- The sign of a product or quotient is the exclusive or of the signs. -/
theorem sign_of_mul {s t : Bool} {x y : ℝ} (hx : if s then x ≤ 0 else 0 ≤ x) (hy : if t then y ≤ 0 else 0 ≤ y) :
    (x * y < 0 → (s ^^ t) = true) ∧ (0 < x * y → (s ^^ t) = false) := by
  cases s <;> cases t <;> simp only [Bool.false_eq_true, if_false, if_true] at hx hy
  · exact ⟨fun h => absurd h (mul_nonneg hx hy).not_gt, fun _ => rfl⟩
  · exact ⟨fun _ => rfl, fun h => absurd h (mul_nonpos_of_nonneg_of_nonpos hx hy).not_gt⟩
  · exact ⟨fun _ => rfl, fun h => absurd h (mul_nonpos_of_nonpos_of_nonneg hx hy).not_gt⟩
  · exact ⟨fun h => absurd h (mul_nonneg_of_nonpos_of_nonpos hx hy).not_gt, fun _ => rfl⟩

theorem realOf_sign (s : Bool) (m : Nat) : if s then realOf s m ≤ 0 else 0 ≤ realOf s m := by
  cases s
  · exact realOf_nonneg m
  · exact realOf_nonpos m

/-! Finite operands. -/

/-- A zero of either sign is the rounding of the real zero. -/
theorem roundsTo_zero (s : Bool) : RoundsTo 0 (.fin s 0) := by
  have h := roundF32_roundsTo (neg := s) (num := 0) (den := 1) (x := 0) Nat.one_pos (by simp)
    (fun h => absurd h (lt_irrefl _)) (fun h => absurd h (lt_irrefl _))
  rwa [roundF32_zero] at h

theorem realOf_add (s t : Bool) (a b : Nat) :
    realOf s a + realOf t b = ((signedMag s a + signedMag t b : Int) : ℝ) / 2 ^ 149 := by
  rw [realOf, realOf, ← add_div]
  push_cast
  rfl

theorem realOf_add_eq_zero_iff (s t : Bool) (a b : Nat) :
    realOf s a + realOf t b = 0 ↔ signedMag s a + signedMag t b = 0 := by
  rw [realOf_add, div_eq_zero_iff, or_iff_left (by positivity)]
  exact Int.cast_eq_zero

theorem add_exact_zero {s t : Bool} {a b : Nat} (h : realOf s a + realOf t b = 0) :
    F32.add (.fin s a) (.fin t b) = .fin (s && t) 0 := if_pos ((realOf_add_eq_zero_iff s t a b).1 h)

theorem add_roundsTo (s t : Bool) (a b : Nat) :
    RoundsTo (realOf s a + realOf t b) (F32.add (.fin s a) (.fin t b)) := by
  by_cases h0 : realOf s a + realOf t b = 0
  · rw [add_exact_zero h0, h0]
    exact roundsTo_zero _
  · have hz : signedMag s a + signedMag t b ≠ 0 := fun h => h0 ((realOf_add_eq_zero_iff s t a b).2 h)
    rw [realOf_add]
    simp only [F32.add, if_neg hz]
    generalize signedMag s a + signedMag t b = z at *
    refine roundF32_roundsTo Nat.one_pos ?_ (fun h => ?_) (fun h => ?_)
    · rw [abs_div, abs_of_pos (by positivity : (0 : ℝ) < 2 ^ 149), div_mul_cancel₀ _ (by positivity), Nat.cast_one,
        mul_one, ← Int.cast_abs, Int.abs_eq_natAbs]
      rfl
    · have : (z : ℝ) < 0 := by
        by_contra hc
        exact absurd h (not_lt.2 (div_nonneg (not_lt.1 hc) (by positivity)))
      simpa using (by exact_mod_cast this : z < 0)
    · have : (0 : ℝ) < z := by
        by_contra hc
        exact absurd h (not_lt.2 (div_nonpos_of_nonpos_of_nonneg (not_lt.1 hc) (by positivity)))
      simpa using (by exact_mod_cast this.le : 0 ≤ z)

theorem sub_eq_add_not (s t : Bool) (a b : Nat) :
    F32.sub (.fin s a) (.fin t b) = F32.add (.fin s a) (.fin (!t) b) := rfl

theorem sub_roundsTo (s t : Bool) (a b : Nat) :
    RoundsTo (realOf s a - realOf t b) (F32.sub (.fin s a) (.fin t b)) := by
  rw [sub_eq_add_not, sub_eq_add_neg, ← realOf_not]
  exact add_roundsTo ..

theorem sub_exact_zero {s t : Bool} {a b : Nat} (h : realOf s a - realOf t b = 0) :
    F32.sub (.fin s a) (.fin t b) = .fin (s && !t) 0 := by
  rw [sub_eq_add_neg, ← realOf_not] at h
  exact add_exact_zero h

theorem mul_roundsTo (s t : Bool) (a b : Nat) :
    RoundsTo (realOf s a * realOf t b) (F32.mul (.fin s a) (.fin t b)) := by
  obtain ⟨hneg, hpos⟩ := sign_of_mul (realOf_sign s a) (realOf_sign t b)
  rw [F32.mul]
  refine roundF32_roundsTo (Nat.two_pow_pos 149) ?_ hneg hpos
  rw [abs_mul, abs_realOf, abs_realOf, Nat.cast_mul, Nat.cast_pow, Nat.cast_ofNat]
  field_simp

theorem mul_exact_zero {s t : Bool} {a b : Nat} (h : realOf s a * realOf t b = 0) :
    F32.mul (.fin s a) (.fin t b) = .fin (s ^^ t) 0 := by
  have hab : a * b = 0 := by simpa [realOf_eq_zero_iff] using h
  simp [F32.mul, hab]

theorem div_roundsTo (s t : Bool) (a : Nat) {b : Nat} (hb : b ≠ 0) :
    RoundsTo (realOf s a / realOf t b) (F32.div (.fin s a) (.fin t b)) := by
  have hinv : if t then (realOf t b)⁻¹ ≤ 0 else 0 ≤ (realOf t b)⁻¹ := by
    simpa only [inv_nonneg, inv_nonpos] using realOf_sign t b
  obtain ⟨hneg, hpos⟩ := sign_of_mul (realOf_sign s a) hinv
  rw [← div_eq_mul_inv] at hneg hpos
  rw [F32.div, if_neg hb]
  refine roundF32_roundsTo (Nat.pos_of_ne_zero hb) ?_ hneg hpos
  have hb' : (b : ℝ) ≠ 0 := by exact_mod_cast hb
  rw [abs_div, abs_realOf, abs_realOf, Nat.cast_mul, Nat.cast_pow, Nat.cast_ofNat]
  field_simp

theorem div_exact_zero {s t : Bool} {a b : Nat} (hb : b ≠ 0) (ha : a = 0) :
    F32.div (.fin s a) (.fin t b) = .fin (s ^^ t) 0 := by
  simp [F32.div, ha, hb]

theorem div_by_zero {s t : Bool} {a b : Nat} (hb : b = 0) :
    F32.div (.fin s a) (.fin t b) = if a = 0 then .nan else .inf (s ^^ t) := by
  simp only [F32.div, if_pos hb]

theorem lt_iff_realOf (s t : Bool) (a b : Nat) :
    F32.lt (.fin s a) (.fin t b) = true ↔ realOf s a < realOf t b := by
  rw [realOf, realOf, div_lt_div_iff_of_pos_right (by positivity), Int.cast_lt]
  exact decide_eq_true_iff

theorem le_iff_realOf (s t : Bool) (a b : Nat) :
    F32.le (.fin s a) (.fin t b) = true ↔ realOf s a ≤ realOf t b := by
  rw [realOf, realOf, div_le_div_iff_of_pos_right (by positivity), Int.cast_le]
  exact decide_eq_true_iff

/-! Rounding itself. -/

theorem roundF32_eq_fin {neg sign : Bool} {num den mag : Nat} (h : roundF32 neg num den = .fin sign mag) :
    sign = neg ∧ mag = roundMag num den ∧ roundMag num den < overflowMag := by
  simp only [roundF32] at h
  split at h
  · cases h
  · obtain ⟨hs, hm⟩ := F32.fin.inj h
    exact ⟨hs.symm, hm.symm, Nat.lt_of_not_le ‹_›⟩

theorem roundF32_eq_inf_iff {neg sign : Bool} {num den : Nat} (hd : 0 < den) :
    roundF32 neg num den = .inf sign ↔ sign = neg ∧ (2 ^ 25 - 1) * 2 ^ 252 * den ≤ num := by
  rw [← overflow_iff hd]
  simp only [roundF32]
  split
  · simp [*, eq_comm]
  · simp [*]

theorem roundF32_ne_nan (neg : Bool) (num den : Nat) : roundF32 neg num den ≠ .nan := by
  simp only [roundF32]
  split <;> exact F32.noConfusion

/-! NaN operands. -/

theorem nan_operand (x : F32) : ∀ op ∈ [F32.add, F32.sub, F32.mul, F32.div], op x .nan = .nan ∧ op .nan x = .nan := by
  simp only [List.forall_mem_cons]
  cases x <;> exact ⟨⟨rfl, rfl⟩, ⟨rfl, rfl⟩, ⟨rfl, rfl⟩, ⟨rfl, rfl⟩, by simp⟩

theorem nan_compare (x : F32) :
    F32.lt x .nan = false ∧ F32.lt .nan x = false ∧ F32.le x .nan = false ∧ F32.le .nan x = false := by
  cases x <;> exact ⟨rfl, rfl, rfl, rfl⟩

/-- Settles O58: the grid argument of `roundMag_nearest` and `overflow_iff` for the rounding, one lemma per operation for the
real results, and the definitions' own cases for infinities and NaNs. -/
theorem roundingIsNearestEven : Obligations.RoundingIsNearestEven := by
  refine ⟨fun neg num den hd => ⟨fun sign mag h => ?_, fun sign => roundF32_eq_inf_iff hd, roundF32_ne_nan neg num den⟩,
    fun s t a b => ⟨add_roundsTo s t a b, add_exact_zero, sub_roundsTo s t a b, sub_exact_zero, mul_roundsTo s t a b,
      mul_exact_zero, fun hb => ⟨div_roundsTo s t a hb, div_exact_zero hb⟩, div_by_zero,
      lt_iff_realOf s t a b, le_iff_realOf s t a b⟩,
    fun s t b => ⟨rfl, rfl, rfl, rfl, rfl, rfl, rfl, rfl, rfl⟩,
    fun x => ⟨fun y => rfl, nan_operand x, nan_compare x⟩⟩
  obtain ⟨rfl, rfl, ho⟩ := roundF32_eq_fin h
  obtain ⟨hrep, hnear⟩ := roundMag_nearest hd ho
  refine ⟨rfl, hrep, fun r hr => ?_⟩
  obtain ⟨hle, htie⟩ := hnear r hr
  exact ⟨hle, fun hne heq => (htie hne heq).1⟩

end Sys2Proof
end

section
/-! PROOFS. The integer root is the integer square root, and `sqrt` the real square root rounded once (R21): a root with a
remainder lies strictly between two integers, and rounding tells no two numbers there apart once its grid is coarser
than 1. -/

namespace Sys2Proof

/-! The integer root. -/

/-- The root grows from `r` by the bits below `k`, when it lies within `2 ^ k` above `r`. -/
theorem isqrtBits_eq (x k r : Nat) (hl : r * r ≤ x) (hu : x < (r + 2 ^ k) * (r + 2 ^ k)) :
    isqrtBits k x r = Nat.sqrt x := by
  induction k generalizing r with
  | zero => exact Nat.eq_sqrt.2 ⟨hl, hu⟩
  | succ k ih =>
    rw [isqrtBits]
    split
    · refine ih _ ‹_› ?_
      rwa [Nat.add_assoc, ← Nat.two_mul, ← Nat.pow_succ']
    · exact ih _ hl (Nat.lt_of_not_le ‹_›)

theorem isqrt_eq_sqrt {x : Nat} (h : x < 2 ^ 428) : isqrt x = Nat.sqrt x := by
  refine isqrtBits_eq x 214 0 (Nat.zero_le _) ?_
  rwa [Nat.zero_add, ← Nat.pow_add]

/-! Rounding between two integers. -/

/-- The grid step `2 ^ (p + 1)` cuts a quotient strictly between `r` and `r + 1` where it cuts `r`: it is rounded up exactly
when the low bits of `r` reach the half step. -/
theorem roundHalfEven_between {num den r p : Nat} (hd : 0 < den) (hl : r * den < num) (hu : num < (r + 1) * den) :
    roundHalfEven num (den * 2 ^ (p + 1))
      = if 2 ^ p ≤ r % 2 ^ (p + 1) then r / 2 ^ (p + 1) + 1 else r / 2 ^ (p + 1) := by
  have hdiv : num / den = r := Nat.div_eq_of_lt_le hl.le hu
  have hquot : num / (den * 2 ^ (p + 1)) = r / 2 ^ (p + 1) := by rw [← Nat.div_div_eq_div_mul, hdiv]
  have hrem : num % (den * 2 ^ (p + 1)) = den * (r % 2 ^ (p + 1)) + num % den := by
    rw [Nat.mod_mul, hdiv, Nat.add_comm]
  have hsplit := Nat.div_add_mod num den
  rw [hdiv, Nat.mul_comm] at hsplit
  have hpos : 0 < num % den := by omega
  have hlt : num % den < den := Nat.mod_lt _ hd
  have hstep : den * 2 ^ (p + 1) = 2 * (den * 2 ^ p) := by ring
  unfold roundHalfEven
  dsimp only
  rw [hquot, hrem, hstep]
  generalize r % 2 ^ (p + 1) = low
  by_cases h : 2 ^ p ≤ low
  · have : den * 2 ^ p ≤ den * low := Nat.mul_le_mul_left _ h
    rw [if_pos h, if_pos (.inl (by omega))]
  · have : den * (low + 1) ≤ den * 2 ^ p := Nat.mul_le_mul_left _ (by omega)
    rw [Nat.mul_add] at this
    rw [if_neg h, if_neg (by omega)]

/-- A quotient strictly between `r` and `r + 1` is rounded as `r` and a half, where the grid is coarser than 1. -/
theorem roundMag_between {num den r : Nat} (hd : 0 < den) (hr : 2 ^ 24 ≤ r) (hl : r * den < num)
    (hu : num < (r + 1) * den) : roundMag num den = roundMag (2 * r + 1) 2 := by
  obtain ⟨p, hp⟩ : ∃ p, Nat.log2 r - 23 = p + 1 := by
    have : 24 ≤ Nat.log2 r := (Nat.le_log2 (by omega)).2 hr
    exact ⟨Nat.log2 r - 24, by omega⟩
  have hq : quantumBits num den = p + 1 := by rw [quantumBits, Nat.div_eq_of_lt_le hl.le hu, hp]
  have hq2 : quantumBits (2 * r + 1) 2 = p + 1 := by rw [quantumBits, show (2 * r + 1) / 2 = r by omega, hp]
  simp only [roundMag, hq, hq2]
  rw [roundHalfEven_between hd hl hu, roundHalfEven_between (r := r) Nat.two_pos (by omega) (by omega)]

theorem roundF32_between {num den r : Nat} (hd : 0 < den) (hr : 2 ^ 24 ≤ r) (hl : r * den < num)
    (hu : num < (r + 1) * den) : roundF32 false num den = roundF32 false (2 * r + 1) 2 := by
  simp only [roundF32, roundMag_between hd hr hl hu]

/-- A real number strictly between two integers, by at least `1 / den`, in units of 2^(-149). -/
theorem roundsTo_between_nat {x : ℝ} {r den : Nat} (hd : 2 ≤ den) (hr : 2 ^ 24 ≤ r) (hmax : r < 2 ^ 249)
    (hl : (r : ℝ) + 1 / den ≤ x * 2 ^ 149) (hu : x * 2 ^ 149 ≤ r + 1 - 1 / den) :
    RoundsTo x (roundF32 false (2 * r + 1) 2) := by
  have hd0 : 0 < den := by omega
  have hd' : (0 : ℝ) < den := by exact_mod_cast hd0
  have quotient (num : Nat) (hl : r * den < num) (hu : num < (r + 1) * den) :
      RoundsTo ((num : ℝ) / den / 2 ^ 149) (roundF32 false (2 * r + 1) 2) := by
    rw [← roundF32_between hd0 hr hl hu]
    refine roundF32_roundsTo hd0 ?_ (fun h => absurd h (not_lt.2 (by positivity))) (fun _ => rfl)
    rw [abs_of_nonneg (by positivity)]
    field_simp
  have hfin : (roundF32 false (2 * r + 1) 2).isFinite = true := by
    refine roundF32_isFinite _ _ _ ?_
    rw [show (2 * r + 1) / 2 = r by omega]
    exact hmax.trans (Nat.pow_lt_pow_right (by omega) (by omega))
  have hmul : (r + 1) * den = r * den + den := Nat.succ_mul ..
  refine (quotient (r * den + 1) (by omega) (by omega)).between
    (quotient ((r + 1) * den - 1) (by omega) (by omega)) ?_ ?_ hfin
  · rw [div_le_iff₀ (by positivity)]
    refine le_trans (le_of_eq ?_) hl
    push_cast
    field_simp
  · rw [le_div_iff₀ (by positivity)]
    refine hu.trans (le_of_eq ?_)
    rw [Nat.cast_sub (by omega)]
    push_cast
    field_simp

/-! The square root. -/

/-- A square root that is no integer keeps its distance from the integers around it. -/
theorem sqrt_far_from_nat {n r : Nat} (hl : r * r < n) (hu : n < (r + 1) * (r + 1)) :
    (r : ℝ) + 1 / (2 * r + 2 : Nat) ≤ Real.sqrt n ∧ Real.sqrt n ≤ r + 1 - 1 / (2 * r + 2 : Nat) := by
  have h1 : (r : ℝ) * r + 1 ≤ n := by exact_mod_cast hl
  have h2 : (n : ℝ) + 1 ≤ (r + 1) * (r + 1) := by exact_mod_cast hu
  have hr : (0 : ℝ) ≤ r := by positivity
  set d : ℝ := ((2 * r + 2 : Nat) : ℝ) with hd
  have hdr : d = 2 * (r + 1) := by rw [hd]; push_cast; ring
  have hi : 0 < 1 / d := by positivity
  have hi1 : 1 / d * (2 * (r + 1)) = 1 := by rw [← hdr]; exact one_div_mul_cancel (by positivity)
  have hi2 : 1 / d ≤ 1 := by nlinarith
  constructor
  · exact Real.le_sqrt_of_sq_le (by nlinarith)
  · exact Real.sqrt_le_iff.2 ⟨by linarith, by nlinarith⟩

/-- The square root in units of 2^(-149). -/
theorem sqrt_units (a : Nat) : Real.sqrt (a / 2 ^ 149) * 2 ^ 149 = Real.sqrt ((a * 2 ^ 149 : Nat) : ℝ) := by
  rw [Real.sqrt_div' _ (by positivity), div_mul_eq_mul_div, mul_div_assoc, Real.div_sqrt, ← Real.sqrt_mul (by positivity)]
  rw [Nat.cast_mul, Nat.cast_pow, Nat.cast_ofNat]

/-- The integer root of `n`, with a sticky half for a remainder, is rounded as the real root. -/
theorem sticky_root_roundsTo {x : ℝ} {n r : Nat} (hx : 0 ≤ x) (hunits : x * 2 ^ 149 = Real.sqrt n) (hl : r * r ≤ n)
    (hu : n < (r + 1) * (r + 1)) (hr : 2 ^ 24 ≤ r) (hmax : r < 2 ^ 249) :
    RoundsTo x (roundF32 false (if r * r = n then 2 * r else 2 * r + 1) 2) := by
  split
  case isTrue hsq =>
    refine roundF32_roundsTo Nat.two_pos ?_ (fun h => absurd h (not_lt.2 hx)) (fun _ => rfl)
    rw [abs_of_nonneg hx, hunits, ← hsq, Nat.cast_mul, Real.sqrt_mul_self (by positivity)]
    push_cast
    ring
  case isFalse hne =>
    obtain ⟨hlow, hhigh⟩ := sqrt_far_from_nat (lt_of_le_of_ne hl hne) hu
    rw [← hunits] at hlow hhigh
    exact roundsTo_between_nat (by omega) hr hmax hlow hhigh

theorem sqrt_roundsTo {a : Nat} (ha : (F32.fin false a).representable = true) :
    RoundsTo (Real.sqrt (a / 2 ^ 149)) (F32.sqrt (.fin false a)) := by
  cases a with
  | zero => simpa [F32.sqrt] using roundsTo_zero false
  | succ m =>
    have hm : m + 1 < overflowMag := ((representable_iff _ _).1 ha).1
    have hge : 2 ^ 149 ≤ (m + 1) * 2 ^ 149 := Nat.le_mul_of_pos_left _ (Nat.succ_pos m)
    have hlt : (m + 1) * 2 ^ 149 < 2 ^ 426 := by
      rw [show 426 = 277 + 149 by rfl, Nat.pow_add]
      exact Nat.mul_lt_mul_of_pos_right hm (Nat.two_pow_pos 149)
    have hroot : isqrt ((m + 1) * 2 ^ 149) = Nat.sqrt ((m + 1) * 2 ^ 149) :=
      isqrt_eq_sqrt (hlt.trans (Nat.pow_lt_pow_right (by omega) (by omega)))
    have hunits := sqrt_units (m + 1)
    simp only [F32.sqrt, hroot]
    generalize (m + 1) * 2 ^ 149 = n at *
    refine sticky_root_roundsTo (Real.sqrt_nonneg _) hunits (Nat.sqrt_le n) (Nat.lt_succ_sqrt n) ?_ ?_
    · exact Nat.le_sqrt.2 (le_trans (by norm_num) hge)
    · rw [Nat.sqrt_lt, ← Nat.pow_add]
      exact hlt.trans (Nat.pow_lt_pow_right (by omega) (by omega))

/-- Settles O60, by the bits of the integer root and the gap between a root with a remainder and the integers around it. -/
theorem integerRoot : Obligations.IntegerRoot :=
  ⟨fun _ => isqrt_eq_sqrt, fun _ => sqrt_roundsTo, fun s => by cases s <;> rfl,
    fun a ha => by cases a with | zero => exact absurd rfl ha | succ m => rfl, rfl, rfl, rfl⟩

end Sys2Proof
end

section
/-! PROOFS. Every entry of HAMMING, HANN, GCOEF, COS_T and SIN_T is the rounding of its formula (R23, R175, R176, R185, R187,
log entry 11). The entries are evaluated: each fixed-point value lies further from a rounding boundary than its error. By the
symmetries of the cosine a half of each window and a quarter of the circle are enough. -/

namespace Sys2Proof

theorem quantumBits_eq {num den q : Nat} (hd : 0 < den) (hl : 2 ^ 23 * (den * 2 ^ q) ≤ num)
    (hu : num < 2 ^ 24 * (den * 2 ^ q)) : quantumBits num den = q := by
  have e (k : Nat) : 2 ^ k * (den * 2 ^ q) = 2 ^ (k + q) * den := by rw [Nat.pow_add]; ring
  rw [e] at hl hu
  have h1 : 2 ^ (23 + q) ≤ num / den := (Nat.le_div_iff_mul_le hd).2 hl
  have h2 : num / den < 2 ^ (24 + q) := (Nat.div_lt_iff_lt_mul hd).2 hu
  have h0 : num / den ≠ 0 := by have := Nat.two_pow_pos (23 + q); omega
  have h3 : 23 + q ≤ Nat.log2 (num / den) := (Nat.le_log2 h0).2 h1
  have h4 : Nat.log2 (num / den) < 24 + q := (Nat.log2_lt h0).2 h2
  rw [quantumBits]
  omega

namespace Rom

/-! A steady value: its neighbours at the distance of its error are rounded as it is. -/

/-- The binade exponent a fixed-point magnitude not below 2^(-21) is rounded with: a guess, which `sameRounding` verifies. -/
def binade (a scale : Nat) : Nat := Nat.log2 (a * 2 ^ 21 / scale / 2 ^ 128) + 105

/-- Two magnitudes in fixed point are rounded alike: both in the binade of the first and to the same number of its steps, or
by rounding both. -/
def sameRounding (a b scale : Nat) : Bool :=
  let grid := scale * 2 ^ binade a scale
  decide ((2 ^ 23 * grid ≤ a * 2 ^ 21 ∧ a * 2 ^ 21 < 2 ^ 24 * grid)
    ∧ (2 ^ 23 * grid ≤ b * 2 ^ 21 ∧ b * 2 ^ 21 < 2 ^ 24 * grid)
    ∧ roundHalfEven (b * 2 ^ 21) grid = roundHalfEven (a * 2 ^ 21) grid)
  || decide (roundMag (b * 2 ^ 21) scale = roundMag (a * 2 ^ 21) scale)

/-- The two neighbours of a magnitude at the distance `e` are rounded as it is. -/
def steady (a scale e : Nat) : Bool := decide (e < a) && sameRounding a (a - e) scale && sameRounding a (a + e) scale

theorem roundMag_eq_of_sameRounding {a b scale : Nat} (hs : 0 < scale) (h : sameRounding a b scale = true) :
    roundMag (b * 2 ^ 21) scale = roundMag (a * 2 ^ 21) scale := by
  simp only [sameRounding, Bool.or_eq_true, decide_eq_true_iff] at h
  refine h.elim (fun h => ?_) id
  obtain ⟨ha, hb, hsteps⟩ := h
  simp only [roundMag, quantumBits_eq hs ha.1 ha.2, quantumBits_eq hs hb.1 hb.2, hsteps]

theorem nearest_congr {v w : Int} {scale : Nat} (hsign : w < 0 ↔ v < 0)
    (h : roundMag (w.natAbs * 2 ^ 21) scale = roundMag (v.natAbs * 2 ^ 21) scale) : nearest w scale = nearest v scale := by
  simp only [nearest, roundF32, h, hsign]

theorem nearest_of_steady {v : Int} {scale e : Nat} (hs : 0 < scale) (h : steady v.natAbs scale e = true) :
    nearest (v - e) scale = nearest v scale ∧ nearest (v + e) scale = nearest v scale := by
  simp only [steady, Bool.and_eq_true, decide_eq_true_iff] at h
  obtain ⟨⟨he, hdown⟩, hup⟩ := h
  have key (w : Int) (hw : w = v - e ∨ w = v + e) : nearest w scale = nearest v scale := by
    refine nearest_congr (by omega) ?_
    obtain h | h : w.natAbs = v.natAbs - e ∨ w.natAbs = v.natAbs + e := by omega
    · rw [h, roundMag_eq_of_sameRounding hs hdown]
    · rw [h, roundMag_eq_of_sameRounding hs hup]
  exact ⟨key _ (.inl rfl), key _ (.inr rfl)⟩

/-- A fixed-point value that is steady at the distance of its error is rounded as the real number it stands for. -/
theorem roundsTo_of_steady {v : Int} {scale e : Nat} {x : ℝ} (hs : 0 < scale) (hx : |x * (scale * one) - v| ≤ e)
    (h : steady v.natAbs scale e = true) (hf : (nearest v scale).isFinite = true) : RoundsTo x (nearest v scale) :=
  let ⟨hdown, hup⟩ := nearest_of_steady hs h
  nearest_roundsTo hs hx hdown hup hf

/-- A zero entry. -/
@[simp] theorem nearest_zero (scale : Nat) : nearest 0 scale = .fin false 0 := by simp [nearest]

/-! Symmetries of the fixed-point cosine. -/

/-- The angle's numerator, brought to half a turn. -/
def halfTurn (num den : Nat) : Nat := if 2 * (num % den) ≤ den then num % den else den - num % den

theorem cosTurn_eq (num den : Nat) : cosTurn num den =
    if 4 * halfTurn num den ≤ den then (cosQuarter (halfTurn num den) den : Int)
    else -(cosQuarter (den - 2 * halfTurn num den) (2 * den) : Int) := rfl

theorem halfTurn_of_le {t den : Nat} (hd : 0 < den) (h : 2 * t ≤ den) : halfTurn t den = t := by
  rw [halfTurn, Nat.mod_eq_of_lt (by omega), if_pos h]

/-- An angle and its reflection have one cosine. -/
theorem cosTurn_reflect {t den : Nat} (hd : 0 < den) (h : t ≤ den) : cosTurn (den - t) den = cosTurn t den := by
  have hhalf : halfTurn (den - t) den = halfTurn t den := by
    obtain rfl | h0 := Nat.eq_zero_or_pos t
    · simp [halfTurn]
    obtain rfl | hlt := Nat.eq_or_lt_of_le h
    · simp [halfTurn]
    · rw [halfTurn, halfTurn, Nat.mod_eq_of_lt hlt, Nat.mod_eq_of_lt (by omega)]
      split <;> split <;> omega
  rw [cosTurn_eq, cosTurn_eq, hhalf]

theorem angle_mul {k : Nat} (hk : 0 < k) (num den : Nat) : twoPi * (k * num) / (k * den) = twoPi * num / den := by
  rw [Nat.mul_left_comm, Nat.mul_div_mul_left _ _ hk]

theorem cosEighth_mul {k : Nat} (hk : 0 < k) (num den : Nat) : cosEighth (k * num) (k * den) = cosEighth num den := by
  simp only [cosEighth, angle_mul hk]

theorem sinEighth_mul {k : Nat} (hk : 0 < k) (num den : Nat) : sinEighth (k * num) (k * den) = sinEighth num den := by
  simp only [sinEighth, angle_mul hk]

theorem cosQuarter_mul {k : Nat} (hk : 0 < k) (num den : Nat) :
    cosQuarter (k * num) (k * den) = cosQuarter num den := by
  have hsin : sinEighth (k * den - 4 * (k * num)) (4 * (k * den)) = sinEighth (den - 4 * num) (4 * den) := by
    rw [Nat.mul_left_comm 4, Nat.mul_left_comm 4, ← Nat.mul_sub, sinEighth_mul hk]
  have hle : 8 * (k * num) ≤ k * den ↔ 8 * num ≤ den := by
    rw [Nat.mul_left_comm, Nat.mul_le_mul_left_iff hk]
  simp only [cosQuarter, cosEighth_mul hk, hsin, hle]

/-- The fixed-point cosine depends on the angle alone, not on the fraction it is given by. -/
theorem cosTurn_mul {k : Nat} (hk : 0 < k) (num den : Nat) : cosTurn (k * num) (k * den) = cosTurn num den := by
  have hhalf : halfTurn (k * num) (k * den) = k * halfTurn num den := by
    have hle : 2 * (k * (num % den)) ≤ k * den ↔ 2 * (num % den) ≤ den := by
      rw [Nat.mul_left_comm, Nat.mul_le_mul_left_iff hk]
    rw [halfTurn, halfTurn, Nat.mul_mod_mul_left, ← Nat.mul_sub, mul_ite]
    simp only [hle]
  have hle : 4 * (k * halfTurn num den) ≤ k * den ↔ 4 * halfTurn num den ≤ den := by
    rw [Nat.mul_left_comm, Nat.mul_le_mul_left_iff hk]
  have hcos : cosQuarter (k * den - 2 * (k * halfTurn num den)) (2 * (k * den))
      = cosQuarter (den - 2 * halfTurn num den) (2 * den) := by
    rw [Nat.mul_left_comm 2, Nat.mul_left_comm 2, ← Nat.mul_sub, cosQuarter_mul hk]
  simp only [cosTurn_eq, hhalf, hle, cosQuarter_mul hk, hcos]

/-- Up to its sign a cosine is one of the first quarter turn, and that of the quarter turn itself only for an odd number of
quarter turns. -/
theorem cosTurn_natAbs_quarter (num : Nat) {d : Nat} (hd : 0 < d) :
    ∃ t ≤ d, (cosTurn num (4 * d)).natAbs = (cosTurn t (4 * d)).natAbs ∧ (t = d → num % (2 * d) = d) := by
  have hquarter {t : Nat} (ht : t ≤ d) : cosTurn t (4 * d) = cosQuarter t (4 * d) := by
    rw [cosTurn_eq, halfTurn_of_le (by omega) (by omega), if_pos (by omega)]
  have hmod : num % (4 * d) % (2 * d) = num % (2 * d) := Nat.mod_mod_of_dvd _ ⟨2, by ring⟩
  have hlt : num % (4 * d) < 4 * d := Nat.mod_lt _ (by omega)
  rw [cosTurn_eq]
  by_cases h : 4 * halfTurn num (4 * d) ≤ 4 * d
  · refine ⟨halfTurn num (4 * d), by omega, by rw [if_pos h, hquarter (by omega)], fun he => ?_⟩
    rw [halfTurn] at he
    rw [← hmod]
    split at he
    · rw [he, Nat.mod_eq_of_lt (by omega)]
    · rw [show num % (4 * d) = d + 2 * d by omega, Nat.add_mod_right, Nat.mod_eq_of_lt (by omega)]
  · refine ⟨2 * d - halfTurn num (4 * d), by omega, ?_, by omega⟩
    rw [if_neg h, hquarter (by omega), Int.natAbs_neg,
      show 4 * d - 2 * halfTurn num (4 * d) = 2 * (2 * d - halfTurn num (4 * d)) by omega, cosQuarter_mul Nat.two_pos]

/-! The error of an entry's fixed-point value. -/

theorem cosTurn_error (num : Nat) {den : Nat} (hd : 0 < den) :
    |Real.cos (2 * Real.pi * num / den) * one - cosTurn num den| ≤ 2 ^ 68 := by
  have h := cosTurn_close num hd
  have hone : (one : ℝ) = 2 ^ 128 := by norm_num [one]
  have e : Real.cos (2 * Real.pi * num / den) * one - cosTurn num den
      = -((cosTurn num den / one - Real.cos (2 * Real.pi * num / den)) * one) := by
    field_simp [one_pos.ne']
    ring
  rw [e, abs_neg, abs_mul, abs_of_pos one_pos, hone]
  rw [hone] at h
  linarith

/-! Which fixed-point values are steady, by evaluating them. -/

/-- The fixed-point value of HAMMING[n], times 100 (R175). -/
def hammingValue (n : Nat) : Int := 54 * (one : Int) - 46 * cosTurn n 2204

/-- The fixed-point value of HANN[n], times 2 (R185). -/
def hannValue (n : Nat) : Int := (one : Int) - cosTurn n 2204

theorem hamming_eq (n : Nat) : hamming n = nearest (hammingValue n) 100 := rfl

theorem hann_eq (n : Nat) : hann n = nearest (hannValue n) 2 := rfl

theorem gcoef_eq (f : Nat) : gcoef f = nearest (2 * cosTurn f 44100) 1 := rfl

theorem cosT_eq (i : Nat) : cosT i = nearest (cosTurn i 4096) 1 := rfl

/-- The windows' entries up to their middle; HANN[0] is an exact zero. -/
theorem window_steady_half : steady (hammingValue 0).natAbs 100 (46 * 2 ^ 68) = true ∧ (List.range' 1 1102).all
    (fun n => steady (hammingValue n).natAbs 100 (46 * 2 ^ 68) && steady (hannValue n).natAbs 2 (2 ^ 68)) = true := by
  decide +kernel

/-- The cosines of the first quarter turn; that of the quarter turn itself is an exact zero. -/
theorem cosTurn_steady_quarter : (List.range 1024).all (fun t => steady (cosTurn t 4096).natAbs 1 (2 ^ 68)) = true := by
  decide +kernel

theorem gcoef_steady : ∀ f ∈ [697, 770, 852, 941, 1209, 1336, 1477],
    steady (2 * cosTurn f 44100).natAbs 1 (2 * 2 ^ 68) = true := by
  decide +kernel

/-- Every index of a window is one of its first half, or the reflection of one. -/
theorem window_cosTurn_half {n : Nat} (hn : n < 2205) :
    ∃ t ≤ 1102, cosTurn n 2204 = cosTurn t 2204 ∧ (n = t ∨ n = 2204 - t) := by
  by_cases h : n ≤ 1102
  · exact ⟨n, h, rfl, .inl rfl⟩
  · exact ⟨2204 - n, by omega, (cosTurn_reflect (by omega) (by omega)).symm, .inr (by omega)⟩

theorem hamming_steady {n : Nat} (hn : n < 2205) : steady (hammingValue n).natAbs 100 (46 * 2 ^ 68) = true := by
  obtain ⟨t, ht, he, -⟩ := window_cosTurn_half hn
  obtain ⟨hzero, hall⟩ := window_steady_half
  rw [hammingValue, he]
  obtain rfl | h0 := Nat.eq_zero_or_pos t
  · exact hzero
  · have := List.all_eq_true.1 hall t (List.mem_range'_1.2 (by omega))
    exact (Bool.and_eq_true_iff.1 this).1

theorem hann_steady {n : Nat} (hn : n < 2204) (h0 : n ≠ 0) : steady (hannValue n).natAbs 2 (2 ^ 68) = true := by
  obtain ⟨t, ht, he, hnt⟩ := window_cosTurn_half (n := n) (by omega)
  rw [hannValue, he]
  have := List.all_eq_true.1 window_steady_half.2 t (List.mem_range'_1.2 (by omega))
  exact (Bool.and_eq_true_iff.1 this).2

theorem cosTurn_steady {i : Nat} (h : i % 2048 ≠ 1024) : steady (cosTurn i 4096).natAbs 1 (2 ^ 68) = true := by
  obtain ⟨t, ht, he, hq⟩ := cosTurn_natAbs_quarter i (d := 1024) (by omega)
  rw [show 4096 = 4 * 1024 by rfl, he]
  exact List.all_eq_true.1 cosTurn_steady_quarter t (List.mem_range.2 (lt_of_le_of_ne ht fun h0 => h (hq h0)))

/-! Entries whose formula is 0. -/

theorem cosTurn_zero_of_odd_quarter {i : Nat} (h : i % 2048 = 1024) : cosTurn i 4096 = 0 := by
  have hmod : i % 4096 = 1024 ∨ i % 4096 = 3072 := by omega
  have hhalf : halfTurn i 4096 = 1024 := by
    rw [halfTurn]
    obtain h | h := hmod <;> rw [h] <;> rfl
  rw [cosTurn_eq, hhalf]
  decide +kernel

theorem cosT_zero {i : Nat} (h : i % 2048 = 1024) : cosT i = .fin false 0 := by
  rw [cosT_eq, cosTurn_zero_of_odd_quarter h, nearest_zero]

theorem cos_zero_of_odd_quarter {i : Nat} (h : i % 2048 = 1024) : Real.cos (2 * Real.pi * i / 4096) = 0 := by
  obtain ⟨m, rfl⟩ : ∃ m : Nat, i = 2048 * m + 1024 := ⟨i / 2048, by omega⟩
  rw [Real.cos_eq_zero_iff]
  refine ⟨m, ?_⟩
  push_cast
  ring

theorem hann_zero {n : Nat} (h : n = 0 ∨ n = 2204) : hann n = .fin false 0 := by
  have hv : hannValue n = 0 := by
    obtain rfl | rfl := h <;> decide +kernel
  rw [hann_eq, hv, nearest_zero]

/-! The tables are the roundings of their formulas (R23). -/

/-- HAMMING (R175). -/
theorem hamming_roundsTo {n : Nat} (hn : n < 2205) :
    RoundsTo (0.54 - 0.46 * Real.cos (2 * Real.pi * n / 2204)) (hamming n) := by
  have herr := cosTurn_error n (den := 2204) (by omega)
  rw [hamming_eq]
  refine roundsTo_of_steady (by omega) ?_ (hamming_steady hn) (hamming_isFinite n)
  rw [hammingValue]
  push_cast at herr ⊢
  rw [abs_le] at herr ⊢
  constructor <;> linarith [herr.1, herr.2]

/-- HANN (R185). -/
theorem hann_roundsTo {n : Nat} (hn : n < 2205) :
    RoundsTo (0.5 - 0.5 * Real.cos (2 * Real.pi * n / 2204)) (hann n) := by
  by_cases h : n = 0 ∨ n = 2204
  · have hcos : Real.cos (2 * Real.pi * n / 2204) = 1 := by
      obtain rfl | rfl := h
      · simp
      · rw [Nat.cast_ofNat, mul_div_assoc, div_self (by norm_num), mul_one, Real.cos_two_pi]
    rw [hann_zero h, hcos, mul_one, sub_self]
    exact roundsTo_zero false
  · have herr := cosTurn_error n (den := 2204) (by omega)
    rw [hann_eq]
    refine roundsTo_of_steady (by omega) ?_ (hann_steady (by omega) (by omega)) (hann_isFinite n)
    rw [hannValue]
    push_cast at herr ⊢
    rw [abs_le] at herr ⊢
    constructor <;> linarith [herr.1, herr.2]

/-- GCOEF (R176). -/
theorem gcoef_roundsTo {f : Nat} (hf : f ∈ [697, 770, 852, 941, 1209, 1336, 1477]) :
    RoundsTo (2 * Real.cos (2 * Real.pi * f / 44100)) (gcoef f) := by
  have herr := cosTurn_error f (den := 44100) (by omega)
  rw [gcoef_eq]
  refine roundsTo_of_steady (by omega) ?_ (gcoef_steady f hf) (gcoef_isFinite f)
  push_cast at herr ⊢
  rw [abs_le] at herr ⊢
  constructor <;> linarith [herr.1, herr.2]

/-- COS_T (R187), at every index. -/
theorem cosT_roundsTo (i : Nat) : RoundsTo (Real.cos (2 * Real.pi * i / 4096)) (cosT i) := by
  by_cases h : i % 2048 = 1024
  · rw [cosT_zero h, cos_zero_of_odd_quarter h]
    exact roundsTo_zero false
  · have herr := cosTurn_error i (den := 4096) (by omega)
    rw [cosT_eq]
    refine roundsTo_of_steady (by omega) ?_ (cosTurn_steady h) (cosT_isFinite i)
    rw [Nat.cast_one, one_mul, Nat.cast_pow, Nat.cast_ofNat]
    exact herr

/-- SIN_T is COS_T three quarters of a turn on (R187). -/
theorem sinT_eq_cosT (i : Nat) : sinT i = cosT (i + 3072) := by
  have h := cosTurn_mul (k := 4) (by omega) (i + 3072) 4096
  rw [cosT_eq, ← h, Nat.mul_add]
  rfl

/-- SIN_T (R187), at every index. -/
theorem sinT_roundsTo (i : Nat) : RoundsTo (Real.sin (2 * Real.pi * i / 4096)) (sinT i) := by
  have h := cosT_roundsTo (i + 3072)
  have hcos : Real.cos (2 * Real.pi * (i + 3072 : Nat) / 4096) = Real.sin (2 * Real.pi * i / 4096) := by
    rw [← Real.cos_sub_pi_div_two, ← Real.cos_add_two_pi (_ - _)]
    congr 1
    push_cast
    ring
  rwa [hcos, ← sinT_eq_cosT] at h

/-- The entries R185 and R187 give as `+0.0`. -/
theorem zero_entries : ∀ y ∈ [hann 0, hann 2204, cosT 1024, cosT 3072, sinT 0, sinT 2048], y = .fin false 0 := by
  simp only [List.forall_mem_cons, sinT_eq_cosT]
  exact ⟨hann_zero (.inl rfl), hann_zero (.inr rfl), cosT_zero rfl, cosT_zero rfl, cosT_zero rfl, cosT_zero rfl,
    List.forall_mem_nil _⟩

end Rom
end Sys2Proof
end

section
/-! PROOFS. A DET_CLASSIFY operation presented on a window that exists: its magnitudes are the recursions' of the rules, and its
class the decision over them (R177 to R180, R188 to R190, R193, R194, R268). -/

namespace Sys2Proof.Machine

/-! Magnitudes, in the form of the rules: the recursion, the power and the magnitude as functions of the frequency or bin, over
a window of any length `k` (at the literal length the kernel would compare the two forms by evaluating them). -/

/-- R177, R178. -/
theorem toneMag_window (x : Nat → F32) (k f : Nat) :
    let r (f : Nat) : F32 × F32 := (List.range k).foldl
      (fun (p : F32 × F32) n => ((((x n).mul (Rom.hamming n)).add ((Rom.gcoef f).mul p.1)).sub p.2, p.1))
      (.fin false 0, .fin false 0)
    let power (f : Nat) : F32 :=
      (((r f).1.mul (r f).1).add ((r f).2.mul (r f).2)).sub (((Rom.gcoef f).mul (r f).1).mul (r f).2)
    toneMag ((List.range k).map x) f
      = if F32.lt (power f) (.fin false 0) then .fin false 0 else (power f).sqrt :=
  toneMag_range x k f

/-- R188. -/
theorem binMag_window (x : Nat → F32) (k b : Nat) :
    let r (b : Nat) : F32 × F32 := (List.range k).foldl
      (fun (p : F32 × F32) n =>
        (p.1.add (((x n).mul (Rom.hann n)).mul (Rom.cosT (b * n % 4096))),
          p.2.sub (((x n).mul (Rom.hann n)).mul (Rom.sinT (b * n % 4096)))))
      (.fin false 0, .fin false 0)
    binMag ((List.range k).map x) b = (((r b).1.mul (r b).1).add ((r b).2.mul (r b).2)).sqrt :=
  binMag_range x k b

/-! The decision over magnitudes given by frequency and by key. -/

theorem keyMagAt_map (key : Nat → F32) {k : Nat} (hk : k ∈ Rom.keys) : keyMagAt (Rom.keys.map key) k = key k := by
  fin_cases hk <;> rfl

/-- KMAG(k) of the tone magnitudes is the sum of its two tones' (R14, R179). -/
theorem toneKeyMag_map (mag : Nat → F32) {k : Nat} (hk : k ∈ Rom.keys) :
    toneKeyMag (Rom.freqs.map mag) k = (mag ([697, 770, 852, 941].getD ((k - 1) / 3) 0)).add
      (mag ([1209, 1336, 1477].getD ((k - 1) % 3) 0)) := by
  fin_cases hk <;> rfl

theorem allBins_eq : allBins =
    [64, 65, 66, 71, 72, 73, 78, 79, 80, 86, 87, 88, 111, 112, 113, 123, 124, 125, 136, 137, 138] := by decide

/-- KMAG(k) of the bin magnitudes is the sum of its six bins', low tone first (R14, R186, R189). -/
theorem binKeyMag_map (mag : Nat → F32) {k : Nat} (hk : k ∈ Rom.keys) :
    binKeyMag (allBins.map mag) k =
      (let lo := [65, 72, 79, 87].getD ((k - 1) / 3) 0
       let hi := [112, 124, 137].getD ((k - 1) % 3) 0
       let l := (((F32.fin false 0).add (mag (lo - 1))).add (mag lo)).add (mag (lo + 1))
       ((l.add (mag (hi - 1))).add (mag hi)).add (mag (hi + 1))) := by
  rw [allBins_eq]
  fin_cases hk <;> rfl

/-- What a classification presented alone does, when the common decision gives its class: the class of the best key or 0
stands on the detector's output, or E_DETECT(j) is raised (R193, R194, R268). -/
theorem classifyOnly_decided {s : State} {classify : State → List F32 → Option (BitVec 4)} {tones : List Nat}
    {mag key : Nat → F32} (hw : s.windowExists s.pos.j)
    (h : classify s (s.windowAt s.pos.j)
      = decideClass (tones.map mag) (Rom.keys.map key) (F32.ofBits s.cfg.noiseFloor) fun _ => true) :
    ((∀ f ∈ tones, (mag f).isFinite = true) ∧ (∀ k ∈ Rom.keys, (key k).isFinite = true) →
      classifyOnly s classify = .next { s with port := { s.port with
        cls := if F32.lt (key (bestKey (Rom.keys.map key))) (F32.ofBits s.cfg.noiseFloor) then 0
               else BitVec.ofNat 4 (bestKey (Rom.keys.map key)) } })
    ∧ (¬((∀ f ∈ tones, (mag f).isFinite = true) ∧ (∀ k ∈ Rom.keys, (key k).isFinite = true)) →
      classifyOnly s classify = .next (s.raise errDetect s.pos.j)) := by
  have hbest := keyMagAt_map key (bestKey_mem (Rom.keys.map key))
  rw [classifyOnly, classifyWindow_eq classify _ hw, h]
  obtain ⟨hfin, hd⟩ | ⟨hfin, hd⟩ :=
      decideClass_cases (tones.map mag) (Rom.keys.map key) (F32.ofBits s.cfg.noiseFloor) fun _ => true <;>
    rw [hd] <;> simp only [List.forall_mem_map] at hfin
  · exact ⟨fun hc => absurd hc hfin, fun _ => rfl⟩
  · rw [hbest]
    exact ⟨fun _ => rfl, fun hc => absurd hfin hc⟩

/-- Settles O30: the tables are roundings of their formulas, the recursion over the window's list is the fold over its indices,
and the common decision gives the class. -/
theorem goertzelClassification : Obligations.GoertzelClassification := by
  refine ⟨rfl, fun n => Rom.hamming_roundsTo, fun f => Rom.gcoef_roundsTo, fun s hw => ?_⟩
  intro x r freqs power mag key keys best
  have hmag : Rom.freqs.map (toneMag (s.windowAt s.pos.j)) = freqs.map mag :=
    List.map_congr_left fun f _ => toneMag_window x 2205 f
  have hkey : Rom.keys.map (toneKeyMag (freqs.map mag)) = Rom.keys.map key :=
    List.map_congr_left fun k hk => toneKeyMag_map mag hk
  have hclass : goertzelClass s (s.windowAt s.pos.j)
      = decideClass (freqs.map mag) (Rom.keys.map key) (F32.ofBits s.cfg.noiseFloor) fun _ => true := by
    rw [goertzelClass, classifyGoertzel, hmag, hkey]
  obtain ⟨hok, herr⟩ := classifyOnly_decided hw hclass
  split
  · exact hok ‹_›
  · exact herr ‹_›

/-- Settles O32: as for the Goertzel variant, over the direct sums of the 21 bins. -/
theorem spectralClassification : Obligations.SpectralClassification := by
  refine ⟨rfl, fun n => Rom.hann_roundsTo, fun i _ => ⟨Rom.cosT_roundsTo i, Rom.sinT_roundsTo i⟩,
    Rom.zero_entries, fun s hw => ?_⟩
  intro x r mag key bins keys best
  have hmag : allBins.map (binMag (s.windowAt s.pos.j)) = allBins.map mag :=
    List.map_congr_left fun b _ => binMag_window x 2205 b
  have hkey : Rom.keys.map (binKeyMag (allBins.map mag)) = Rom.keys.map key :=
    List.map_congr_left fun k hk => binKeyMag_map mag hk
  have hclass : spectralClass s (s.windowAt s.pos.j)
      = decideClass (bins.map mag) (Rom.keys.map key) (F32.ofBits s.cfg.noiseFloor) fun _ => true := by
    rw [spectralClass, classifySpectral, hmag, hkey, allBins_eq]
  obtain ⟨hok, herr⟩ := classifyOnly_decided hw hclass
  split
  · exact hok ‹_›
  · exact herr ‹_›

end Sys2Proof.Machine
end

section
/-! PROOFS. Which operations a step can perform: any transaction, the row the sequencer's position selects, or, in phase
DETECT, a class code or a detector selector (R112, R119, R196, R260, log entry 5). -/

namespace Sys2Proof.Machine

/-! What each format decodes to. -/

theorem isBusRow_readRow (r : Reg) : isBusRow r.readRow = true := by cases r <;> rfl

theorem isBusRow_writeRow (r : Reg) (w : Word) : isBusRow (r.writeRow w) = true := by cases r <;> rfl

theorem isBusRow_decodeLegal (we : Bool) (addr : BitVec 24) (w : Word) : isBusRow (decodeLegal we addr w) = true := by
  unfold decodeLegal
  split
  · cases we <;> rfl
  split
  · cases we <;> rfl
  split
  · cases we
    · exact isBusRow_readRow _
    · exact isBusRow_writeRow _ w
  · rfl

/-- A transaction decodes to a row of format BUS (R112). -/
theorem isBusRow_decodeTransaction (we : Bool) (addr : BitVec 24) (size : Size) (w : Word) :
    isBusRow (decodeTransaction we addr size w) = true := by
  unfold decodeTransaction
  split
  · rfl
  · exact isBusRow_decodeLegal we addr w

/-- A class code decodes to no micro-operation (R116). -/
theorem not_isMicroOp_decodeClass : ∀ c : BitVec 4, isMicroOp (decodeClass c) = false := by decide

/-- A detector selector decodes to no micro-operation (R120). -/
theorem not_isMicroOp_decodeDetector : ∀ d : BitVec 2, isMicroOp (decodeDetector d) = false := by decide

/-- A decoded raw operation of format BUS holds a transaction. -/
theorem decodeBus_eq_instr {sel wdata : Word} {i : Instr} (h : decodeBus sel wdata = .instr i) :
    ∃ we addr size, i = decodeTransaction we addr size wdata := by
  unfold decodeBus at h
  split at h
  · cases h
  split at h
  · cases h
  · exact ⟨_, _, _, (Decoded.instr.inj h).symm⟩

/-- What a decoded raw operation can be, by its format. -/
theorem decode_cases {raw : RawOp} {i : Instr} (h : decode raw = .instr i) :
    (raw.fmt = .bus ∧ isBusRow i = true) ∨ raw.fmt = .seq
      ∨ ((raw.fmt = .cls ∨ raw.fmt = .det) ∧ isMicroOp i = false) := by
  unfold decode at h
  split at h
  case h_1 hf _ =>
    obtain ⟨we, addr, size, rfl⟩ := decodeBus_eq_instr h
    exact .inl ⟨hf, isBusRow_decodeTransaction ..⟩
  case h_2 hf _ =>
    split at h
    · cases h
      exact .inr (.inr ⟨.inl hf, not_isMicroOp_decodeClass _⟩)
    · cases h
  case h_3 hf _ => exact .inr (.inl hf)
  case h_4 hf _ =>
    split at h
    · cases h
      exact .inr (.inr ⟨.inr hf, not_isMicroOp_decodeDetector _⟩)
    · cases h
  case h_5 => cases h

/-! The row the position selects. -/

/-- The row U = {phase, END} selects, by what the position says (R119, R260). -/
inductive State.Selects (s : State) : Instr → Prop
  | statsStep (hp : s.pos.phase = 1) (hn : s.pos.n ≠ s.total) : s.Selects .seqStatsStep
  | statsEnd (hp : s.pos.phase = 1) (hn : s.pos.n = s.total) : s.Selects .seqStatsEnd
  | varStep (hp : s.pos.phase = 2) (hn : s.pos.n ≠ s.total) : s.Selects .seqVarStep
  | varEnd (hp : s.pos.phase = 2) (hn : s.pos.n = s.total) : s.Selects .seqVarEnd
  | gateStep (hp : s.pos.phase = 3) (hn : s.pos.n ≠ s.total) : s.Selects .seqGateStep
  | gateEnd (hp : s.pos.phase = 3) (hn : s.pos.n = s.total) : s.Selects .seqGateEnd
  | filterStep (hp : s.pos.phase = 4) (hn : s.pos.n ≠ s.total) : s.Selects .seqFilterStep
  | filterEnd (hp : s.pos.phase = 4) (hn : s.pos.n = s.total) : s.Selects .seqFilterEnd
  | detectStep (hp : s.pos.phase = 5) (hj : s.pos.j ≠ s.windows) : s.Selects .seqDetectStep
  | detectEnd (hp : s.pos.phase = 5) (hj : s.pos.j = s.windows) : s.Selects .seqDetectEnd
  | flush (hp : s.pos.phase = 6) : s.Selects .seqFlush

/-- END in a pass over the samples (R119). -/
theorem State.endFlag_pass {s : State} (h1 : 1 ≤ s.pos.phase.toNat) (h4 : s.pos.phase.toNat ≤ 4) :
    s.endFlag = (s.pos.n == s.total) := by
  have hp : s.pos.phase.toNat = 1 ∨ s.pos.phase.toNat = 2 ∨ s.pos.phase.toNat = 3 ∨ s.pos.phase.toNat = 4 := by omega
  obtain hp | hp | hp | hp := hp <;> simp only [State.endFlag, hp]

/-- END in the detect loop (R119). -/
theorem State.endFlag_detect {s : State} (hp : s.pos.phase = 5) : s.endFlag = (s.pos.j == s.windows) := by
  rw [State.endFlag, hp]
  rfl

/-- END in the flush (R119). -/
theorem State.endFlag_flush {s : State} (hp : s.pos.phase = 6) : s.endFlag = true := by
  rw [State.endFlag, hp]
  rfl

/-- The sequencer's own raw operation, by the phase and END (R119). -/
theorem State.decode_microOpOp (s : State) :
    decode s.microOpOp = decodeMicroOp (s.pos.phase ++ BitVec.ofBool s.endFlag) := decode_microOpRaw s.selector

/-- A selector whose END is a comparison of an index with its limit. -/
theorem decodeMicroOp_limit {p : BitVec 3} {k limit : Nat} {i : Instr}
    (h : decodeMicroOp (p ++ BitVec.ofBool (k == limit)) = .instr i) :
    (k = limit ∧ decodeMicroOp (p ++ 1#1) = .instr i) ∨ (k ≠ limit ∧ decodeMicroOp (p ++ 0#1) = .instr i) := by
  by_cases hk : k = limit
  · rw [beq_iff_eq.mpr hk] at h
    exact .inl ⟨hk, h⟩
  · rw [beq_eq_false_iff_ne.mpr hk] at h
    exact .inr ⟨hk, h⟩

/-- IDLE, the phase code no row has, and the six phases of a run (R117). -/
theorem phase_cases : ∀ p : BitVec 3, p = 0 ∨ p = 7 ∨ p = 1 ∨ p = 2 ∨ p = 3 ∨ p = 4 ∨ p = 5 ∨ p = 6 := by decide

/-- The instruction the sequencer's raw operation decodes to is the one the position selects. -/
theorem State.selects_of_decode {s : State} {i : Instr} (h : decode s.microOpOp = .instr i) : s.Selects i := by
  rw [s.decode_microOpOp] at h
  obtain hp | hp | hp | hp | hp | hp | hp | hp := phase_cases s.pos.phase
  · rw [hp] at h
    cases he : s.endFlag <;> rw [he] at h <;> cases h
  · rw [hp] at h
    cases he : s.endFlag <;> rw [he] at h <;> cases h
  · rw [State.endFlag_pass (by simp [hp]) (by simp [hp]), hp] at h
    obtain ⟨hn, h⟩ | ⟨hn, h⟩ := decodeMicroOp_limit h <;> cases h
    · exact .statsEnd hp hn
    · exact .statsStep hp hn
  · rw [State.endFlag_pass (by simp [hp]) (by simp [hp]), hp] at h
    obtain ⟨hn, h⟩ | ⟨hn, h⟩ := decodeMicroOp_limit h <;> cases h
    · exact .varEnd hp hn
    · exact .varStep hp hn
  · rw [State.endFlag_pass (by simp [hp]) (by simp [hp]), hp] at h
    obtain ⟨hn, h⟩ | ⟨hn, h⟩ := decodeMicroOp_limit h <;> cases h
    · exact .gateEnd hp hn
    · exact .gateStep hp hn
  · rw [State.endFlag_pass (by simp [hp]) (by simp [hp]), hp] at h
    obtain ⟨hn, h⟩ | ⟨hn, h⟩ := decodeMicroOp_limit h <;> cases h
    · exact .filterEnd hp hn
    · exact .filterStep hp hn
  · rw [State.endFlag_detect hp, hp] at h
    obtain ⟨hj, h⟩ | ⟨hj, h⟩ := decodeMicroOp_limit h <;> cases h
    · exact .detectEnd hp hj
    · exact .detectStep hp hj
  · rw [State.endFlag_flush hp, hp] at h
    cases h
    exact .flush hp

/-- The sequencer selects no row in phase IDLE, nor one with phase code 7. -/
theorem State.Selects.phase_ne {s : State} {i : Instr} (h : s.Selects i) : s.pos.phase ≠ 0 ∧ s.pos.phase ≠ 7 := by
  cases h <;> simp [*]

theorem State.Selects.isMicroOp {s : State} {i : Instr} (h : s.Selects i) : isMicroOp i = true := by cases h <;> rfl

/-! What a step performs. -/

/-- What the block lets be performed: a transaction always, a micro-operation when the position selects it, and another
operation in phase DETECT (log entry 5). -/
def State.Allows (s : State) (i : Instr) : Prop :=
  isBusRow i = true ∨ s.Selects i ∨ (s.pos.phase = 5 ∧ isMicroOp i = false)

/-- A presented operation is one the block lets be performed. -/
theorem State.allows_of_admits {s : State} {raw : RawOp} {i : Instr} (hp : s.admits raw = true)
    (hd : decode raw = .instr i) : s.Allows i := by
  obtain ⟨-, hi⟩ | hf | ⟨hf, hi⟩ := decode_cases hd
  · exact .inl hi
  · have hraw : raw = s.microOpOp := by
      simp only [State.admits, hf, Bool.and_eq_true, beq_iff_eq] at hp
      exact hp.2
    exact .inr (.inl (State.selects_of_decode (hraw ▸ hd)))
  · have hphase : s.pos.phase = 5 := by
      obtain hf | hf := hf <;> simpa only [State.admits, hf, beq_iff_eq] using hp
    exact .inr (.inr ⟨hphase, hi⟩)

/-- An operation that is neither a transaction nor a micro-operation is performed in phase DETECT only. -/
theorem State.Allows.detect {s : State} {i : Instr} (h : s.Allows i) (hb : isBusRow i = false)
    (hm : isMicroOp i = false) : s.pos.phase = 5 := by
  obtain hi | hi | ⟨hp, -⟩ := h
  · rw [hb] at hi; cases hi
  · rw [hi.isMicroOp] at hm; cases hm
  · exact hp

/-- A micro-operation is no transaction (R2). -/
theorem not_isBusRow_of_isMicroOp {i : Instr} (h : isMicroOp i = true) : isBusRow i = false := by
  cases i <;> cases h <;> rfl

/-- A micro-operation is performed only where the position selects it. -/
theorem State.Allows.selects {s : State} {i : Instr} (h : s.Allows i) (hm : isMicroOp i = true) : s.Selects i := by
  obtain hi | hi | ⟨-, hi⟩ := h
  · rw [not_isBusRow_of_isMicroOp hm] at hi; cases hi
  · exact hi
  · rw [hm] at hi; cases hi

/-- How a step comes to a next state, in the state with the stimulus it takes gone: it idles, it is reset, or it
performs an operation the block allows there. -/
inductive TakenCases (s t : State) : Prop
  | idle (rest : List Stimulus) (h : t = s.withAgenda rest)
  | reset (rest : List Stimulus) (h : t = (s.withAgenda rest).hardReset)
  | perform (rest : List Stimulus) (i : Instr) (hi : (s.withAgenda rest).Allows i)
      (h : exec i (s.withAgenda rest) = .next t)

/-- The sequencer's turn takes a stimulus, or none when none is left. -/
theorem State.TurnOf.eq_withAgenda {s u : State} (hu : s.TurnOf u) : ∃ rest, u = s.withAgenda rest := by
  obtain ⟨-, rfl⟩ | ⟨rest, -, rfl⟩ := hu
  · exact ⟨u.port.agenda, rfl⟩
  · exact ⟨rest, rfl⟩

/-- What a step can do, with what its operation may be. -/
theorem step_taken {s t : State} (h : step s = .next t) : TakenCases s t := by
  cases step_cases h with
  | idle u hu _ h =>
    obtain ⟨rest, rfl⟩ := hu.eq_withAgenda
    exact .idle rest h
  | reset rest _ h => exact .reset rest h
  | micro u i hu _ hd h =>
    obtain ⟨rest, rfl⟩ := hu.eq_withAgenda
    exact .perform rest i (.inr (.inl (State.selects_of_decode (s := s.withAgenda rest) hd))) h
  | present raw rest i _ hp hd h => exact .perform rest i (State.allows_of_admits (s := s.withAgenda rest) hp hd) h

end Sys2Proof.Machine
end

section
/-! PROOFS. The reset values of the registers (R31, R58), and the invariant of a legal state (R38, R40, R52, R56, R171,
R264, R266): one lemma per update of an idle block, a START and a reset says when it keeps it. -/

namespace Sys2Proof.Machine

/-! The parts of the invariant. -/

/-- A state update that leaves the flags but OUT_OVF, moves the phase neither into nor out of IDLE, and does not reach
phase code 7. -/
theorem State.StatusLegal.congr {s t : State} (hs : s.StatusLegal) (hbusy : t.status.busy = s.status.busy)
    (hdone : t.status.done = s.status.done) (herr : t.status.err = s.status.err)
    (hcode : t.status.errCode = s.status.errCode) (hinfo : t.errInfo = s.errInfo)
    (h0 : t.pos.phase ≠ 0 ↔ s.pos.phase ≠ 0) (h7 : t.pos.phase ≠ 7) : t.StatusLegal where
  busy_iff := by rw [hbusy, h0]; exact hs.busy_iff
  phase_legal := h7
  busy_flags := by rw [hbusy, hdone, herr]; exact hs.busy_flags
  not_both := by rw [hdone, herr]; exact hs.not_both
  no_error := by rw [herr, hcode, hinfo]; exact hs.no_error
  error_code := by rw [herr, hcode]; exact hs.error_code

/-- The flags of a block that is idle with no error. -/
theorem State.StatusLegal.of_idle {t : State} (hbusy : t.status.busy = false) (hphase : t.pos.phase = 0)
    (herr : t.status.err = false) (hcode : t.status.errCode = 0) (hinfo : t.errInfo = 0) : t.StatusLegal := by
  constructor <;> simp [hbusy, hphase, herr, hcode, hinfo]

/-- The flags of a block in a run. -/
theorem State.StatusLegal.of_run {t : State} (hbusy : t.status.busy = true) (h0 : t.pos.phase ≠ 0)
    (h7 : t.pos.phase ≠ 7) (hdone : t.status.done = false) (herr : t.status.err = false) (hcode : t.status.errCode = 0)
    (hinfo : t.errInfo = 0) : t.StatusLegal where
  busy_iff := ⟨fun _ => h0, fun _ => hbusy⟩
  phase_legal := h7
  busy_flags _ := ⟨hdone, herr⟩
  not_both := by simp [hdone]
  no_error _ := ⟨hcode, hinfo⟩
  error_code := by simp [herr]

/-- The flags of an idle block whose error waits for its acknowledgement (R301). -/
theorem State.StatusLegal.of_error {t : State} (hbusy : t.status.busy = false) (hphase : t.pos.phase = 0)
    (hdone : t.status.done = false) (herr : t.status.err = true)
    (hcode : 1 ≤ t.status.errCode.toNat ∧ t.status.errCode.toNat ≤ 5) : t.StatusLegal := by
  constructor <;> simp [hbusy, hphase, hdone, herr, hcode]

/-- Nothing is asked of the position of an idle block. -/
theorem State.PositionLegal.of_idle {t : State} (hbusy : t.status.busy = false) (hphase : t.pos.phase = 0) :
    t.PositionLegal := by
  constructor <;> simp [hbusy, hphase]

/-- The position in a pass over the samples. -/
theorem State.PositionLegal.of_pass {t : State} (hfits : t.total ≤ t.build.bufLen) (h4 : t.pos.phase.toNat ≤ 4)
    (hn : t.pos.n ≤ t.total) (hw : t.winCount = 0) (ho : t.outCount = 0) : t.PositionLegal where
  fits _ := hfits
  pass _ _ := ⟨hn, hw, ho⟩
  detect h := by simp [h] at h4
  flush h := by simp [h] at h4

/-- The position in the detect loop. -/
theorem State.PositionLegal.of_detect {t : State} (hfits : t.total ≤ t.build.bufLen) (hphase : t.pos.phase = 5)
    (hj : t.pos.j ≤ t.windows) (hw : t.winCount = BitVec.ofNat 32 t.pos.j) : t.PositionLegal where
  fits _ := hfits
  pass _ h := by simp [hphase] at h
  detect _ := ⟨hj, hw⟩
  flush h := by simp [hphase] at h

/-- The position in the flush. -/
theorem State.PositionLegal.of_flush {t : State} (hfits : t.total ≤ t.build.bufLen) (hphase : t.pos.phase = 6)
    (hw : t.winCount = BitVec.ofNat 32 t.windows) : t.PositionLegal where
  fits _ := hfits
  pass _ h := by simp [hphase] at h
  detect h := by simp [hphase] at h
  flush _ := hw

section Legal
variable {s : State} (hs : s.Inv)
include hs

/-- In a run BUSY is 1, no flag of an ended run is set, and the samples fit. -/
theorem State.Inv.in_run (h0 : s.pos.phase ≠ 0) : s.status.busy = true ∧ s.status.done = false ∧ s.status.err = false
    ∧ s.total ≤ s.build.bufLen := by
  have hbusy := hs.status.busy_iff.mpr h0
  obtain ⟨hdone, herr⟩ := hs.status.busy_flags hbusy
  exact ⟨hbusy, hdone, herr, hs.position.fits hbusy⟩

/-- Outside a run the phase is IDLE. -/
theorem State.Inv.phase_of_idle (hb : s.status.busy = false) : s.pos.phase = 0 := by
  by_contra h0
  rw [hs.status.busy_iff.mpr h0] at hb
  cases hb

/-! What the invariant does not speak of. -/

theorem State.Inv.withUnread (e : Bool) (w : Work) (l : DelayLine) (p : Port) :
    { s with irqEn := e, work := w, line := l, port := p }.Inv where
  build := hs.build
  status := hs.status.congr rfl rfl rfl rfl rfl Iff.rfl hs.status.phase_legal
  position := ⟨hs.position.fits, hs.position.pass, hs.position.detect, hs.position.flush⟩
  outCount := hs.outCount
  key := hs.key
  memory := hs.memory

theorem State.Inv.withWork (w : Work) : { s with work := w }.Inv := hs.withUnread s.irqEn w s.line s.port

theorem State.Inv.withPort (p : Port) : { s with port := p }.Inv := hs.withUnread s.irqEn s.work s.line p

theorem State.Inv.withIrqEn (e : Bool) : { s with irqEn := e }.Inv := hs.withUnread e s.work s.line s.port

theorem State.Inv.respond (r : Response) : (s.respond r).Inv := hs.withPort _

/-- The FSM registers move to a key or 0. -/
theorem State.Inv.withFsm {f : Fsm} (hf : f.lk.toNat ≤ 12) : { s with fsm := f }.Inv where
  build := hs.build
  status := hs.status.congr rfl rfl rfl rfl rfl Iff.rfl hs.status.phase_legal
  position := ⟨hs.position.fits, hs.position.pass, hs.position.detect, hs.position.flush⟩
  outCount := hs.outCount
  key := hf
  memory := hs.memory

theorem State.Inv.setSample {n : Nat} (w : Word) (hn : n < s.build.bufLen) : (s.setSample n w).Inv where
  build := hs.build
  status := hs.status.congr rfl rfl rfl rfl rfl Iff.rfl hs.status.phase_legal
  position := ⟨hs.position.fits, hs.position.pass, hs.position.detect, hs.position.flush⟩
  outCount := hs.outCount
  key := hs.key
  memory :=
    have ⟨_, _, hmax, _, _⟩ := hs.build
    State.setSample_wf (Nat.lt_of_lt_of_le hn hmax) hs.memory

/-! Transactions. -/

/-- A configuration write of an idle block (R277 to R280). -/
theorem State.Inv.withCfg (c : ConfigRegs) (hb : s.status.busy = false) : { s with cfg := c }.Inv where
  build := hs.build
  status := hs.status.congr rfl rfl rfl rfl rfl Iff.rfl hs.status.phase_legal
  position := .of_idle hb (hs.phase_of_idle hb)
  outCount := hs.outCount
  key := hs.key
  memory := hs.memory

/-- An acknowledged error takes its code and info with it (R276, R309). -/
theorem State.Inv.acknowledge (d e : Bool) (hb : s.status.busy = false) : (s.acknowledge d e).Inv where
  build := hs.build
  status := by
    cases e
    case true => exact .of_idle hb (hs.phase_of_idle hb) rfl rfl rfl
    case false =>
      exact {
        busy_iff := hs.status.busy_iff
        phase_legal := hs.status.phase_legal
        busy_flags := fun h => absurd (hb.symm.trans h) (by decide)
        not_both := by
          cases d
          · exact hs.status.not_both
          · simp
        no_error := hs.status.no_error
        error_code := hs.status.error_code }
  position := .of_idle hb (hs.phase_of_idle hb)
  outCount := hs.outCount
  key := hs.key
  memory := hs.memory

/-- A START refused for capacity (R264, R302). -/
theorem State.Inv.refuseStart (hb : s.status.busy = false) : s.refuseStart.Inv where
  build := hs.build
  status := .of_error hb (hs.phase_of_idle hb) rfl rfl (by simp [errCount])
  position := .of_idle hb (hs.phase_of_idle hb)
  outCount := hs.outCount
  key := hs.key
  memory := hs.memory

/-- An accepted START (R263, R264): a run over no sample has no window. -/
theorem State.Inv.beginRun (hN : s.total ≤ s.build.bufLen) : s.beginRun.Inv where
  build := hs.build
  status := by
    have hphase : s.beginRun.pos.phase ≠ 0 ∧ s.beginRun.pos.phase ≠ 7 := by
      rw [s.beginRun_pos]
      dsimp only
      split <;> decide
    exact .of_run rfl hphase.1 hphase.2 rfl rfl rfl rfl
  position := by
    by_cases h : s.total = 0
    · have hwin : s.beginRun.windows = 0 := by
        show windowCount s.total s.build.stride = 0
        rw [h]
        rfl
      exact .of_flush hN (by simp [h]) (by rw [hwin]; rfl)
    · exact .of_pass hN (by simp [h]) (Nat.zero_le _) rfl rfl
  outCount := Nat.zero_le _
  key := Nat.zero_le _
  memory := hs.memory

theorem State.Inv.start (hb : s.status.busy = false) : s.start.Inv := by
  obtain ⟨-, h⟩ | ⟨hN, h⟩ := s.start_cases <;> rw [h]
  · exact hs.refuseStart hb
  · exact hs.beginRun hN

end Legal

/-! Reset. -/

/-- CAPS shows the detector and the stride (R33). -/
theorem capsWord_eq (b : Build) :
    capsWord b = BitVec.ofNat 32 (b.detector.toNat + (if b.halfStride then 4 else 0)) := by
  have h : ∀ (d : BitVec 2) (f : Bool),
      (0 : BitVec 29) ++ BitVec.ofBool f ++ d = BitVec.ofNat 32 (d.toNat + (if f then 4 else 0)) := by decide
  exact h b.detector b.halfStride

/-- WIN_CFG's printed pattern (R31, R34, log entry 13). -/
theorem winCfgWord_eq (b : Build) : winCfgWord b = if b.halfStride then 0x044E08BD else 0x08BD08BD := by
  unfold winCfgWord
  cases b.halfStride <;> rfl

/-- Every register reads its reset value right after a reset, whatever RAM holds and whatever is to come (R31, R58). -/
theorem regValue_resetOf (b : Build) (m : Memory) (p : Port) (r : Reg) :
    regValue { State.resetOf b with mem := m, port := p } r = regReset b r := by
  cases r
  case caps => exact capsWord_eq b
  case winCfg => exact winCfgWord_eq b
  case ctrl => exact (by decide : (0 : BitVec 29) ++ BitVec.ofBool false ++ (0 : BitVec 2) = (0 : Word))
  case status =>
    exact (by decide : (0 : BitVec 21) ++ (0 : BitVec 3) ++ (0 : BitVec 4) ++ BitVec.ofBool false ++ BitVec.ofBool false
      ++ BitVec.ofBool false ++ BitVec.ofBool false = (0 : Word))
  case placeholder => exact (by decide : (0 : BitVec 24) ++ (0x3F : Byte) = (0x3F : Word))
  all_goals rfl

/-- The reset state of a legal build is legal, whatever RAM in its canonical form holds and what is to come (R58). -/
theorem State.resetOf_inv {b : Build} {m : Memory} (hb : b.Legal) (hm : m.wf) (p : Port) :
    { State.resetOf b with mem := m, port := p }.Inv where
  build := hb
  status := .of_idle rfl rfl rfl rfl rfl
  position := .of_idle rfl rfl
  outCount := Nat.zero_le _
  key := Nat.zero_le _
  memory := hm

theorem State.Inv.hardReset {s : State} (hs : s.Inv) : s.hardReset.Inv :=
  State.resetOf_inv hs.build s.mem.hardReset_wf _

theorem State.Inv.softReset {s : State} (hs : s.Inv) : s.softReset.Inv := by
  refine State.resetOf_inv hs.build ?_ _
  split
  · exact s.mem.forget_wf _ hs.memory
  · exact hs.memory

theorem Build.default_legal : Build.default.Legal := by
  unfold Build.Legal
  decide

/-- A reset pulse at the head of the agenda is the next step (R330). -/
theorem step_rst {s : State} {rest : List Stimulus} (hd : s.build.detector ≠ 3) (ha : s.port.agenda = .rst :: rest) :
    step s = .next (s.withAgenda rest).hardReset := by
  rw [step_eq, fetch_build hd, nextStimulus, ha]
  rfl

/-- Settles O7: the next step is the hardware reset, which leaves the reset state of the build. -/
theorem resetPulse : Obligations.ResetPulse := fun s _ hd ha =>
  ⟨_, step_rst hd ha, regValue_resetOf s.build _ _, rfl, rfl, rfl, rfl, rfl⟩

/-- Settles O8: the reset column is the one of the default build. -/
theorem resetValues : Obligations.ResetValues := by
  refine ⟨?_, rfl, rfl, rfl⟩
  calc Reg.all.map (regValue State.reset)
    _ = Reg.all.map (regReset .default) :=
      List.map_congr_left fun r _ => regValue_resetOf .default ⟨[], 0, []⟩ ⟨[], none, 0⟩ r
    _ = _ := rfl

/-- Settles O9. -/
theorem resetIsLegal : Obligations.ResetIsLegal :=
  State.resetOf_inv Build.default_legal (by decide : (⟨[], 0, []⟩ : Memory).wf) _

end Sys2Proof.Machine
end

section
/-! PROOFS. Every step from a legal state gives a legal state (R38, R40, R52, R56, R171, R264, R266): the operations of
a run, each where the position selects it, and then every operation and every step. -/

namespace Sys2Proof.Machine

section Legal
variable {s : State} (hs : s.Inv)
include hs

/-! Emission and the segmentation FSM. -/

/-- An emission in the detect loop or the flush (R236). -/
theorem State.Inv.emit (k : BitVec 4) (p : Byte) (hphase : 5 ≤ s.pos.phase.toNat) : (s.emit k p).Inv where
  build := by rw [s.emit_build]; exact hs.build
  status := hs.status.congr (s.emit_busy k p) (s.emit_done k p) (s.emit_err k p) (s.emit_errCode k p)
    (s.emit_errInfo k p) (by rw [s.emit_pos]) (by rw [s.emit_pos]; exact hs.status.phase_legal)
  position := by
    have hwin : (s.emit k p).windows = s.windows := State.windows_congr (s.emit_build k p) (s.emit_cfg k p)
    constructor
    · rw [s.emit_busy, State.total_congr (s.emit_cfg k p), s.emit_build]
      exact hs.position.fits
    · intro _ h4
      rw [s.emit_pos] at h4
      omega
    · rw [s.emit_pos, s.emit_winCount, hwin]
      exact hs.position.detect
    · rw [s.emit_pos, s.emit_winCount, hwin]
      exact hs.position.flush
  outCount := by
    obtain ⟨_, _, _, _, hmax⟩ := hs.build
    rw [s.emit_build]
    exact State.emit_outCount_le k p hmax hs.outCount
  key := by rw [s.emit_fsm]; exact hs.key
  memory :=
    have ⟨_, _, _, _, hmax⟩ := hs.build
    State.emit_wf k p hmax hs.memory

/-- A window in phase DETECT leaves LK a key or 0 (R222, R223, R228). -/
theorem State.Inv.fsmStep {c : BitVec 4} (hc : c.toNat ≤ 12) (hphase : s.pos.phase = 5) : (s.fsmStep c).Inv := by
  obtain ⟨f, hf, h⟩ | ⟨-, p, -, h⟩ := s.fsmStep_cases c <;> rw [h]
  · refine hs.withFsm ?_
    obtain hf | hf | hf := hf <;> rw [hf]
    · exact hs.key
    · exact Nat.zero_le _
    · exact hc
  · exact (hs.emit s.fsm.lk p (by simp [hphase])).withFsm (Nat.zero_le _)

/-- The flush's emission (R231). -/
theorem State.Inv.flushEmit (hphase : s.pos.phase = 6) : s.flushEmit.Inv := by
  obtain h | ⟨-, -, h⟩ := s.flushEmit_cases <;> rw [h]
  · exact hs
  · exact hs.emit _ _ (by simp [hphase])

/-! The end of a run. -/

/-- An error entry of a run (R268, R303). -/
theorem State.Inv.raise {c : BitVec 4} (info : Nat) (h0 : s.pos.phase ≠ 0) (hc : 1 ≤ c.toNat ∧ c.toNat ≤ 5) :
    (s.raise c info).Inv where
  build := hs.build
  status := .of_error rfl rfl (hs.in_run h0).2.1 rfl hc
  position := .of_idle rfl rfl
  outCount := hs.outCount
  key := hs.key
  memory := hs.memory

/-- The completion of a run (R267). -/
theorem State.Inv.complete (h0 : s.pos.phase ≠ 0) : s.complete.Inv where
  build := hs.build
  status :=
    have ⟨_, _, herr, _⟩ := hs.in_run h0
    have ⟨hcode, hinfo⟩ := hs.status.no_error herr
    .of_idle rfl rfl herr hcode hinfo
  position := .of_idle rfl rfl
  outCount := hs.outCount
  key := hs.key
  memory := hs.memory

/-! The position's moves. -/

/-- A state that differs from a legal one in a run by its position and WIN_COUNT alone. -/
theorem State.Inv.move {pos : SeqPos} {win : Word} (h0 : s.pos.phase ≠ 0) (h0' : pos.phase ≠ 0) (h7 : pos.phase ≠ 7)
    (hpos : { s with pos := pos, winCount := win }.PositionLegal) : { s with pos := pos, winCount := win }.Inv where
  build := hs.build
  status := hs.status.congr rfl rfl rfl rfl rfl ⟨fun _ => h0, fun _ => h0'⟩ h7
  position := hpos
  outCount := hs.outCount
  key := hs.key
  memory := hs.memory

/-- What a legal state in a pass over the samples has. -/
theorem State.Inv.in_pass (hpass : 1 ≤ s.pos.phase.toNat ∧ s.pos.phase.toNat ≤ 4) : s.pos.phase ≠ 0
    ∧ s.total ≤ s.build.bufLen ∧ s.pos.n ≤ s.total ∧ s.winCount = 0 ∧ s.outCount = 0 := by
  have h0 : s.pos.phase ≠ 0 := by
    intro h
    simp [h] at hpass
  obtain ⟨-, -, -, hfits⟩ := hs.in_run h0
  exact ⟨h0, hfits, hs.position.pass hpass.1 hpass.2⟩

/-- The next sample of a pass that has one left (R265). -/
theorem State.Inv.nextSample (hpass : 1 ≤ s.pos.phase.toNat ∧ s.pos.phase.toNat ≤ 4) (hn : s.pos.n ≠ s.total) :
    s.nextSample.Inv := by
  obtain ⟨h0, hfits, hle, hwin, hout⟩ := hs.in_pass hpass
  have hlt : s.pos.n + 1 ≤ s.total := by omega
  exact hs.move h0 h0 hs.status.phase_legal (.of_pass hfits hpass.2 hlt hwin hout)

/-- The next pass (R265). -/
theorem State.Inv.enterPass {p : BitVec 3} (hpass : 1 ≤ s.pos.phase.toNat ∧ s.pos.phase.toNat ≤ 4)
    (hp : 1 ≤ p.toNat ∧ p.toNat ≤ 4) : (s.enterPass p).Inv := by
  obtain ⟨h0, hfits, -, hwin, hout⟩ := hs.in_pass hpass
  have hp0 : p ≠ 0 := by
    rintro rfl
    simp at hp
  have hp7 : p ≠ 7 := by
    rintro rfl
    simp at hp
  exact hs.move h0 hp0 hp7 (.of_pass hfits hp.2 (Nat.zero_le _) hwin hout)

/-- The detect loop begins at window 0 (R151, R265). -/
theorem State.Inv.enterDetect (hpass : 1 ≤ s.pos.phase.toNat ∧ s.pos.phase.toNat ≤ 4) :
    { s with pos := ⟨5, 0, 0⟩ }.Inv := by
  obtain ⟨h0, hfits, -, hwin, -⟩ := hs.in_pass hpass
  exact hs.move h0 (by simp) (by simp) (.of_detect hfits rfl (Nat.zero_le _) hwin)

/-- The next window of the detect loop (R196, R266). -/
theorem State.Inv.nextWindow (hphase : s.pos.phase = 5) (hj : s.pos.j ≠ s.windows) : s.nextWindow.Inv := by
  have h0 : s.pos.phase ≠ 0 := by simp [hphase]
  obtain ⟨-, -, -, hfits⟩ := hs.in_run h0
  obtain ⟨hle, -⟩ := hs.position.detect hphase
  have hlt : s.pos.j + 1 ≤ s.windows := by omega
  exact hs.move h0 h0 hs.status.phase_legal (.of_detect hfits hphase hlt rfl)

/-- The detect loop ends with every window counted (R197, R266). -/
theorem State.Inv.enterFlush (hphase : s.pos.phase = 5) (hj : s.pos.j = s.windows) :
    { s with pos := { s.pos with phase := 6 } }.Inv := by
  have h0 : s.pos.phase ≠ 0 := by simp [hphase]
  obtain ⟨-, -, -, hfits⟩ := hs.in_run h0
  obtain ⟨-, hwin⟩ := hs.position.detect hphase
  exact hs.move h0 (by simp) (by simp) (.of_flush hfits rfl (hj ▸ hwin))

end Legal

/-! Every operation and every step. -/

/-- A micro-operation performed where the position selects it. -/
theorem micro_keeps_inv {i : Instr} {s t : State} (hs : s.Inv) (hi : s.Selects i) (h : MicroCases i s t) : t.Inv := by
  cases h with
  | raise w c k h _ hc =>
    rw [h]
    refine (hs.withWork w).raise k hi.phase_ne.1 ?_
    obtain ⟨-, rfl, -⟩ | ⟨-, rfl, -⟩ | ⟨-, rfl, -⟩ | ⟨-, rfl, -⟩ | ⟨-, rfl, -⟩ := hc <;> decide
  | statsStep v hi' _ _ h =>
    subst hi' h
    cases hi with | statsStep hp hn =>
    exact (hs.withWork _).nextSample (by simp [hp]) hn
  | statsEnd hi' h =>
    subst hi' h
    cases hi with | statsEnd hp _ =>
    exact (hs.withWork _).enterPass (by simp [hp]) (by decide)
  | varStep d hi' _ h =>
    subst hi' h
    cases hi with | varStep hp hn =>
    exact (hs.withWork _).nextSample (by simp [hp]) hn
  | varEnd hi' h =>
    subst hi' h
    cases hi with | varEnd hp _ =>
    exact (hs.withWork _).enterPass (by simp [hp]) (by decide)
  | gateStep w hi' hlt h =>
    subst hi' h
    cases hi with | gateStep hp hn =>
    exact ((hs.setSample w hlt).withWork _).nextSample (by simp [hp]) hn
  | gateEnd b hi' h =>
    subst hi' h
    cases hi with | gateEnd hp _ =>
    exact (hs.withUnread s.irqEn _ _ s.port).enterPass (by simp [hp]) (by decide)
  | filterStep w x hi' hlt h =>
    subst hi' h
    cases hi with | filterStep hp hn =>
    exact ((hs.setSample x hlt).withUnread s.irqEn s.work _ s.port).nextSample (by simp [hp]) hn
  | filterEnd hi' h =>
    subst hi' h
    cases hi with | filterEnd hp _ =>
    exact hs.enterDetect (by simp [hp])
  | detectStep c hi' hc h =>
    subst hi'
    cases hi with | detectStep hp hj =>
    have hport := hs.withPort { s.port with cls := c }
    obtain ⟨hbuild, -, -, -, -, -, -, -, hcfg, hpos, -⟩ :=
      State.fsmStep_frame { s with port := { s.port with cls := c } } c
    rw [h]
    refine (hport.fsmStep hc hp).nextWindow (by rw [hpos]; exact hp) ?_
    rw [hpos, State.windows_congr hbuild hcfg]
    exact hj
  | detectEnd hi' h =>
    subst hi' h
    cases hi with | detectEnd hp hj =>
    exact hs.enterFlush hp hj
  | flush hi' h =>
    subst hi' h
    cases hi with | flush hp =>
    obtain ⟨-, -, -, -, -, -, -, -, -, hpos, -⟩ := s.flushEmit_frame
    refine ((hs.flushEmit hp).withFsm (f := .reset) (Nat.zero_le _)).complete ?_
    show s.flushEmit.pos.phase ≠ 0
    simp [hpos, hp]

/-- A control write (R274, R331). -/
theorem wrCtrl_keeps_inv {w : Word} {s t : State} (hs : s.Inv) (h : execWrCtrl w s = .next t) : t.Inv := by
  obtain ⟨-, he⟩ | ⟨-, -, -, he⟩ | ⟨-, -, hb, he⟩ | ⟨-, -, he⟩ := execWrCtrl_cases w s <;>
    obtain rfl := Host.Outcome.next.inj (he.symm.trans h)
  · exact hs.softReset.respond _
  · exact hs.respond _
  · exact ((hs.withIrqEn (w.getLsbD 2)).start hb).respond _
  · exact (hs.withIrqEn (w.getLsbD 2)).respond _

/-- An operation performed where the block allows it. -/
theorem exec_keeps_inv {i : Instr} {s t : State} (hs : s.Inv) (hi : s.Allows i) (hexec : exec i s = .next t) :
    t.Inv := by
  cases exec_cases hexec with
  | respond r _ h => rw [h]; exact hs.respond r
  | config c r _ hb h => rw [h]; exact (hs.withCfg c hb).respond r
  | acknowledge w r _ hb h => rw [h]; exact (hs.acknowledge _ _ hb).respond r
  | control w _ h => exact wrCtrl_keeps_inv hs h
  | sample n w r _ _ hn h => rw [h]; exact (hs.setSample w hn).respond r
  | silence hi' h =>
    subst hi'
    rw [h]
    exact hs.fsmStep (Nat.zero_le _) (hi.detect rfl rfl)
  | key k hk _ h12 h =>
    have hrow : ∀ x ∈ keyRows, isBusRow x.2 = false ∧ isMicroOp x.2 = false := by decide
    obtain ⟨hbus, hmicro⟩ := hrow _ hk
    rw [h]
    exact hs.fsmStep h12 (hi.detect hbus hmicro)
  | micro hm h => exact micro_keeps_inv hs (hi.selects hm) (micro_cases hm h)
  | classify hd h =>
    have hrow : ∀ x ∈ [Instr.detClassifyGoertzel, .detClassifyGoertzelStrict, .detClassifySpectral],
        isBusRow x = false ∧ isMicroOp x = false := by decide
    obtain ⟨hbus, hmicro⟩ := hrow _ hd
    obtain h | ⟨c, h⟩ := h <;> rw [h]
    · exact hs.raise _ (by simp [hi.detect hbus hmicro]) (by decide)
    · exact hs.withPort _

/-- Settles O50: a step takes a stimulus and idles, is reset, or performs an operation the block allows, and each keeps
the invariant. -/
theorem stepKeepsLegal : Obligations.StepKeepsLegal := by
  intro s t hs h
  cases step_taken h with
  | idle rest h => rw [h]; exact hs.withPort _
  | reset rest h => rw [h]; exact State.Inv.hardReset (s := s.withAgenda rest) (hs.withPort _)
  | perform rest i hi h => exact exec_keeps_inv (s := s.withAgenda rest) (hs.withPort _) hi h

end Sys2Proof.Machine
end

section
/-! PROOFS. No step changes the build; what can set each flag, and when `irq` rises; what an operation can change in
memory (R47, R48, R57, R59, R61, R94, R267, R268, R284, R312, R332, R333, R340). -/

namespace Sys2Proof.Machine

/-! The build (R59, R333). -/

theorem micro_build {i : Instr} {s t : State} (h : MicroCases i s t) : t.build = s.build := by
  cases h with
  | detectStep c _ _ h => rw [h]; exact (State.fsmStep_frame _ c).1
  | flush _ h => rw [h]; exact s.flushEmit_frame.1
  | _ => subst t; rfl

theorem wrCtrl_build {w : Word} {s t : State} (h : execWrCtrl w s = .next t) : t.build = s.build := by
  obtain ⟨-, he⟩ | ⟨-, -, -, he⟩ | ⟨-, -, -, he⟩ | ⟨-, -, he⟩ := execWrCtrl_cases w s <;>
    obtain rfl := Host.Outcome.next.inj (he.symm.trans h)
  · rfl
  · rfl
  · obtain ⟨-, he⟩ | ⟨-, he⟩ := State.start_cases { s with irqEn := w.getLsbD 2 } <;> rw [he] <;> rfl
  · rfl

theorem exec_build {i : Instr} {s t : State} (hexec : exec i s = .next t) : t.build = s.build := by
  cases exec_cases hexec with
  | control w _ h => exact wrCtrl_build h
  | silence _ h => rw [h]; exact (s.fsmStep_frame 0).1
  | key k _ _ _ h => rw [h]; exact (s.fsmStep_frame k).1
  | micro hm h => exact micro_build (micro_cases hm h)
  | classify _ h => obtain rfl | ⟨c, rfl⟩ := h <;> rfl
  | _ => subst t; rfl

/-- Settles O52: a reset keeps the build it resets, and no operation writes it. -/
theorem stepKeepsBuild : Obligations.StepKeepsBuild := by
  intro s t h
  cases step_taken h with
  | idle rest h => rw [h]; rfl
  | reset rest h => rw [h]; rfl
  | perform rest i _ h => exact exec_build (s := s.withAgenda rest) h

/-! The flags a micro-operation leaves (R61, R267, R268). -/

/-- What a micro-operation makes of the flags and IRQ_EN: an error entry, the next micro-step to come, or completion. -/
inductive MicroFlags (i : Instr) (s t : State) : Prop
  | raised (hi : i ∈ [Instr.seqStatsStep, .seqStatsEnd, .seqVarEnd, .seqFilterStep, .seqDetectStep])
      (hbusy : t.status.busy = false) (herr : t.status.err = true) (hdone : t.status.done = s.status.done)
      (hovf : t.status.outOvf = s.status.outOvf)
  | running (hbusy : t.status.busy = s.status.busy) (herr : t.status.err = s.status.err)
      (hdone : t.status.done = s.status.done) (hovf : t.status.outOvf = s.status.outOvf ∨ i = .seqDetectStep)
  | completed (hi : i = .seqFlush) (hbusy : t.status.busy = false) (hdone : t.status.done = true)
      (herr : t.status.err = s.status.err)

theorem micro_flags {i : Instr} {s t : State} (h : MicroCases i s t) : MicroFlags i s t := by
  cases h with
  | raise w c k h _ hc =>
    subst h
    refine .raised ?_ rfl rfl rfl rfl
    obtain ⟨rfl, -⟩ | ⟨rfl, -⟩ | ⟨rfl, -⟩ | ⟨rfl, -⟩ | ⟨rfl, -⟩ := hc <;> simp
  | detectStep c hi _ h =>
    obtain ⟨-, -, hbusy, hdone, herr, -⟩ := State.fsmStep_frame { s with port := { s.port with cls := c } } c
    subst h
    exact .running hbusy herr hdone (.inr hi)
  | flush hi h =>
    obtain ⟨-, -, -, -, herr, -⟩ := s.flushEmit_frame
    subst h
    exact .completed hi rfl rfl herr
  | _ => subst t; exact .running rfl rfl rfl (.inl rfl)

/-- No micro-operation writes IRQ_EN (R261). -/
theorem micro_irqEn {i : Instr} {s t : State} (h : MicroCases i s t) : t.irqEn = s.irqEn := by
  cases h with
  | detectStep c _ _ h => rw [h]; exact (State.fsmStep_frame _ c).2.1
  | flush _ h => rw [h]; exact s.flushEmit_frame.2.1
  | _ => subst t; rfl

/-- Settles O47: the flag of an ended run is set exactly when BUSY is cleared. -/
theorem irqRisesAtRunEnd : Obligations.IrqRisesAtRunEnd := by
  intro s t i hm hs hb h
  have hcases := micro_cases hm h
  obtain ⟨hdone, herr⟩ := hs.busy_flags hb
  have hended : (t.status.done || t.status.err) = !t.status.busy := by
    cases micro_flags hcases with
    | raised _ hbusy' herr' => simp [hbusy', herr']
    | running hbusy' herr' hdone' => simp [hbusy', herr', hdone', hb, hdone, herr]
    | completed _ hbusy' hdone' => simp [hbusy', hdone']
  rw [State.irq, micro_irqEn hcases, hended]

/-! What can set a flag (R61, R340). -/

/-- Each flag that is set after an operation was set before it, or the operation is one that may set it. -/
structure FlagsRule (i : Instr) (s t : State) : Prop where
  done : t.status.done = true → s.status.done = true ∨ i = .seqFlush
  err : t.status.err = true → s.status.err = true
    ∨ i ∈ [Instr.seqStatsStep, .seqStatsEnd, .seqVarEnd, .seqFilterStep, .seqDetectStep]
    ∨ i ∈ [Instr.detClassifyGoertzel, .detClassifyGoertzelStrict, .detClassifySpectral]
    ∨ ∃ w, i = .wrCtrl w ∧ w.getLsbD 0 = true ∧ s.build.bufLen < s.total
  busy : t.status.busy = true → s.status.busy = true
    ∨ ∃ w, i = .wrCtrl w ∧ w.getLsbD 0 = true ∧ w.getLsbD 1 = false ∧ s.total ≤ s.build.bufLen
  outOvf : t.status.outOvf = true → s.status.outOvf = true ∨ i ∈ [Instr.fsmStepSilence, .seqDetectStep, .seqFlush]

/-- An operation that leaves the flags. -/
theorem FlagsRule.of_status_eq {i : Instr} {s t : State} (h : t.status = s.status) : FlagsRule i s t := by
  constructor <;> rw [h] <;> exact .inl

theorem micro_flagsRule {i : Instr} {s t : State} (h : MicroFlags i s t) : FlagsRule i s t := by
  cases h with
  | raised hi hbusy herr hdone hovf =>
    exact ⟨fun h => .inl (hdone ▸ h), fun _ => .inr (.inl hi), fun h => absurd (hbusy.symm.trans h) (by decide),
      fun h => .inl (hovf ▸ h)⟩
  | running hbusy herr hdone hovf =>
    refine ⟨fun h => .inl (hdone ▸ h), fun h => .inl (herr ▸ h), fun h => .inl (hbusy ▸ h), fun h => ?_⟩
    obtain hovf | rfl := hovf
    · exact .inl (hovf ▸ h)
    · exact .inr (by simp)
  | completed hi hbusy hdone herr =>
    exact ⟨fun _ => .inr hi, fun h => .inl (herr ▸ h), fun h => absurd (hbusy.symm.trans h) (by decide),
      fun _ => .inr (by simp [hi])⟩

/-- A soft reset clears every flag; a START sets ERR or BUSY, by the capacity (R263, R331). -/
theorem wrCtrl_flagsRule {w : Word} {s t : State} (h : execWrCtrl w s = .next t) : FlagsRule (.wrCtrl w) s t := by
  obtain ⟨-, he⟩ | ⟨-, -, -, he⟩ | ⟨h1, h0, -, he⟩ | ⟨-, -, he⟩ := execWrCtrl_cases w s <;>
    obtain rfl := Host.Outcome.next.inj (he.symm.trans h)
  · constructor <;> intro h <;> cases h
  · exact .of_status_eq rfl
  · obtain ⟨hN, he⟩ | ⟨hN, he⟩ := State.start_cases { s with irqEn := w.getLsbD 2 } <;> rw [he]
    · exact ⟨nofun, fun _ => .inr (.inr (.inr ⟨w, rfl, h0, hN⟩)), .inl, .inl⟩
    · exact ⟨nofun, nofun, fun _ => .inr ⟨w, rfl, h0, h1, hN⟩, nofun⟩
  · exact .of_status_eq rfl

theorem exec_flagsRule {i : Instr} {s t : State} (hexec : exec i s = .next t) : FlagsRule i s t := by
  cases exec_cases hexec with
  | respond r _ h => rw [h]; exact .of_status_eq rfl
  | config c r _ _ h => rw [h]; exact .of_status_eq rfl
  | acknowledge w r _ _ h =>
    rw [h]
    exact ⟨by simp +contextual, by simp +contextual, .inl, .inl⟩
  | control w hi h => rw [hi]; exact wrCtrl_flagsRule h
  | sample n w r _ _ _ h => rw [h]; exact .of_status_eq rfl
  | silence hi h =>
    obtain ⟨-, -, hbusy, hdone, herr, -⟩ := s.fsmStep_frame 0
    rw [h]
    exact ⟨fun h => .inl (hdone ▸ h), fun h => .inl (herr ▸ h), fun h => .inl (hbusy ▸ h), fun _ => .inr (by simp [hi])⟩
  | key k _ h0 _ h => rw [h]; exact .of_status_eq (s.fsmStep_key k h0).1
  | micro hm h => exact micro_flagsRule (micro_flags (micro_cases hm h))
  | classify hi h =>
    obtain rfl | ⟨c, rfl⟩ := h
    · exact ⟨.inl, fun _ => .inr (.inr (.inl hi)), nofun, .inl⟩
    · exact .of_status_eq rfl

/-- Settles O49, by what each operation can do. -/
theorem flagsSetOnlyWhereTheRulesSay : Obligations.FlagsSetOnlyWhereTheRulesSay := fun _ _ _ h =>
  have ⟨hdone, herr, hbusy, hovf⟩ := exec_flagsRule h
  ⟨hdone, herr, hbusy, hovf⟩

/-! Memory (R47, R48, R284, R332). -/

theorem micro_read {i : Instr} {s t : State} {a : Nat} (hm : s.mem.wf) (h : MicroCases i s t)
    (ha : ∀ b, storeAddr i s = some b → a < b ∨ b + 4 ≤ a) : t.mem.read a = s.mem.read a := by
  cases h with
  | gateStep w hi _ h => subst hi h; exact s.mem.read_writeWord_frame _ _ _ hm.1 (ha _ rfl)
  | filterStep w x hi _ h => subst hi h; exact s.mem.read_writeWord_frame _ _ _ hm.1 (ha _ rfl)
  | detectStep c hi _ h =>
    subst hi h
    exact State.fsmStep_read (s := { s with port := { s.port with cls := c } }) c hm (ha _ rfl)
  | flush hi h => subst hi h; exact State.flushEmit_read hm (ha _ rfl)
  | _ => subst t; rfl

/-- A START and a soft reset of an idle block leave memory; a soft reset of a run forgets (R332). -/
theorem wrCtrl_read {w : Word} {s t : State} {a : Nat} (h : execWrCtrl w s = .next t)
    (ha : w.getLsbD 1 = true → s.status.busy = true → forgotten s.total a = false) : t.mem.read a = s.mem.read a := by
  obtain ⟨h1, he⟩ | ⟨-, -, -, he⟩ | ⟨-, -, -, he⟩ | ⟨-, -, he⟩ := execWrCtrl_cases w s <;>
    obtain rfl := Host.Outcome.next.inj (he.symm.trans h)
  · show s.softReset.mem.read a = _
    rw [s.softReset_mem]
    split
    · exact s.mem.read_forget _ _ (ha h1 ‹_›)
    · rfl
  · rfl
  · obtain ⟨-, he⟩ | ⟨-, he⟩ := State.start_cases { s with irqEn := w.getLsbD 2 } <;> rw [he] <;> rfl
  · rfl

/-- An operation that is no control write stores at most the word of `storeAddr`. -/
theorem exec_read {i : Instr} {s t : State} {a : Nat} (hm : s.mem.wf) (hexec : exec i s = .next t)
    (hctrl : ∀ w, i ≠ .wrCtrl w) (ha : ∀ b, storeAddr i s = some b → a < b ∨ b + 4 ≤ a) :
    t.mem.read a = s.mem.read a := by
  cases exec_cases hexec with
  | control w hi _ => exact absurd hi (hctrl w)
  | sample n w r hi _ _ h => subst hi h; exact s.mem.read_writeWord_frame _ _ _ hm.1 (ha _ rfl)
  | silence hi h => subst hi h; exact State.fsmStep_read 0 hm (ha _ rfl)
  | key k _ h0 _ h => rw [h, (s.fsmStep_key k h0).2.1]
  | micro hi h => exact micro_read hm (micro_cases hi h) ha
  | classify _ h => obtain rfl | ⟨c, rfl⟩ := h <;> rfl
  | _ => subst t; rfl

/-- Settles O53. -/
theorem memoryFrame : Obligations.MemoryFrame := by
  intro s t i hm h
  refine ⟨fun hctrl a ha => exec_read hm h hctrl ha, fun w hi a ha => ?_⟩
  subst hi
  exact wrCtrl_read h ha

end Sys2Proof.Machine
end

section
/-! PROOFS. The binary32 layout loses nothing (R90, R115): a pattern is assembled from a sign, an exponent and a fraction field,
and a datum that is no NaN has one such triple. -/

namespace Sys2Proof

/-! A pattern and a datum, each from the three fields of R90. -/

/-- The pattern with the given sign, exponent and fraction fields. -/
def patternOf (s : Bool) (ex fr : Nat) : Word := BitVec.ofNat 32 ((if s then 2 ^ 31 else 0) + (ex * 2 ^ 23 + fr))

/-- The datum the given fields stand for. -/
def datumOf (s : Bool) (ex fr : Nat) : F32 :=
  if ex = 255 then (if fr = 0 then .inf s else .nan)
  else if ex = 0 then .fin s fr
  else .fin s ((2 ^ 23 + fr) * 2 ^ (ex - 1))

theorem ofBits_eq_datumOf (w : Word) :
    F32.ofBits w = datumOf (w.getLsbD 31) (w.extractLsb' 23 8).toNat (w.extractLsb' 0 23).toNat := rfl

theorem patternOf_toNat (s : Bool) {ex fr : Nat} (hex : ex < 256) (hfr : fr < 2 ^ 23) :
    (patternOf s ex fr).toNat = (if s then 2 ^ 31 else 0) + (ex * 2 ^ 23 + fr) := by
  rw [patternOf, BitVec.toNat_ofNat, Nat.mod_eq_of_lt]
  split <;> omega

theorem signBit_eq (w : Word) : w.getLsbD 31 = decide (2 ^ 31 ≤ w.toNat) := BitVec.msb_eq_decide w

theorem exponentField_eq (w : Word) : (w.extractLsb' 23 8).toNat = w.toNat / 2 ^ 23 % 256 := by
  simp [BitVec.extractLsb'_toNat, Nat.shiftRight_eq_div_pow]

theorem fractionField_eq (w : Word) : (w.extractLsb' 0 23).toNat = w.toNat % 2 ^ 23 := by
  simp [BitVec.extractLsb'_toNat]

theorem patternOf_fields (w : Word) :
    patternOf (w.getLsbD 31) (w.extractLsb' 23 8).toNat (w.extractLsb' 0 23).toNat = w := by
  apply BitVec.eq_of_toNat_eq
  rw [patternOf_toNat _ (BitVec.isLt _) (BitVec.isLt _), signBit_eq, exponentField_eq, fractionField_eq]
  have := w.isLt
  simp only [decide_eq_true_eq]
  split <;> omega

theorem ofBits_patternOf (s : Bool) {ex fr : Nat} (hex : ex < 256) (hfr : fr < 2 ^ 23) :
    F32.ofBits (patternOf s ex fr) = datumOf s ex fr := by
  rw [ofBits_eq_datumOf, signBit_eq, exponentField_eq, fractionField_eq, patternOf_toNat s hex hfr]
  congr 1
  · cases s <;> simp; omega
  · split <;> omega
  · split <;> omega

/-! The exponent and fraction of a magnitude: its grid is the one rounding uses, `quantumBits` of it over 1. -/

theorem magBits_eq (m : Nat) : magBits m = quantumBits m 1 * 2 ^ 23 + m / 2 ^ quantumBits m 1 := by
  simp only [magBits, quantumBits, Nat.div_one]

/-- Below 2^24 the bits are the magnitude itself: there the exponent fields 0 and 1 have the same grid. -/
theorem magBits_of_lt {m : Nat} (hm : m < 2 ^ 24) : magBits m = m := by
  have hq : quantumBits m 1 = 0 := by
    by_contra h0
    have hge := (quantumBits_spec (num := m) Nat.one_pos).2 h0
    have hpow : 2 ^ 1 ≤ 2 ^ quantumBits m 1 := Nat.pow_le_pow_right (by omega) (by omega)
    omega
  simp [magBits_eq, hq]

/-- A normal magnitude: the hidden bit is the one above the fraction. -/
theorem magBits_normal {fr : Nat} (q : Nat) (hfr : fr < 2 ^ 23) :
    magBits ((2 ^ 23 + fr) * 2 ^ q) = (q + 1) * 2 ^ 23 + fr := by
  have hq : quantumBits ((2 ^ 23 + fr) * 2 ^ q) 1 = q := by
    apply quantumBits_eq Nat.one_pos <;> rw [Nat.one_mul]
    · exact Nat.mul_le_mul_right _ (by omega)
    · exact Nat.mul_lt_mul_of_pos_right (by omega) (Nat.two_pow_pos q)
  rw [magBits_eq, hq, Nat.mul_div_cancel _ (Nat.two_pow_pos q)]
  omega

theorem toBits_datumOf {s : Bool} {ex fr : Nat} (hfr : fr < 2 ^ 23) (hnan : datumOf s ex fr ≠ .nan) :
    (datumOf s ex fr).toBits = patternOf s ex fr := by
  unfold datumOf at hnan ⊢
  by_cases hinf : ex = 255
  · subst hinf
    by_cases h0 : fr = 0
    · subst h0; rfl
    · simp [h0] at hnan
  · rw [if_neg hinf]
    by_cases h0 : ex = 0
    · rw [if_pos h0, F32.toBits, magBits_of_lt (by omega), patternOf, h0, Nat.zero_mul, Nat.zero_add]
    · rw [if_neg h0, F32.toBits, magBits_normal _ hfr, Nat.sub_add_cancel (by omega), patternOf]

/-- The converse of `representable_of_significand` for a normal magnitude: the significand has its hidden bit set. -/
theorem significand_of_representable {s : Bool} {m : Nat} (h : (F32.fin s m).representable = true) (hm : 2 ^ 23 ≤ m) :
    ∃ fr q, fr < 2 ^ 23 ∧ q ≤ 253 ∧ m = (2 ^ 23 + fr) * 2 ^ q := by
  obtain ⟨hover, hdvd⟩ := (representable_iff s m).1 h
  obtain ⟨hlt, hge⟩ := quantumBits_spec (num := m) Nat.one_pos
  have hq : quantumBits m 1 = Nat.log2 m - 23 := by rw [quantumBits, Nat.div_one]
  rw [← hq] at hdvd
  rw [Nat.one_mul] at hlt hge
  generalize quantumBits m 1 = q at *
  obtain ⟨k, rfl⟩ := exists_eq_mul_left_of_dvd hdvd
  have hk : k < 2 ^ 24 := Nat.lt_of_mul_lt_mul_right hlt
  have hk' : 2 ^ 23 ≤ k := by
    by_cases h0 : q = 0
    · simpa [h0] using hm
    · exact Nat.le_of_mul_le_mul_right (hge h0) (Nat.two_pow_pos q)
  have hq253 : q ≤ 253 := by
    by_contra hc
    have hpow : 2 ^ 254 ≤ 2 ^ q := Nat.pow_le_pow_right (by omega) (by omega)
    have hprod : 2 ^ 23 * 2 ^ 254 ≤ k * 2 ^ q := Nat.mul_le_mul hk' hpow
    rw [overflowMag] at hover
    omega
  exact ⟨k - 2 ^ 23, q, by omega, hq253, by rw [Nat.add_sub_cancel' hk']⟩

/-- Every representable datum but a NaN is the datum of some fields. -/
theorem exists_datumOf {x : F32} (hnan : x ≠ .nan) (h : x.representable = true) :
    ∃ s ex fr, ex < 256 ∧ fr < 2 ^ 23 ∧ x = datumOf s ex fr := by
  cases x with
  | nan => exact absurd rfl hnan
  | inf s => exact ⟨s, 255, 0, by omega, by omega, rfl⟩
  | fin s m =>
    by_cases hm : m < 2 ^ 23
    · exact ⟨s, 0, m, by omega, hm, rfl⟩
    · obtain ⟨fr, q, hfr, hq, rfl⟩ := significand_of_representable h (by omega)
      refine ⟨s, q + 1, fr, by omega, hfr, ?_⟩
      rw [datumOf, if_neg (by omega), if_neg (by omega), Nat.add_sub_cancel]

theorem toBits_ofBits {w : Word} (h : F32.ofBits w ≠ .nan) : (F32.ofBits w).toBits = w := by
  rw [ofBits_eq_datumOf] at h ⊢
  rw [toBits_datumOf (BitVec.isLt _) h, patternOf_fields]

theorem ofBits_toBits {x : F32} (hnan : x ≠ .nan) (h : x.representable = true) : F32.ofBits x.toBits = x := by
  obtain ⟨s, ex, fr, hex, hfr, rfl⟩ := exists_datumOf hnan h
  rw [toBits_datumOf hfr hnan, ofBits_patternOf s hex hfr]

/-- Settles O59, through the three fields of the layout. -/
theorem patternRoundTrip : Obligations.PatternRoundTrip :=
  ⟨fun w h => ⟨toBits_ofBits h, F32.ofBits_representable w⟩, fun _ => ofBits_toBits⟩

end Sys2Proof
end

section
/-! PROOFS. The decoder and the encoder agree (R110 to R116, R119, R120), and whatever the decoder
answers is well formed (R112). -/

namespace Sys2Proof

/-! Round trip. -/

section RoundTrip
open Laws.RoundTrip

/-- Every row of the opcode table round-trips. -/
theorem roundTrip : ∀ i : Instr, Statement i
  | .busIllegal we addr size w => busIllegal we addr size w
  | .busReserved we addr w => busReserved we addr w
  | .rdId => rdId | .wrId w => wrId w
  | .rdCaps => rdCaps | .wrCaps w => wrCaps w
  | .rdWinCfg => rdWinCfg | .wrWinCfg w => wrWinCfg w
  | .rdBufLen => rdBufLen | .wrBufLen w => wrBufLen w
  | .rdOutLen => rdOutLen | .wrOutLen w => wrOutLen w
  | .rdCtrl => rdCtrl | .wrCtrl w => wrCtrl w
  | .rdStatus => rdStatus | .wrStatus w => wrStatus w
  | .rdSampleCount => rdSampleCount | .wrSampleCount w => wrSampleCount w
  | .rdOutCount => rdOutCount | .wrOutCount w => wrOutCount w
  | .rdWinCount => rdWinCount | .wrWinCount w => wrWinCount w
  | .rdErrInfo => rdErrInfo | .wrErrInfo w => wrErrInfo w
  | .rdFsmCfg => rdFsmCfg | .wrFsmCfg w => wrFsmCfg w
  | .rdPlaceholder => rdPlaceholder | .wrPlaceholder w => wrPlaceholder w
  | .rdGateFactor => rdGateFactor | .wrGateFactor w => wrGateFactor w
  | .rdNormEps => rdNormEps | .wrNormEps w => wrNormEps w
  | .rdNoiseFloor => rdNoiseFloor | .wrNoiseFloor w => wrNoiseFloor w
  | .rdToneFloor => rdToneFloor | .wrToneFloor w => wrToneFloor w
  | .rdRatioThr => rdRatioThr | .wrRatioThr w => wrRatioThr w
  | .rdEmphCoef => rdEmphCoef | .wrEmphCoef w => wrEmphCoef w
  | .rdBpB0 => rdBpB0 | .wrBpB0 w => wrBpB0 w
  | .rdBpB1 => rdBpB1 | .wrBpB1 w => wrBpB1 w
  | .rdBpB2 => rdBpB2 | .wrBpB2 w => wrBpB2 w
  | .rdBpB3 => rdBpB3 | .wrBpB3 w => wrBpB3 w
  | .rdBpB4 => rdBpB4 | .wrBpB4 w => wrBpB4 w
  | .rdBpA1 => rdBpA1 | .wrBpA1 w => wrBpA1 w
  | .rdBpA2 => rdBpA2 | .wrBpA2 w => wrBpA2 w
  | .rdBpA3 => rdBpA3 | .wrBpA3 w => wrBpA3 w
  | .rdBpA4 => rdBpA4 | .wrBpA4 w => wrBpA4 w
  | .rdSample n => rdSample n | .wrSample n w => wrSample n w
  | .rdOut e => rdOut e | .wrOut e w => wrOut e w
  | .fsmStepSilence => fsmStepSilence
  | .fsmStepKey1 => fsmStepKey1 | .fsmStepKey2 => fsmStepKey2 | .fsmStepKey3 => fsmStepKey3
  | .fsmStepKey4 => fsmStepKey4 | .fsmStepKey5 => fsmStepKey5 | .fsmStepKey6 => fsmStepKey6
  | .fsmStepKey7 => fsmStepKey7 | .fsmStepKey8 => fsmStepKey8 | .fsmStepKey9 => fsmStepKey9
  | .fsmStepKey10 => fsmStepKey10 | .fsmStepKey11 => fsmStepKey11 | .fsmStepKey12 => fsmStepKey12
  | .clsReserved13 => clsReserved13 | .clsReserved1415 low => clsReserved1415 low
  | .seqStatsStep => seqStatsStep | .seqStatsEnd => seqStatsEnd
  | .seqVarStep => seqVarStep | .seqVarEnd => seqVarEnd
  | .seqGateStep => seqGateStep | .seqGateEnd => seqGateEnd
  | .seqFilterStep => seqFilterStep | .seqFilterEnd => seqFilterEnd
  | .seqDetectStep => seqDetectStep | .seqDetectEnd => seqDetectEnd
  | .seqFlush => seqFlush
  | .detClassifyGoertzel => detClassifyGoertzel
  | .detClassifyGoertzelStrict => detClassifyGoertzelStrict
  | .detClassifySpectral => detClassifySpectral
  | .detReserved => detReserved

end RoundTrip

/-- Settles O1, row by row. -/
theorem decodeOfEncode : Obligations.DecodeOfEncode := roundTrip

/-- Settles O4: each word is the encoding of its operation, which decodes to it. -/
theorem specWordsDecode : Obligations.SpecWordsDecode :=
  ⟨roundTrip .rdStatus rfl, roundTrip (.wrCtrl 0x5) rfl, roundTrip (.wrSample 2 0x12345678) rfl, roundTrip (.rdOut 1) rfl,
    roundTrip .fsmStepKey4 rfl, roundTrip .seqFlush rfl, roundTrip .detClassifySpectral rfl⟩

/-! The row of a legal transaction, an equation for each branch of R112's steps 2 and 3. -/

theorem decodeTransaction_illegal {we : Bool} {addr : BitVec 24} {size : Size} {w : Word}
    (h : size ≠ .word ∨ addr.extractLsb' 0 2 ≠ 0) :
    decodeTransaction we addr size w = .busIllegal we addr size (if we then w else 0) := if_pos h

theorem decodeTransaction_aligned {we : Bool} {addr : BitVec 24} {w : Word} (h : addr.extractLsb' 0 2 = 0) :
    decodeTransaction we addr .word w = decodeLegal we addr w :=
  if_neg (not_or.mpr ⟨fun hs => hs rfl, fun ha => ha h⟩)

theorem decodeLegal_sample {we : Bool} {addr : BitVec 24} {w : Word} (h : addr.extractLsb' 22 2 = 1) :
    decodeLegal we addr w = if we then .wrSample (addr.extractLsb' 2 20) w else .rdSample (addr.extractLsb' 2 20) := if_pos h

/-- The OUT_RAM page lies outside the SAMPLE_RAM region (R82, R83). -/
theorem region_of_page {addr : BitVec 24} (h : addr.extractLsb' 12 12 = 1) : addr.extractLsb' 22 2 ≠ 1 := by
  intro hs
  have hpage := page_toNat addr
  have hregion := region_toNat addr
  simp [h] at hpage
  simp [hs] at hregion
  omega

theorem decodeLegal_out {we : Bool} {addr : BitVec 24} {w : Word} (h : addr.extractLsb' 12 12 = 1) :
    decodeLegal we addr w = if we then .wrOut (addr.extractLsb' 2 10) w else .rdOut (addr.extractLsb' 2 10) := by
  rw [decodeLegal, if_neg (region_of_page h), if_pos h]

/-- A register is found at its own offset (R31). -/
@[simp] theorem regAt_offset (r : Reg) : regAt r.offset = some r := by cases r <;> rfl

/-- A register lies in neither RAM region (R81). -/
theorem offset_regions (r : Reg) : r.offset.extractLsb' 22 2 ≠ 1 ∧ r.offset.extractLsb' 12 12 ≠ 1 := by
  cases r <;> decide

theorem decodeLegal_offset (we : Bool) (r : Reg) (w : Word) :
    decodeLegal we r.offset w = if we then r.writeRow w else r.readRow := by
  obtain ⟨hs, ho⟩ := offset_regions r
  rw [decodeLegal, if_neg hs, if_neg ho, regAt_offset]

theorem decodeLegal_reserved {we : Bool} {addr : BitVec 24} {w : Word} (hs : addr.extractLsb' 22 2 ≠ 1)
    (ho : addr.extractLsb' 12 12 ≠ 1) (hr : regAt addr = none) :
    decodeLegal we addr w = .busReserved we addr (if we then w else 0) := by
  rw [decodeLegal, if_neg hs, if_neg ho, hr]

/-! Whatever is decoded is well formed (R112). -/

/-- Every aligned offset below 0x70 is a register's (R31, R81). -/
theorem regAt_isSome : ∀ k < 28, (regAt (BitVec.ofNat 24 (4 * k))).isSome = true := by decide

/-- An aligned offset that holds no register and lies in no RAM region is reserved (R84, R86). -/
theorem reservedOffset_of_free {addr : BitVec 24} (ha : aligned addr = true) (hs : addr.extractLsb' 22 2 ≠ 1)
    (ho : addr.extractLsb' 12 12 ≠ 1) (hr : regAt addr = none) : reservedOffset addr = true := by
  have hregion : addr.toNat / 0x400000 % 4 ≠ 1 := fun h => hs (BitVec.eq_of_toNat_eq ((region_toNat addr).trans h))
  have hpage : addr.toNat / 0x1000 % 0x1000 ≠ 1 := fun h => ho (BitVec.eq_of_toNat_eq ((page_toNat addr).trans h))
  have halign : addr.toNat % 4 = 0 := by simpa [aligned] using ha
  have hreg : 0x70 ≤ addr.toNat := by
    by_contra hlt
    have hk := regAt_isSome (addr.toNat / 4) (by omega)
    rw [Nat.mul_div_cancel' (Nat.dvd_of_mod_eq_zero halign), BitVec.ofNat_toNat, BitVec.setWidth_eq, hr] at hk
    cases hk
  have hlt := addr.isLt
  simp only [reservedOffset, Bool.or_eq_true, Bool.and_eq_true, decide_eq_true_eq]
  omega

theorem noReadData_ite (we : Bool) (w : Word) : noReadData we (if we then w else 0) = true := by cases we <;> rfl

theorem wellFormed_readRow (r : Reg) : r.readRow.wellFormed = true := by cases r <;> rfl

theorem wellFormed_writeRow (r : Reg) (w : Word) : (r.writeRow w).wellFormed = true := by cases r <;> rfl

theorem wellFormed_decodeLegal (we : Bool) {addr : BitVec 24} (w : Word) (ha : aligned addr = true) :
    (decodeLegal we addr w).wellFormed = true := by
  by_cases hs : addr.extractLsb' 22 2 = 1
  · rw [decodeLegal_sample hs]
    cases we <;> rfl
  by_cases ho : addr.extractLsb' 12 12 = 1
  · rw [decodeLegal_out ho]
    cases we <;> rfl
  cases hr : regAt addr with
  | none =>
    rw [decodeLegal_reserved hs ho hr]
    simp only [Instr.wellFormed, ha, reservedOffset_of_free ha hs ho hr, noReadData_ite, Bool.and_self]
  | some r =>
    rw [decodeLegal, if_neg hs, if_neg ho, hr]
    cases we
    · exact wellFormed_readRow r
    · exact wellFormed_writeRow r w

theorem wellFormed_decodeTransaction (we : Bool) (addr : BitVec 24) (size : Size) (w : Word) :
    (decodeTransaction we addr size w).wellFormed = true := by
  unfold decodeTransaction
  split
  case isTrue h =>
    have hill : (size != .word || !aligned addr) = true := by
      simpa only [Bool.or_eq_true, bne_iff_ne, Bool.not_eq_true', Bool.eq_false_iff, ne_eq, aligned_iff] using h
    simp only [Instr.wellFormed, hill, noReadData_ite, Bool.and_self]
  case isFalse h =>
    exact wellFormed_decodeLegal we w ((aligned_iff addr).mpr (not_not.mp (not_or.mp h).2))

theorem wellFormed_decodeClass : ∀ c : BitVec 4, (decodeClass c).wellFormed = true := by decide

theorem wellFormed_decodeDetector : ∀ d : BitVec 2, (decodeDetector d).wellFormed = true := by decide

theorem wellFormed_decodeMicroOp {u : BitVec 4} {i : Instr} (h : decodeMicroOp u = .instr i) : i.wellFormed = true := by
  unfold decodeMicroOp at h
  split at h <;> cases h <;> rfl

/-- Settles O2, format by format: the content is in the transactions, whose offsets no register and no RAM word has are the
reserved ones. -/
theorem decodedIsWellFormed : Obligations.DecodedIsWellFormed := by
  intro raw i h
  unfold decode at h
  split at h
  case h_1 =>
    obtain ⟨we, addr, size, rfl⟩ := Machine.decodeBus_eq_instr h
    exact wellFormed_decodeTransaction ..
  case h_2 =>
    split at h
    · cases h
      exact wellFormed_decodeClass _
    · cases h
  case h_3 =>
    split at h
    · exact wellFormed_decodeMicroOp h
    · cases h
  case h_4 =>
    split at h
    · cases h
      exact wellFormed_decodeDetector _
    · cases h
  case h_5 => cases h

end Sys2Proof
end

section
/-! PROOFS. The priority-1 rows of format BUS (R112 to R114): which selectors match each, and that a transaction is decoded
as the row its selector matches. -/

namespace Sys2Proof
theorem append_eq_append_iff {n m : Nat} {x x' : BitVec n} {y y' : BitVec m} :
    x ++ y = x' ++ y' ↔ x = x' ∧ y = y' := by
  refine ⟨fun h => ⟨?_, ?_⟩, fun ⟨hx, hy⟩ => by rw [hx, hy]⟩
  · simpa only [BitVec.extractLsb'_append_eq_left] using congrArg (BitVec.extractLsb' m n) h
  · simpa only [BitVec.extractLsb'_append_eq_right] using congrArg (BitVec.extractLsb' 0 m) h

/-- A mask that keeps all but a middle field compares the two fields it keeps (R111). -/
theorem and_mask_eq_iff {a b c : Nat} {hi h : BitVec a} {mid : BitVec b} {lo l : BitVec c} :
    (hi ++ mid ++ lo) &&& (BitVec.allOnes a ++ 0#b ++ BitVec.allOnes c) = h ++ 0#b ++ l ↔ hi = h ∧ lo = l := by
  simp only [BitVec.and_append, BitVec.and_allOnes, BitVec.and_zero, append_eq_append_iff, and_true]

theorem SelRow.matches_iff (row : SelRow) (sel : BitVec 25) : row.matches sel = true ↔ sel &&& row.mask = row.value :=
  beq_iff_eq

/-- SEL as the fields the masks of RD_SAMPLE and WR_SAMPLE tell apart: WE with the region, the word index, the byte in
the word (R114). -/
theorem selOf_eq_sampleFields (we : Bool) (addr : BitVec 24) :
    selOf we addr = (BitVec.ofBool we ++ addr.extractLsb' 22 2) ++ addr.extractLsb' 2 20 ++ addr.extractLsb' 0 2 := by
  rw [BitVec.append_assoc, BitVec.append_assoc,
    BitVec.extractLsb'_append_extractLsb'_eq_extractLsb' (show 2 = 0 + 2 from rfl),
    BitVec.extractLsb'_append_extractLsb'_eq_extractLsb' (show 22 = 0 + (20 + 2) from rfl), BitVec.extractLsb'_eq_self]
  rfl

/-- SEL as the fields the masks of RD_OUT and WR_OUT tell apart (R114). -/
theorem selOf_eq_outFields (we : Bool) (addr : BitVec 24) :
    selOf we addr = (BitVec.ofBool we ++ addr.extractLsb' 12 12) ++ addr.extractLsb' 2 10 ++ addr.extractLsb' 0 2 := by
  rw [BitVec.append_assoc, BitVec.append_assoc,
    BitVec.extractLsb'_append_extractLsb'_eq_extractLsb' (show 2 = 0 + 2 from rfl),
    BitVec.extractLsb'_append_extractLsb'_eq_extractLsb' (show 12 = 0 + (10 + 2) from rfl), BitVec.extractLsb'_eq_self]
  rfl

theorem ofBool_append_eq_iff {n : Nat} {we v : Bool} {x y : BitVec n} :
    BitVec.ofBool we ++ x = BitVec.ofBool v ++ y ↔ we = v ∧ x = y := by
  rw [append_eq_append_iff]
  cases we <;> cases v <;> simp

/-- RD_SAMPLE's row (`v` false) and WR_SAMPLE's (R114). -/
theorem sampleRow_matches (v we : Bool) (addr : BitVec 24) :
    SelRow.matches ⟨selOf v 0x400000, 0x1C00003⟩ (selOf we addr) = true
      ↔ (we = v ∧ addr.extractLsb' 22 2 = 1) ∧ addr.extractLsb' 0 2 = 0 := by
  rw [SelRow.matches_iff, selOf_eq_sampleFields, selOf_eq_sampleFields v, ← ofBool_append_eq_iff]
  exact and_mask_eq_iff

/-- RD_OUT's row (`v` false) and WR_OUT's (R114). -/
theorem outRow_matches (v we : Bool) (addr : BitVec 24) :
    SelRow.matches ⟨selOf v 0x001000, 0x1FFF003⟩ (selOf we addr) = true
      ↔ (we = v ∧ addr.extractLsb' 12 12 = 1) ∧ addr.extractLsb' 0 2 = 0 := by
  rw [SelRow.matches_iff, selOf_eq_outFields, selOf_eq_outFields v, ← ofBool_append_eq_iff]
  exact and_mask_eq_iff

theorem regRow_matches (v we : Bool) (r : Reg) (addr : BitVec 24) :
    (regRow v r).matches (selOf we addr) = true ↔ we = v ∧ addr = r.offset := by
  rw [SelRow.matches_iff, ← ofBool_append_eq_iff]
  show selOf we addr &&& BitVec.allOnes 25 = _ ↔ _
  rw [BitVec.and_allOnes]
  rfl

/-- Two rows no selector matches: their values differ where both masks look. -/
def SelRow.apart (r q : SelRow) : Bool := r.value &&& q.mask != q.value &&& r.mask

theorem SelRow.not_both_match {r q : SelRow} (h : r.apart q = true) (sel : BitVec 25) :
    ¬(r.matches sel = true ∧ q.matches sel = true) := by
  rw [SelRow.matches_iff, SelRow.matches_iff]
  rintro ⟨hr, hq⟩
  rw [SelRow.apart, ← hr, ← hq, BitVec.and_assoc, BitVec.and_assoc, BitVec.and_comm r.mask] at h
  exact bne_iff_ne.mp h rfl

theorem busRows_apart : busRows.Pairwise fun r q => r.apart q = true := by decide +kernel

theorem regRow_mem_busRows (we : Bool) (r : Reg) : regRow we r ∈ busRows := by cases we <;> cases r <;> decide

/-- An offset in SAMPLE_RAM, in OUT_RAM or of a register matches a priority-1 row, so any other is in none of them. -/
theorem free_of_no_row {we : Bool} {addr : BitVec 24} (ha : addr.extractLsb' 0 2 = 0)
    (h : ∀ row ∈ busRows, row.matches (selOf we addr) = false) :
    addr.extractLsb' 22 2 ≠ 1 ∧ addr.extractLsb' 12 12 ≠ 1 ∧ regAt addr = none := by
  have hno {row : SelRow} (hrow : row ∈ busRows) : ¬row.matches (selOf we addr) = true := by simp [h row hrow]
  refine ⟨fun hs => ?_, fun ho => ?_, ?_⟩
  · exact hno (by cases we <;> decide) ((sampleRow_matches we we addr).mpr ⟨⟨rfl, hs⟩, ha⟩)
  · exact hno (by cases we <;> decide) ((outRow_matches we we addr).mpr ⟨⟨rfl, ho⟩, ha⟩)
  · cases hr : regAt addr with
    | none => rfl
    | some r =>
      have hoff : r.offset = addr := by simpa using List.find?_some hr
      exact absurd ((regRow_matches we we r addr).mpr ⟨rfl, hoff.symm⟩) (hno (regRow_mem_busRows we r))

/-- Settles O3: each row is read off the fields its mask compares. -/
theorem decodingOrder : Obligations.DecodingOrder := by
  refine ⟨fun _ _ _ _ => decodeTransaction_illegal, fun we addr w ha => ?_,
    busRows_apart.imp SelRow.not_both_match⟩
  rw [decodeTransaction_aligned ha]
  refine ⟨fun r h => ?_, fun h => ?_, fun h => ?_, fun h => ?_, fun h => ?_, fun h => ?_⟩
  · obtain ⟨-, rfl⟩ := (regRow_matches we we r addr).mp h
    exact decodeLegal_offset we r w
  · obtain ⟨⟨rfl, hs⟩, -⟩ := (sampleRow_matches false we addr).mp h
    exact decodeLegal_sample hs
  · obtain ⟨⟨rfl, hs⟩, -⟩ := (sampleRow_matches true we addr).mp h
    exact decodeLegal_sample hs
  · obtain ⟨⟨rfl, ho⟩, -⟩ := (outRow_matches false we addr).mp h
    exact decodeLegal_out ho
  · obtain ⟨⟨rfl, ho⟩, -⟩ := (outRow_matches true we addr).mp h
    exact decodeLegal_out ho
  · obtain ⟨hs, ho, hr⟩ := free_of_no_row ha h
    exact decodeLegal_reserved hs ho hr

end Sys2Proof
end

section
/-! PROOFS. What a step performs: the operation presented to it, or the row the sequencer's position selects (R119, R260 to
R262), and where it stops on a reserved encoding (R116, R120, R122). -/

namespace Sys2Proof.Machine

/-! A presented operation. -/

/-- A step takes the operation at the head of the agenda, where it may be presented, and performs it. -/
theorem step_present {s : State} {raw : RawOp} {rest : List Stimulus} {i : Instr} (hd : s.build.detector ≠ 3)
    (ha : s.port.agenda = .op raw :: rest) (hp : s.admits raw = true) (hi : decode raw = .instr i) :
    step s = exec i (s.withAgenda rest) := by
  rw [step_eq, fetch_build hd, nextStimulus, ha]
  simp only [if_pos hp, afterFetch, hi]

theorem State.place_build (s : State) (raw : RawOp) : (s.place raw).build = s.build := by
  cases h : raw.fmt <;> simp [State.place, State.inPhaseOf, h]

theorem State.inPhaseOf_port (s : State) (fmt : Format) : (s.inPhaseOf fmt).port = s.port := by cases fmt <;> rfl

/-- The operation placed next taken again leaves the state it was placed in. -/
theorem State.place_taken (s : State) (raw : RawOp) :
    (s.place raw).withAgenda s.port.agenda = s.inPhaseOf raw.fmt := by
  cases h : raw.fmt <;> simp [State.place, State.inPhaseOf, h, State.withAgenda]

/-- Only a micro-operation can be placed where it may not be presented. -/
theorem State.place_admits (s : State) {raw : RawOp} (h : raw.fmt ≠ .seq) : (s.place raw).admits raw = true := by
  cases hf : raw.fmt <;> simp_all [State.place, State.inPhaseOf, State.admits]

/-- Settles O5: a placed operation and a transaction at the head of the agenda are both presented operations. -/
theorem stepRunsDecodedOperation : Obligations.StepRunsDecodedOperation := by
  refine ⟨fun i s hd hwf hseq => ⟨?_, fun hbus => by rw [hbus]; rfl⟩, fun s we addr size w rest hd ha => ?_⟩
  · rw [step_present (s.place_build _ ▸ hd) rfl (s.place_admits hseq) (decodeOfEncode i hwf), s.place_taken]
  · exact step_present hd ha rfl (decode_busRaw we addr size w)

/-! The sequencer's turn. -/

section Selection
variable {s : State} {p : BitVec 3} {i : Instr}

theorem State.decode_of_endFlag {e : Bool} (hp : s.pos.phase = p) (he : s.endFlag = e)
    (hi : decodeMicroOp (p ++ BitVec.ofBool e) = .instr i) : decode s.microOpOp = .instr i := by
  rw [s.decode_microOpOp, hp, he, hi]

theorem State.decode_passStep (hp : s.pos.phase = p) (hb : 1 ≤ p.toNat ∧ p.toNat ≤ 4) (hn : s.pos.n ≠ s.total)
    (hi : decodeMicroOp (p ++ 0#1) = .instr i) : decode s.microOpOp = .instr i := by
  subst hp
  exact State.decode_of_endFlag rfl ((State.endFlag_pass hb.1 hb.2).trans (beq_eq_false_iff_ne.mpr hn)) hi

theorem State.decode_passEnd (hp : s.pos.phase = p) (hb : 1 ≤ p.toNat ∧ p.toNat ≤ 4) (hn : s.pos.n = s.total)
    (hi : decodeMicroOp (p ++ 1#1) = .instr i) : decode s.microOpOp = .instr i := by
  subst hp
  exact State.decode_of_endFlag rfl ((State.endFlag_pass hb.1 hb.2).trans (beq_iff_eq.mpr hn)) hi

/-- The row the position selects is what the sequencer's raw operation decodes to (R119). -/
theorem State.Selects.decode (h : s.Selects i) : decode s.microOpOp = .instr i :=
  match h with
  | .statsStep hp hn => State.decode_passStep hp (by decide) hn rfl
  | .statsEnd hp hn => State.decode_passEnd hp (by decide) hn rfl
  | .varStep hp hn => State.decode_passStep hp (by decide) hn rfl
  | .varEnd hp hn => State.decode_passEnd hp (by decide) hn rfl
  | .gateStep hp hn => State.decode_passStep hp (by decide) hn rfl
  | .gateEnd hp hn => State.decode_passEnd hp (by decide) hn rfl
  | .filterStep hp hn => State.decode_passStep hp (by decide) hn rfl
  | .filterEnd hp hn => State.decode_passEnd hp (by decide) hn rfl
  | .detectStep hp hj =>
    State.decode_of_endFlag hp ((State.endFlag_detect hp).trans (beq_eq_false_iff_ne.mpr hj)) rfl
  | .detectEnd hp hj => State.decode_of_endFlag hp ((State.endFlag_detect hp).trans (beq_iff_eq.mpr hj)) rfl
  | .flush hp => State.decode_of_endFlag hp (State.endFlag_flush hp) rfl

/-- Phase code 7 has no row, whatever END is (R122). -/
theorem State.decode_phase7 (hp : s.pos.phase = 7) : decode s.microOpOp = .reject .noMicroOp := by
  rw [s.decode_microOpOp, hp]
  cases s.endFlag <;> rfl

end Selection

section Turn
variable {s t : State} (hd : s.build.detector ≠ 3) (ht : s.TurnOf t)
include hd ht

theorem step_idle (h0 : s.pos.phase = 0) : step s = .next t := by
  obtain ⟨rest, rfl⟩ := ht.eq_withAgenda
  rw [step_turn hd ht, sequencerTurn, State.withAgenda_pos, if_pos h0, afterFetch]

/-- Outside phase IDLE the sequencer's turn performs its own raw operation. -/
theorem step_turn_perform (h0 : s.pos.phase ≠ 0) : step s = afterFetch (.perform s.microOpOp t) := by
  obtain ⟨rest, rfl⟩ := ht.eq_withAgenda
  rw [step_turn hd ht, sequencerTurn, State.withAgenda_pos, if_neg h0]
  rfl

theorem step_selected {i : Instr} (hi : s.Selects i) : step s = exec i t := by
  simp only [step_turn_perform hd ht hi.phase_ne.1, afterFetch, hi.decode]

theorem step_phase7 (hp : s.pos.phase = 7) : step s = .fault .seqBadPhase := by
  simp only [step_turn_perform hd ht (by simp [hp]), afterFetch, State.decode_phase7 hp, stopOn]

/-- A phase with two rows: the one END = 1 selects, and the one END = 0 selects. -/
theorem step_limit {c : Prop} [Decidable c] {i j : Instr} (hi : c → s.Selects i) (hj : ¬c → s.Selects j) :
    step s = if c then exec i t else exec j t := by
  split
  · exact step_selected hd ht (hi ‹_›)
  · exact step_selected hd ht (hj ‹_›)

end Turn

/-- Settles O6: each phase's rows are those the position selects. -/
theorem sequencerPerformsSelectedRow : Obligations.SequencerPerformsSelectedRow := fun _ _ hd ht =>
  ⟨step_idle hd ht, fun hp => step_limit hd ht (.statsEnd hp) (.statsStep hp),
    fun hp => step_limit hd ht (.varEnd hp) (.varStep hp), fun hp => step_limit hd ht (.gateEnd hp) (.gateStep hp),
    fun hp => step_limit hd ht (.filterEnd hp) (.filterStep hp),
    fun hp => step_limit hd ht (.detectEnd hp) (.detectStep hp), fun hp => step_selected hd ht (.flush hp),
    step_phase7 hd ht⟩

/-! Reserved encodings. -/

/-- A class code above 12 presented to the FSM is a model fault (R116). -/
theorem presentClass_reserved {c : BitVec 4} (s : State) (h : 12 < c.toNat) : presentClass c s = .fault .fsmBadClass :=
  if_pos h

/-- No classification belongs to detector 3, so SEQ_DETECT_STEP is refused (R120). -/
theorem execSeqDetectStep_noSuchBuild {s : State} (hd : s.build.detector = 3) :
    exec .seqDetectStep s = .refused .noSuchBuild := by
  have hnone : detectorOf s.build.detector = none := by rw [hd]; rfl
  show execSeqDetectStep s = _
  simp only [execSeqDetectStep, hnone]

/-- Settles O39: the rows by their classes, and the configuration by what a step fetches in it. -/
theorem reservedRowsStop : Obligations.ReservedRowsStop := fun s =>
  ⟨presentClass_reserved (c := 13) s (by decide),
    fun low => presentClass_reserved (c := 7#3 ++ BitVec.ofBool low) s (by cases low <;> decide), rfl,
    fun hd => ⟨execSeqDetectStep_noSuchBuild hd, step_noSuchBuild hd⟩⟩

end Sys2Proof.Machine
end

section
/-! PROOFS. An emission writes one output entry, whose fields read back, or sets OUT_OVF (R118, R236). -/

namespace Sys2Proof.Machine

/-- An output entry from its fields: PRESSES, KEY, UNMAPPED and CHAR, the other bits 0 (R118). -/
def entryOf (p : Byte) (k : BitVec 4) (unmapped : BitVec 1) (char : Byte) : Word :=
  (0 : BitVec 8) ++ p ++ k ++ (0 : BitVec 3) ++ unmapped ++ char

theorem outEntry_symbol {k : BitVec 4} {p code : Byte} (pchar : Byte) (h : symtab k p = some code) :
    outEntry pchar k p = entryOf p k 0 code := by
  simp only [outEntry, h, entryOf]

theorem outEntry_placeholder {k : BitVec 4} {p : Byte} (pchar : Byte) (h : symtab k p = none) :
    outEntry pchar k p = entryOf p k 1 pchar := by
  simp only [outEntry, h, entryOf]

theorem outEntry_eq_entryOf (pchar : Byte) (k : BitVec 4) (p : Byte) : ∃ u c, outEntry pchar k p = entryOf p k u c := by
  cases h : symtab k p with
  | some code => exact ⟨0, code, outEntry_symbol pchar h⟩
  | none => exact ⟨1, pchar, outEntry_placeholder pchar h⟩

section Fields
variable (p : Byte) (k : BitVec 4) (u : BitVec 1) (c : Byte)

theorem entryOf_char : (entryOf p k u c).extractLsb' 0 8 = c := BitVec.extractLsb'_append_eq_right

theorem entryOf_unmapped : (entryOf p k u c).getLsbD 8 = u.getLsbD 0 := by
  rw [entryOf, BitVec.getLsbD_append, if_neg (by decide), BitVec.getLsbD_append, if_pos (by decide)]

theorem entryOf_low : (entryOf p k u c).extractLsb' 9 3 = 0 := by
  simp (disch := decide) only [entryOf, BitVec.extractLsb'_append_eq_of_le, Nat.reduceSub,
    BitVec.extractLsb'_append_eq_right]

theorem entryOf_key : (entryOf p k u c).extractLsb' 12 4 = k := by
  simp (disch := decide) only [entryOf, BitVec.extractLsb'_append_eq_of_le, Nat.reduceSub,
    BitVec.extractLsb'_append_eq_right]

theorem entryOf_presses : (entryOf p k u c).extractLsb' 16 8 = p := by
  simp (disch := decide) only [entryOf, BitVec.extractLsb'_append_eq_of_le, Nat.reduceSub,
    BitVec.extractLsb'_append_eq_right]

theorem entryOf_high : (entryOf p k u c).extractLsb' 24 8 = 0 := by
  simp (disch := decide) only [entryOf, BitVec.extractLsb'_append_eq_of_le, Nat.reduceSub, BitVec.extractLsb'_eq_self]

end Fields

/-- The fields of an output entry (R118). -/
theorem outEntry_fields (pchar : Byte) (k : BitVec 4) (p : Byte) :
    (outEntry pchar k p).extractLsb' 24 8 = 0 ∧ (outEntry pchar k p).extractLsb' 16 8 = p
      ∧ (outEntry pchar k p).extractLsb' 12 4 = k ∧ (outEntry pchar k p).extractLsb' 9 3 = 0 := by
  obtain ⟨u, c, h⟩ := outEntry_eq_entryOf pchar k p
  rw [h]
  exact ⟨entryOf_high p k u c, entryOf_presses p k u c, entryOf_key p k u c, entryOf_low p k u c⟩

/-- The character fields of an entry with a symbol (R118, R233). -/
theorem outEntry_symbol_fields {k : BitVec 4} {p code : Byte} (pchar : Byte) (h : symtab k p = some code) :
    (outEntry pchar k p).getLsbD 8 = false ∧ (outEntry pchar k p).extractLsb' 0 8 = code := by
  rw [outEntry_symbol pchar h]
  exact ⟨entryOf_unmapped p k 0 code, entryOf_char p k 0 code⟩

/-- The character fields of an entry without a symbol (R118, R233). -/
theorem outEntry_placeholder_fields {k : BitVec 4} {p : Byte} (pchar : Byte) (h : symtab k p = none) :
    (outEntry pchar k p).getLsbD 8 = true ∧ (outEntry pchar k p).extractLsb' 0 8 = pchar := by
  rw [outEntry_placeholder pchar h]
  exact ⟨entryOf_unmapped p k 1 pchar, entryOf_char p k 1 pchar⟩

/-- Settles O44: the entry written reads back, and its fields are those it was put together from. -/
theorem emission : Obligations.Emission := by
  intro s k p hm _
  obtain ⟨hroom, hemit⟩ | ⟨hfull, hemit⟩ := s.emit_cases k p
  · obtain ⟨hhigh, hpresses, hkey, hlow⟩ := outEntry_fields s.cfg.pchar k p
    refine ⟨fun _ => ⟨_, hemit, ?_, fun a ha => s.mem.read_writeWord_frame _ _ _ hm.1 ha⟩,
      fun hfull => absurd hroom (Nat.not_lt.mpr hfull)⟩
    exact ⟨_, s.mem.readWord_writeWord _ _ hm.1, hhigh, hpresses, hkey, hlow,
      fun _ => outEntry_symbol_fields s.cfg.pchar, outEntry_placeholder_fields s.cfg.pchar⟩
  · exact ⟨fun hroom => absurd hroom (Nat.not_lt.mpr hfull), fun _ => hemit⟩

end Sys2Proof.Machine
end

section
/-! SUPPORT. What each micro-operation of the preprocessor does, an equation per branch of its pseudocode
(R141 to R151). -/

namespace Sys2Proof.Machine

/-- The word of the pass's sample S[n]. -/
def State.passWord (s : State) : Word := s.mem.readWord (sampleAddr s.pos.n)

/-- That is the word a micro-operation of a pass acts on, where it exists (R47). -/
theorem withSample_passWord {s : State} (act : Word → State) (hn : s.pos.n < s.build.bufLen) :
    withSample s act = .next (act s.passWord) := withSample_of_lt act hn

section Word
variable {s : State} (x : Word) (hm : s.mem.wf)
include hm

/-- A sample written reads back (R47, R90). -/
theorem State.setSample_readWord (n : Nat) : (s.setSample n x).mem.readWord (sampleAddr n) = x :=
  s.mem.readWord_writeWord _ _ hm.1

/-- A sample written leaves every byte outside its word. -/
theorem State.setSample_read (n : Nat) {a : Nat} (ha : a < sampleAddr n ∨ sampleAddr n + 4 ≤ a) :
    (s.setSample n x).mem.read a = s.mem.read a := s.mem.read_writeWord_frame _ _ _ hm.1 ha

end Word

section Preprocessor
variable {s : State}

/-! Pass STATS. -/

theorem exec_seqStatsStep_finite (hn : s.pos.n < s.build.bufLen) (hv : (F32.ofBits s.passWord).isFinite = true) :
    exec .seqStatsStep s = .next { s with work := { s.work with
      sum := s.work.sum.add (F32.ofBits s.passWord)
      sumSq := s.work.sumSq.add ((F32.ofBits s.passWord).mul (F32.ofBits s.passWord)) } }.nextSample :=
  (withSample_passWord _ hn).trans (congrArg _ (if_pos hv))

theorem exec_seqStatsStep_nonFinite (hn : s.pos.n < s.build.bufLen) (hv : (F32.ofBits s.passWord).isFinite = false) :
    exec .seqStatsStep s = .next (s.raise errSample s.pos.n) :=
  (withSample_passWord _ hn).trans (congrArg _ (if_neg (ne_true_of_eq_false hv)))

theorem exec_seqStatsEnd_finite (h : s.work.sum.isFinite = true ∧ s.work.sumSq.isFinite = true) :
    exec .seqStatsEnd s
      = .next ({ s with work := { s.work with mean := s.work.sum.div (.ofNat s.total), acc := .zero } }.enterPass 2) :=
  congrArg _ (if_pos (Bool.and_eq_true_iff.mpr h))

theorem exec_seqStatsEnd_nonFinite (h : s.work.sum.isFinite = false ∨ s.work.sumSq.isFinite = false) :
    exec .seqStatsEnd s = .next (s.raise errStat 0) :=
  congrArg _ (if_neg (ne_true_of_eq_false (Bool.and_eq_false_iff.mpr h)))

/-! Pass VAR. -/

theorem exec_seqVarStep (hn : s.pos.n < s.build.bufLen) :
    let d := (F32.ofBits s.passWord).sub s.work.mean
    exec .seqVarStep s = .next { s with work := { s.work with acc := s.work.acc.add (d.mul d) } }.nextSample :=
  withSample_passWord _ hn

theorem exec_seqVarEnd_acc (ha : s.work.acc.isFinite = false) : exec .seqVarEnd s = .next (s.raise errStat 0) :=
  congrArg _ (if_neg (ne_true_of_eq_false ha))

theorem exec_seqVarEnd_finite (ha : s.work.acc.isFinite = true)
    (hl : s.gateLevel.thr.isFinite = true ∧ s.gateLevel.gate.isFinite = true) :
    exec .seqVarEnd s = .next ({ s with work := { s.gateLevel with maxAbs := .zero } }.enterPass 3) :=
  congrArg _ ((if_pos ha).trans (if_pos (Bool.and_eq_true_iff.mpr hl)))

theorem exec_seqVarEnd_level (ha : s.work.acc.isFinite = true)
    (hl : s.gateLevel.thr.isFinite = false ∨ s.gateLevel.gate.isFinite = false) :
    exec .seqVarEnd s = .next ({ s with work := s.gateLevel }.raise errStat 0) :=
  congrArg _ ((if_pos ha).trans (if_neg (ne_true_of_eq_false (Bool.and_eq_false_iff.mpr hl))))

/-! Pass GATE. -/

/-- MAXABS after a sample of the gate pass is written as `v` (R145). -/
def raisedMaxAbs (maxAbs : F32) (v : Word) : F32 :=
  if F32.lt maxAbs (F32.ofBits v).abs then (F32.ofBits v).abs else maxAbs

theorem exec_seqGateStep (hn : s.pos.n < s.build.bufLen) :
    exec .seqGateStep s = .next { s.setSample s.pos.n (gateSample s.work.gate s.passWord) with
      work := { s.work with
        maxAbs := raisedMaxAbs s.work.maxAbs (gateSample s.work.gate s.passWord) } }.nextSample :=
  withSample_passWord _ hn

theorem exec_seqGateEnd : exec .seqGateEnd s = .next ({ s with
    work := { s.work with norm := !F32.lt s.work.maxAbs (F32.ofBits s.cfg.normEps) }, line := .reset }.enterPass 4) :=
  rfl

/-! Pass FILTER. -/

/-- The band-pass output of the pass's sample, normalized (R148, R149). -/
def State.filtered (s : State) : F32 := s.bandPass (s.normalized s.passWord)

theorem exec_seqFilterStep_finite (hn : s.pos.n < s.build.bufLen) (he : (s.emphasis s.filtered).isFinite = true) :
    exec .seqFilterStep s = .next { s.setSample s.pos.n (s.emphasis s.filtered).toBits with
      line := s.line.shift (s.normalized s.passWord) s.filtered }.nextSample :=
  (withSample_passWord _ hn).trans (congrArg _ (if_pos he))

theorem exec_seqFilterStep_nonFinite (hn : s.pos.n < s.build.bufLen) (he : (s.emphasis s.filtered).isFinite = false) :
    exec .seqFilterStep s = .next (s.raise errFilter s.pos.n) :=
  (withSample_passWord _ hn).trans (congrArg _ (if_neg (ne_true_of_eq_false he)))

theorem exec_seqFilterEnd : exec .seqFilterEnd s = .next { s with pos := ⟨5, 0, 0⟩ } := rfl

theorem exec_seqDetectEnd : exec .seqDetectEnd s = .next { s with pos := { s.pos with phase := 6 } } := rfl

end Preprocessor

end Sys2Proof.Machine
end

section
/-! PROOFS. The preprocessor passes STATS, VAR, GATE and FILTER, and the ends of the phases. -/

namespace Sys2Proof.Machine

/-- Settles O22: the sample is finite, or it is the error's. -/
theorem statsStep : Obligations.StatsStep :=
  ⟨rfl, fun _ hn => ⟨exec_seqStatsStep_finite hn, exec_seqStatsStep_nonFinite hn⟩⟩

/-- Settles O23: both sums are finite, or one is not. -/
theorem statsEnd : Obligations.StatsEnd :=
  ⟨rfl, fun _ => ⟨exec_seqStatsEnd_finite, exec_seqStatsEnd_nonFinite⟩⟩

/-- Settles O24: the step has one branch. -/
theorem varStep : Obligations.VarStep := ⟨rfl, fun _ hn => exec_seqVarStep hn⟩

/-- Settles O25: the two tests of R144 in their order, ACC before the levels are written, THR and GATE after. -/
theorem varEnd : Obligations.VarEnd :=
  ⟨rfl, fun _ => ⟨fun ⟨ha, hl⟩ => exec_seqVarEnd_finite ha hl, exec_seqVarEnd_acc, exec_seqVarEnd_level⟩⟩

/-- Settles O26: the memory is the one with the gated sample written. -/
theorem gateStep : Obligations.GateStep :=
  ⟨rfl, fun s hm hn => ⟨(s.setSample s.pos.n (gateSample s.work.gate s.passWord)).mem, exec_seqGateStep hn,
    State.setSample_readWord _ hm _, fun _ => State.setSample_read _ hm _⟩⟩

/-- Settles O27: the pass ends in one way, whatever NORM_EPS is. -/
theorem gateEnd : Obligations.GateEnd := ⟨rfl, fun _ => exec_seqGateEnd⟩

/-- Settles O28: the result is finite and the memory is the one with it written, or it is the error's. -/
theorem filterStep : Obligations.FilterStep :=
  ⟨rfl, fun s hm hn =>
    ⟨fun he => ⟨(s.setSample s.pos.n (s.emphasis s.filtered).toBits).mem, exec_seqFilterStep_finite hn he,
      State.setSample_readWord _ hm _, fun _ => State.setSample_read _ hm _⟩,
    exec_seqFilterStep_nonFinite hn⟩⟩

/-- Settles O29: each end moves the position and does nothing else. -/
theorem phaseEnds : Obligations.PhaseEnds := fun _ => ⟨exec_seqFilterEnd, exec_seqDetectEnd⟩

end Sys2Proof.Machine
end

section
/-! PROOFS. What the detector's decision answers over any magnitudes: the first maximum, a class code of 0 to 12, the strict
variant's rejection of the best key; and what a classification does with that class, presented alone or in SEQ_DETECT_STEP
(R170 to R174, R177 to R181, R192 to R196, R268). -/

namespace Sys2Proof.Machine

/-! Maximum selection (R192). -/

/-- `b` is the first maximum of `v` over the keys 1 to `n`. -/
structure IsFirstMaximum (v : Nat → Int) (n b : Nat) : Prop where
  one_le : 1 ≤ b
  le_last : b ≤ n
  maximal : ∀ k, 1 ≤ k → k ≤ n → v k ≤ v b
  first : ∀ k, 1 ≤ k → k < b → v k < v b

/-- One key more: it replaces the best one only if it is strictly greater. -/
theorem IsFirstMaximum.next {v : Nat → Int} {n b : Nat} (h : IsFirstMaximum v n b) :
    IsFirstMaximum v (n + 1) (if v b < v (n + 1) then n + 1 else b) := by
  obtain ⟨hb, hn, hmax, hfirst⟩ := h
  have split_last {k : Nat} (hk : k ≤ n + 1) : k ≤ n ∨ k = n + 1 := by omega
  split
  case isTrue hlt =>
    refine ⟨by omega, le_rfl, fun k hk hkn => ?_, fun k hk hkn => (hmax k hk (by omega)).trans_lt hlt⟩
    obtain hkn | rfl := split_last hkn
    · exact (hmax k hk hkn).trans hlt.le
    · exact le_rfl
  case isFalse hge =>
    refine ⟨hb, by omega, fun k hk hkn => ?_, hfirst⟩
    obtain hkn | rfl := split_last hkn
    · exact hmax k hk hkn
    · exact not_lt.mp hge

/-- Maximum selection up to key `n + 1`, over key magnitudes at the places `v` of the number line. -/
theorem isFirstMaximum_foldl {ks : List F32} {v : Nat → Int} {last : Nat}
    (hv : ∀ k, 1 ≤ k → k ≤ last → (keyMagAt ks k).place = some (v k)) (n : Nat) (hn : n + 1 ≤ last) :
    IsFirstMaximum v (n + 1)
      ((List.range' 2 n).foldl (fun best k => if F32.lt (keyMagAt ks best) (keyMagAt ks k) then k else best) 1) := by
  induction n with
  | zero =>
    show IsFirstMaximum v 1 1
    exact ⟨le_rfl, le_rfl, fun k h1 h2 => by rw [show k = 1 by omega], fun k h1 h2 => by omega⟩
  | succ n ih =>
    have h := ih (by omega)
    rw [List.range'_concat, List.foldl_append, show 2 + 1 * n = n + 2 by omega, List.foldl_cons, List.foldl_nil]
    generalize (List.range' 2 n).foldl _ 1 = b at h ⊢
    have hlt : F32.lt (keyMagAt ks b) (keyMagAt ks (n + 2)) = decide (v b < v (n + 2)) := by
      rw [F32.lt, hv b h.one_le (by have := h.le_last; omega), hv (n + 2) (by omega) hn]
    simpa only [hlt, decide_eq_true_eq] using h.next

theorem keyMagAt_mem {ks : List F32} {k : Nat} (h1 : 1 ≤ k) (hk : k ≤ ks.length) : keyMagAt ks k ∈ ks := by
  rw [keyMagAt, magAt, List.getD_eq_getElem _ _ (by omega)]
  exact List.getElem_mem _

theorem F32.place_of_isFinite {x : F32} (h : x.isFinite = true) : x.place = some (x.place.getD 0) := by
  obtain ⟨s, m, rfl⟩ := (F32.isFinite_iff x).1 h
  rfl

/-- Settles O35: comparing finite magnitudes is comparing their places on the number line. -/
theorem bestKeyIsFirstMaximum : Obligations.BestKeyIsFirstMaximum := by
  intro ks hlen hfin
  have hv (k : Nat) (h1 : 1 ≤ k) (hk : k ≤ 12) :
      (keyMagAt ks k).place = some ((keyMagAt ks k).place.getD 0) :=
    F32.place_of_isFinite (hfin _ (keyMagAt_mem h1 (hlen ▸ hk)))
  obtain ⟨hb, hn, hmax, hfirst⟩ : IsFirstMaximum (fun k => (keyMagAt ks k).place.getD 0) 12 (bestKey ks) :=
    isFirstMaximum_foldl hv 11 le_rfl
  refine ⟨hb, hn, fun k h1 hk => ?_, fun k h1 hk => ?_⟩
  · rw [F32.le, hv k h1 hk, hv _ hb hn]
    exact decide_eq_true (hmax k h1 hk)
  · rw [F32.lt, hv k h1 (by omega), hv _ hb hn]
    exact decide_eq_true (hfirst k h1 hk)

/-! The variants' decisions, one equation each. -/

theorem classifyGoertzel_eq (x : List F32) (floor : F32) :
    classifyGoertzel x floor = decideClass (Rom.freqs.map (toneMag x))
      (Rom.keys.map (toneKeyMag (Rom.freqs.map (toneMag x)))) floor fun _ => true := rfl

theorem classifyStrict_eq (x : List F32) (floor toneFloor ratioThr : F32) :
    classifyStrict x floor toneFloor ratioThr = decideClass (Rom.freqs.map (toneMag x))
      (Rom.keys.map (toneKeyMag (Rom.freqs.map (toneMag x)))) floor fun k =>
        balanced (magAt (Rom.freqs.map (toneMag x)) (Rom.lowIndex k))
          (magAt (Rom.freqs.map (toneMag x)) (Rom.highIndex k)) toneFloor ratioThr := rfl

theorem classifySpectral_eq (x : List F32) (floor : F32) :
    classifySpectral x floor = decideClass (allBins.map (binMag x))
      (Rom.keys.map (binKeyMag (allBins.map (binMag x)))) floor fun _ => true := rfl

/-! The class code (R195). -/

/-- The common decision answers a class code of 0 to 12. -/
theorem decideClass_le {m ks : List F32} {floor : F32} {accept : Nat → Bool} {c : BitVec 4}
    (h : decideClass m ks floor accept = some c) : c.toNat ≤ 12 := by
  have hbest : (BitVec.ofNat 4 (bestKey ks)).toNat ≤ 12 := (Nat.mod_le _ _).trans (bestKey_range ks).2
  obtain ⟨-, hd⟩ | ⟨-, hd⟩ := decideClass_cases m ks floor accept <;> rw [hd] at h
  · cases h
  · obtain rfl := Option.some.inj h
    split_ifs
    · exact Nat.zero_le _
    · exact hbest
    · exact Nat.zero_le _

/-- Settles O34: each variant answers what the common decision does. -/
theorem classCodeRange : Obligations.ClassCodeRange := by
  rintro x floor toneFloor ratioThr c (h | h | h)
  · exact decideClass_le (classifyGoertzel_eq x floor ▸ h)
  · exact decideClass_le (classifyStrict_eq x floor toneFloor ratioThr ▸ h)
  · exact decideClass_le (classifySpectral_eq x floor ▸ h)

/-- Whatever the build's detector is, its class codes are 0 to 12. -/
theorem detectorOf_le {d : BitVec 2} {classify : State → List F32 → Option (BitVec 4)} {s : State} {x : List F32}
    {c : BitVec 4} (hd : detectorOf d = some classify) (h : classify s x = some c) : c.toNat ≤ 12 := by
  obtain ⟨-, rfl⟩ | ⟨-, rfl⟩ | ⟨-, rfl⟩ := detectorOf_cases hd
  · exact classCodeRange x _ .zero .zero c (.inl h)
  · exact classCodeRange x _ _ _ c (.inr (.inl h))
  · exact classCodeRange x _ .zero .zero c (.inr (.inr h))

/-! The strict variant's own test (R181). -/

/-- A test on the best key can only reject it, and plays no part in whether a class is answered. -/
theorem decideClass_refines (m ks : List F32) (floor : F32) (accept : Nat → Bool) :
    (decideClass m ks floor accept = none ↔ decideClass m ks floor (fun _ => true) = none)
      ∧ ∀ c, decideClass m ks floor accept = some c → c = 0 ∨ decideClass m ks floor (fun _ => true) = some c := by
  obtain ⟨hfin, hd⟩ | ⟨hfin, hd⟩ := decideClass_cases m ks floor accept <;>
    obtain ⟨hfin', hd'⟩ | ⟨hfin', hd'⟩ := decideClass_cases m ks floor fun _ => true
  · rw [hd, hd']
    exact ⟨Iff.rfl, fun c h => by cases h⟩
  · exact absurd hfin' hfin
  · exact absurd hfin hfin'
  · rw [hd, hd']
    refine ⟨by simp, fun c h => ?_⟩
    obtain rfl := Option.some.inj h
    by_cases ha : accept (bestKey ks) = true
    · exact .inr (by rw [ha])
    · exact .inl (by rw [if_neg ha, ite_self])

/-- Settles O36: the two variants decide over the same magnitudes. -/
theorem strictRefinesGoertzel : Obligations.StrictRefinesGoertzel := by
  intro x floor toneFloor ratioThr
  rw [classifyStrict_eq, classifyGoertzel_eq]
  exact decideClass_refines ..

/-- The strict variant's tests one after the other, in the order of R181. -/
theorem ite_balanced (low high toneFloor ratioThr : F32) (c : BitVec 4) :
    (if balanced low high toneFloor ratioThr then c else 0) =
      if F32.lt low toneFloor || F32.lt high toneFloor then 0
      else if (F32.max low high).place = some 0 then 0
      else if F32.le ((F32.min low high).div (F32.max low high)) ratioThr then 0
      else c := by
  by_cases h1 : (F32.lt low toneFloor || F32.lt high toneFloor) = true
  · simp [balanced, h1]
  by_cases h2 : (F32.max low high).place = some 0
  · simp [balanced, h2]
  by_cases h3 : F32.le ((F32.min low high).div (F32.max low high)) ratioThr = true
  · simp [balanced, h3]
  · simp_all [balanced]

/-- The magnitudes of a key's two tones, among the seven tones' (R14). -/
theorem magAt_tones (mag : Nat → F32) {k : Nat} (hk : k ∈ Rom.keys) :
    magAt (Rom.freqs.map mag) (Rom.lowIndex k) = mag ([697, 770, 852, 941].getD ((k - 1) / 3) 0)
      ∧ magAt (Rom.freqs.map mag) (Rom.highIndex k) = mag ([1209, 1336, 1477].getD ((k - 1) % 3) 0) := by
  fin_cases hk <;> exact ⟨rfl, rfl⟩

/-! A classification over a window that exists. -/

/-- What a classification presented alone does, for a variant with a test of its own on the best key (R181, R193, R194,
R268). -/
theorem classifyOnly_accepting {s : State} {classify : State → List F32 → Option (BitVec 4)} {tones : List Nat}
    {mag key : Nat → F32} {accept : Nat → Bool} (hw : s.windowExists s.pos.j)
    (h : classify s (s.windowAt s.pos.j)
      = decideClass (tones.map mag) (Rom.keys.map key) (F32.ofBits s.cfg.noiseFloor) accept) :
    classifyOnly s classify =
      if (∀ f ∈ tones, (mag f).isFinite = true) ∧ (∀ k ∈ Rom.keys, (key k).isFinite = true) then
        .next { s with port := { s.port with
          cls := if F32.lt (key (bestKey (Rom.keys.map key))) (F32.ofBits s.cfg.noiseFloor) then 0
                 else if accept (bestKey (Rom.keys.map key)) then BitVec.ofNat 4 (bestKey (Rom.keys.map key)) else 0 } }
      else .next (s.raise errDetect s.pos.j) := by
  have hbest := keyMagAt_map key (bestKey_mem (Rom.keys.map key))
  rw [classifyOnly, classifyWindow_eq classify _ hw, h]
  obtain ⟨hfin, hd⟩ | ⟨hfin, hd⟩ :=
      decideClass_cases (tones.map mag) (Rom.keys.map key) (F32.ofBits s.cfg.noiseFloor) accept <;>
    rw [hd] <;> simp only [List.forall_mem_map] at hfin
  · rw [if_neg hfin]
  · rw [if_pos hfin, hbest]

/-- Settles O31: the magnitudes are the Goertzel variant's, and the test on the best key is R181's. -/
theorem strictClassification : Obligations.StrictClassification := by
  refine ⟨rfl, fun s hw => ?_⟩
  intro x r freqs power mag low high key keys best mx mn
  have hmag : Rom.freqs.map (toneMag (s.windowAt s.pos.j)) = freqs.map mag :=
    List.map_congr_left fun f _ => toneMag_window x 2205 f
  have hkey : Rom.keys.map (toneKeyMag (freqs.map mag)) = Rom.keys.map key :=
    List.map_congr_left fun k hk => toneKeyMag_map mag hk
  have hclass : strictClass s (s.windowAt s.pos.j) = decideClass (freqs.map mag) (Rom.keys.map key)
      (F32.ofBits s.cfg.noiseFloor) fun k => balanced (magAt (freqs.map mag) (Rom.lowIndex k))
        (magAt (freqs.map mag) (Rom.highIndex k)) (F32.ofBits s.cfg.toneFloor) (F32.ofBits s.cfg.ratioThr) := by
    rw [strictClass, classifyStrict_eq, hmag, hkey]
  obtain ⟨hlow, hhigh⟩ := magAt_tones mag (bestKey_mem (Rom.keys.map key))
  refine (classifyOnly_accepting hw hclass).trans ?_
  rw [show magAt (freqs.map mag) (Rom.lowIndex (bestKey (Rom.keys.map key))) = low best from hlow,
    show magAt (freqs.map mag) (Rom.highIndex (bestKey (Rom.keys.map key))) = high best from hhigh, ite_balanced]
  rfl

/-! The window input (R170 to R174). -/

/-- The window input by its samples. -/
theorem State.windowAt_getElem? (s : State) (j : Nat) {n : Nat} (hn : n < 2205) :
    (s.windowAt j)[n]? = some (F32.ofBits (s.mem.readWord (sampleAddr (j * s.build.stride + n)))) := by
  rw [State.windowAt, List.getElem?_map, Config.windowLength, List.getElem?_range hn, Option.map_some]

theorem State.windowAt_length (s : State) (j : Nat) : (s.windowAt j).length = 2205 := by
  rw [State.windowAt, List.length_map, List.length_range, Config.windowLength]

/-- Two windows of the same words are the same window input. -/
theorem State.windowAt_congr {s t : State} {j k : Nat}
    (h : ∀ n < 2205, s.mem.readWord (sampleAddr (j * s.build.stride + n))
      = t.mem.readWord (sampleAddr (k * t.build.stride + n))) : s.windowAt j = t.windowAt k :=
  List.map_congr_left fun n hn => congrArg F32.ofBits (h n (List.mem_range.mp hn))

/-- A detector reads the three calibration registers only (R174). -/
theorem detectorOf_congr {d : BitVec 2} {classify : State → List F32 → Option (BitVec 4)} {s t : State} (x : List F32)
    (hd : detectorOf d = some classify) (hnoise : s.cfg.noiseFloor = t.cfg.noiseFloor)
    (htone : s.cfg.toneFloor = t.cfg.toneFloor) (hratio : s.cfg.ratioThr = t.cfg.ratioThr) :
    classify s x = classify t x := by
  obtain ⟨-, rfl⟩ | ⟨-, rfl⟩ | ⟨-, rfl⟩ := detectorOf_cases hd
  · rw [goertzelClass, goertzelClass, hnoise]
  · rw [strictClass, strictClass, hnoise, htone, hratio]
  · rw [spectralClass, spectralClass, hnoise]

/-- Settles O37: the window input by its samples, and a detector by the registers it reads. -/
theorem windowsAreIndependent : Obligations.WindowsAreIndependent := fun s _ j _ hj hk =>
  ⟨⟨s.windowAt j, State.window?_of_le hj, s.windowAt_length j, fun _ => s.windowAt_getElem? j⟩,
    fun hwords hnoise htone hratio =>
      ⟨(State.window?_of_le hj).trans ((congrArg some (State.windowAt_congr hwords)).trans (State.window?_of_le hk).symm),
        fun _ _ x hd _ => detectorOf_congr x hd hnoise htone hratio⟩⟩

/-! SEQ_DETECT_STEP (R196). -/

/-- The class row of a class code steps the FSM with it (R116, R222). -/
theorem exec_decodeClass {c : BitVec 4} (s : State) (hc : c.toNat ≤ 12) :
    exec (decodeClass c) s = .next (s.fsmStep c) := by
  obtain ⟨n, hn⟩ := c
  have hn12 : n ≤ 12 := hc
  interval_cases n <;> rfl

/-- SEQ_DETECT_STEP over a window the build's detector gives a class. -/
theorem exec_seqDetectStep_class {s : State} {classify : State → List F32 → Option (BitVec 4)} {c : BitVec 4}
    (hw : s.windowExists s.pos.j) (hd : detectorOf s.build.detector = some classify)
    (hc : classify s (s.windowAt s.pos.j) = some c) :
    exec .seqDetectStep s = .next { ({ s with port := { s.port with cls := c } } : State).fsmStep c with
      winCount := BitVec.ofNat 32 (s.pos.j + 1), pos := { s.pos with j := s.pos.j + 1 } } := by
  have hpos : (({ s with port := { s.port with cls := c } } : State).fsmStep c).pos = s.pos := by
    obtain ⟨-, -, -, -, -, -, -, -, -, hpos, -⟩ := State.fsmStep_frame { s with port := { s.port with cls := c } } c
    exact hpos
  show execSeqDetectStep s = _
  simp only [execSeqDetectStep, hd, classifyWindow_eq classify _ hw, hc, stepWindow,
    presentClass_of_le _ (detectorOf_le hd hc), State.nextWindow, hpos]

/-- SEQ_DETECT_STEP over a window without a class (R194). -/
theorem exec_seqDetectStep_none {s : State} {classify : State → List F32 → Option (BitVec 4)}
    (hw : s.windowExists s.pos.j) (hd : detectorOf s.build.detector = some classify)
    (hc : classify s (s.windowAt s.pos.j) = none) : exec .seqDetectStep s = .next (s.raise errDetect s.pos.j) := by
  show execSeqDetectStep s = _
  simp only [execSeqDetectStep, hd, classifyWindow_eq classify _ hw, hc]

/-- Settles O38: the class row of `c` is the FSM step of `c`, as `c` is at most 12. -/
theorem detectStep : Obligations.DetectStep :=
  ⟨rfl, fun _ _ hw hd =>
    ⟨fun _ hc => ⟨_, exec_decodeClass _ (detectorOf_le hd hc),
      exec_seqDetectStep_class hw hd hc⟩,
    exec_seqDetectStep_none hw hd⟩⟩

end Sys2Proof.Machine
end

section
/-! PROOFS. A window of zeros of either sign has zero magnitudes at every tone and bin, so key 1 is the first maximum, which the
noise floor alone can reject, and the strict variant's test does (R177 to R181, R188 to R190, R196). -/

namespace Sys2Proof

/-! Zeros of either sign: the data at the place 0 of the number line. -/

theorem F32.place_eq_zero_iff (x : F32) : x.place = some 0 ↔ ∃ s, x = .fin s 0 := by
  have hinf : overflowMag ≠ 0 := (Nat.two_pow_pos 277).ne'
  cases x with
  | nan => simp [F32.place]
  | inf s => cases s <;> simp [F32.place, signedMag, hinf]
  | fin s m => cases s <;> simp [F32.place, signedMag]

theorem F32.place_fin_zero (s : Bool) : (F32.fin s 0).place = some 0 := (F32.place_eq_zero_iff _).2 ⟨s, rfl⟩

section Zeros
variable {x y : F32}

theorem F32.isFinite_of_place_zero (hx : x.place = some 0) : x.isFinite = true := by
  obtain ⟨s, rfl⟩ := (F32.place_eq_zero_iff x).1 hx
  rfl

theorem F32.add_place_zero (hx : x.place = some 0) (hy : y.place = some 0) : (x.add y).place = some 0 := by
  obtain ⟨s, rfl⟩ := (F32.place_eq_zero_iff x).1 hx
  obtain ⟨t, rfl⟩ := (F32.place_eq_zero_iff y).1 hy
  rw [F32.zero_add, F32.place_fin_zero]

theorem F32.sub_place_zero (hx : x.place = some 0) (hy : y.place = some 0) : (x.sub y).place = some 0 := by
  obtain ⟨t, rfl⟩ := (F32.place_eq_zero_iff y).1 hy
  exact F32.add_place_zero hx (F32.place_fin_zero !t)

theorem F32.mul_place_zero_left (hx : x.place = some 0) (hy : y.isFinite = true) : (x.mul y).place = some 0 := by
  obtain ⟨s, rfl⟩ := (F32.place_eq_zero_iff x).1 hx
  exact (F32.place_eq_zero_iff _).2 (F32.zero_mul s y hy)

theorem F32.mul_place_zero_right (hx : x.isFinite = true) (hy : y.place = some 0) : (x.mul y).place = some 0 := by
  obtain ⟨s, rfl⟩ := (F32.place_eq_zero_iff y).1 hy
  exact (F32.place_eq_zero_iff _).2 (F32.mul_zero s x hx)

theorem F32.sqrt_place_zero (hx : x.place = some 0) : x.sqrt.place = some 0 := by
  obtain ⟨s, rfl⟩ := (F32.place_eq_zero_iff x).1 hx
  cases s <;> rfl

theorem F32.max_place_zero (hx : x.place = some 0) (hy : y.place = some 0) : (F32.max x y).place = some 0 := by
  unfold F32.max
  split
  · exact hy
  · exact hx

end Zeros

namespace Machine

/-! Magnitudes over zeros. -/

section Magnitudes
variable {xs : List F32} (hxs : ∀ x ∈ xs, x.place = some 0)
include hxs

/-- The Goertzel recursion stays at zero (R177). -/
theorem goertzel_place_zero {c : F32} (hc : c.isFinite = true) (n : Nat) {s1 s2 : F32} (h1 : s1.place = some 0)
    (h2 : s2.place = some 0) :
    (goertzel c n s1 s2 xs).1.place = some 0 ∧ (goertzel c n s1 s2 xs).2.place = some 0 := by
  induction xs generalizing n s1 s2 with
  | nil => exact ⟨h1, h2⟩
  | cons x xs ih =>
    obtain ⟨hx, hxs⟩ := List.forall_mem_cons.mp hxs
    have hsample := F32.mul_place_zero_left hx (Rom.hamming_isFinite n)
    have hback := F32.mul_place_zero_right hc h1
    exact ih hxs (n + 1) (F32.sub_place_zero (F32.add_place_zero hsample hback) h2) h1

/-- R178. -/
theorem toneMag_place_zero (f : Nat) : (toneMag xs f).place = some 0 := by
  have hc := Rom.gcoef_isFinite f
  obtain ⟨h1, h2⟩ := goertzel_place_zero hxs hc 0 (F32.place_fin_zero false) (F32.place_fin_zero false)
  have f1 := F32.isFinite_of_place_zero h1
  have f2 := F32.isFinite_of_place_zero h2
  have hsquares := F32.add_place_zero (F32.mul_place_zero_left h1 f1) (F32.mul_place_zero_left h2 f2)
  have hpower := F32.sub_place_zero hsquares (F32.mul_place_zero_left (F32.mul_place_zero_right hc h1) f2)
  unfold toneMag
  dsimp only
  split
  · exact F32.place_fin_zero false
  · exact F32.sqrt_place_zero hpower

/-- The direct sums of a bin stay at zero (R188). -/
theorem dft_place_zero (b n : Nat) {re im : F32} (hre : re.place = some 0) (him : im.place = some 0) :
    (dft b n re im xs).1.place = some 0 ∧ (dft b n re im xs).2.place = some 0 := by
  induction xs generalizing n re im with
  | nil => exact ⟨hre, him⟩
  | cons x xs ih =>
    obtain ⟨hx, hxs⟩ := List.forall_mem_cons.mp hxs
    have hsample := F32.mul_place_zero_left hx (Rom.hann_isFinite n)
    exact ih hxs (n + 1) (F32.add_place_zero hre (F32.mul_place_zero_left hsample (Rom.cosT_isFinite _)))
      (F32.sub_place_zero him (F32.mul_place_zero_left hsample (Rom.sinT_isFinite _)))

/-- R188. -/
theorem binMag_place_zero (b : Nat) : (binMag xs b).place = some 0 := by
  obtain ⟨hre, him⟩ := dft_place_zero hxs b 0 (F32.place_fin_zero false) (F32.place_fin_zero false)
  exact F32.sqrt_place_zero (F32.add_place_zero (F32.mul_place_zero_left hre (F32.isFinite_of_place_zero hre))
    (F32.mul_place_zero_left him (F32.isFinite_of_place_zero him)))

end Magnitudes

/-- R179. -/
theorem toneKeyMag_place_zero {mag : Nat → F32} (hmag : ∀ f, (mag f).place = some 0) {k : Nat} (hk : k ∈ Rom.keys) :
    (toneKeyMag (Rom.freqs.map mag) k).place = some 0 := by
  rw [toneKeyMag_map mag hk]
  exact F32.add_place_zero (hmag _) (hmag _)

/-- R189. -/
theorem binKeyMag_place_zero {mag : Nat → F32} (hmag : ∀ b, (mag b).place = some 0) {k : Nat} (hk : k ∈ Rom.keys) :
    (binKeyMag (allBins.map mag) k).place = some 0 := by
  rw [binKeyMag_map mag hk]
  have next {v : F32} (hv : v.place = some 0) (b : Nat) : (v.add (mag b)).place = some 0 :=
    F32.add_place_zero hv (hmag b)
  exact next (next (next (next (next (next (F32.place_fin_zero false) _) _) _) _) _) _

/-! The decision over zeros. -/

/-- The strict variant's test rejects a key whose larger tone is 0 (R181). -/
theorem balanced_zeros {low high : F32} (hlow : low.place = some 0) (hhigh : high.place = some 0)
    (toneFloor ratioThr : F32) : balanced low high toneFloor ratioThr = false := by
  simp [balanced, F32.max_place_zero hlow hhigh]

/-- Among twelve zeros the first key is the best (R192). -/
theorem bestKey_zeros {ks : List F32} (hlen : ks.length = 12) (hks : ∀ x ∈ ks, x.place = some 0) : bestKey ks = 1 := by
  have hplace (k : Nat) (h1 : 1 ≤ k) (hk : k ≤ 12) : (keyMagAt ks k).place = some 0 :=
    hks _ (keyMagAt_mem h1 (hlen ▸ hk))
  obtain ⟨hb, -, -, hfirst⟩ : IsFirstMaximum (fun _ => 0) 12 (bestKey ks) := isFirstMaximum_foldl hplace 11 le_rfl
  by_contra hne
  exact lt_irrefl _ (hfirst 1 le_rfl (by omega))

/-- The common decision over zero magnitudes: key 1, unless the noise floor is above 0 or the variant's own test rejects it. -/
theorem decideClass_zeros {m ks : List F32} (floor : F32) (accept : Nat → Bool) (hlen : ks.length = 12)
    (hm : ∀ x ∈ m, x.place = some 0) (hks : ∀ x ∈ ks, x.place = some 0) :
    decideClass m ks floor accept = some (if F32.lt .zero floor then 0 else if accept 1 then 1 else 0) := by
  have hbest := bestKey_zeros hlen hks
  have hlt : F32.lt (keyMagAt ks 1) floor = F32.lt .zero floor := by
    rw [F32.lt, hks _ (keyMagAt_mem le_rfl (by omega))]
    rfl
  obtain ⟨hfin, -⟩ | ⟨-, hd⟩ := decideClass_cases m ks floor accept
  · exact absurd ⟨fun x hx => F32.isFinite_of_place_zero (hm x hx), fun x hx => F32.isFinite_of_place_zero (hks x hx)⟩ hfin
  · rw [hd, hbest, hlt]
    rfl

section Classes
variable {xs : List F32} (hxs : ∀ x ∈ xs, x.place = some 0) (floor toneFloor ratioThr : F32)
include hxs

/-- R180. -/
theorem classifyGoertzel_zeros : classifyGoertzel xs floor = some (if F32.lt .zero floor then 0 else 1) := by
  rw [classifyGoertzel_eq, decideClass_zeros floor _ rfl (List.forall_mem_map.mpr fun f _ => toneMag_place_zero hxs f)
    (List.forall_mem_map.mpr fun _ hk => toneKeyMag_place_zero (toneMag_place_zero hxs) hk), if_pos rfl]

/-- R190. -/
theorem classifySpectral_zeros : classifySpectral xs floor = some (if F32.lt .zero floor then 0 else 1) := by
  rw [classifySpectral_eq, decideClass_zeros floor _ rfl (List.forall_mem_map.mpr fun b _ => binMag_place_zero hxs b)
    (List.forall_mem_map.mpr fun _ hk => binKeyMag_place_zero (binMag_place_zero hxs) hk), if_pos rfl]

/-- R181. -/
theorem classifyStrict_zeros : classifyStrict xs floor toneFloor ratioThr = some 0 := by
  obtain ⟨hlow, hhigh⟩ := magAt_tones (toneMag xs) (k := 1) (by decide)
  have hreject : balanced (magAt (Rom.freqs.map (toneMag xs)) (Rom.lowIndex 1))
      (magAt (Rom.freqs.map (toneMag xs)) (Rom.highIndex 1)) toneFloor ratioThr = false := by
    rw [hlow, hhigh]
    exact balanced_zeros (toneMag_place_zero hxs _) (toneMag_place_zero hxs _) toneFloor ratioThr
  rw [classifyStrict_eq, decideClass_zeros floor _ rfl (List.forall_mem_map.mpr fun f _ => toneMag_place_zero hxs f)
    (List.forall_mem_map.mpr fun _ hk => toneKeyMag_place_zero (toneMag_place_zero hxs) hk), hreject,
    if_neg Bool.false_ne_true, ite_self]

end Classes

/-- A classification presented alone, over a window it gives a class. -/
theorem classifyOnly_class {s : State} {classify : State → List F32 → Option (BitVec 4)} {c : BitVec 4}
    (hw : s.windowExists s.pos.j) (hc : classify s (s.windowAt s.pos.j) = some c) :
    classifyOnly s classify = .next { s with port := { s.port with cls := c } } := by
  rw [classifyOnly, classifyWindow_eq classify _ hw, hc]

/-- Settles O33: each variant's class over zeros, put on the detector's output or stepped through the FSM. -/
theorem zeroWindowCompletes : Obligations.ZeroWindowCompletes := by
  intro s hw hwords c t t0
  have hzeros : ∀ x ∈ s.windowAt s.pos.j, x.place = some 0 :=
    List.forall_mem_map.mpr fun n hn => by
      rw [hwords n (List.mem_range.mp hn)]
      decide
  have hgoertzel : goertzelClass s (s.windowAt s.pos.j) = some c := classifyGoertzel_zeros hzeros _
  have hspectral : spectralClass s (s.windowAt s.pos.j) = some c := classifySpectral_zeros hzeros _
  have hstrict : strictClass s (s.windowAt s.pos.j) = some 0 := classifyStrict_zeros hzeros _ _ _
  refine ⟨classifyOnly_class hw hgoertzel, classifyOnly_class hw hspectral, classifyOnly_class hw hstrict, ?_, ?_⟩
  · rintro (hd | hd)
    · exact exec_seqDetectStep_class hw (by rw [hd]; rfl) hgoertzel
    · exact exec_seqDetectStep_class hw (by rw [hd]; rfl) hspectral
  · exact fun hd => exec_seqDetectStep_class hw (by rw [hd]; rfl) hstrict

end Machine
end Sys2Proof
end

section
/-! PROOFS. The segmentation FSM: the row of each class code steps the FSM with it, a window of a key and a silent window
move its registers as the rules say, a run of the held key counts its windows, and the flush (R220 to R237). -/

namespace Sys2Proof.Machine

/-! What a window does, an equation per branch of FSM_STEP (R222). -/

/-- A key row is the class row of its key, which is no silence. -/
theorem keyRows_eq_decodeClass {k : BitVec 4} {i : Instr} (hi : (k, i) ∈ keyRows) :
    i = decodeClass k ∧ encode i = ⟨.cls, [(0 : BitVec 4) ++ k]⟩ ∧ k ≠ 0 ∧ k.toNat ≤ 12 := by
  have hrows : ∀ x ∈ keyRows,
      x.2 = decodeClass x.1 ∧ encode x.2 = ⟨.cls, [(0 : BitVec 4) ++ x.1]⟩ ∧ x.1 ≠ 0 ∧ x.1.toNat ≤ 12 := by decide
  exact hrows _ hi

theorem exec_keyRow {k : BitVec 4} {i : Instr} (s : State) (hi : (k, i) ∈ keyRows) : exec i s = .next (s.fsmStep k) := by
  obtain ⟨rfl, -, -, h12⟩ := keyRows_eq_decodeClass hi
  exact exec_decodeClass s h12

theorem exec_fsmStepSilence (s : State) : exec .fsmStepSilence s = .next (s.fsmStep 0) :=
  exec_decodeClass (c := 0) s (Nat.zero_le _)

section Window
variable {s : State}

theorem State.fsmStep_cooldown (c : BitVec 4) (h : s.fsm.cool ≠ 0) :
    s.fsmStep c = { s with fsm := { s.fsm with cool := s.fsm.cool - 1 } } := if_pos h

theorem State.fsmStep_of_key {c : BitVec 4} (h : s.fsm.cool = 0) (hc : c ≠ 0) :
    s.fsmStep c = { s with fsm := s.fsm.keyStep s.guard c } := (if_neg (not_not.mpr h)).trans (if_pos hc)

theorem State.fsmStep_silence (h : s.fsm.cool = 0) : s.fsmStep 0 = s.silenceStep :=
  (if_neg (not_not.mpr h)).trans (if_neg (not_not.mpr rfl))

end Window

/-! A window of a key (R223 to R227). -/

theorem guarded_iff (gap guard : Byte) : guarded gap guard = true ↔ gap ≠ 0 ∧ gap.toNat - 1 ≤ guard.toNat := by
  simp [guarded]

theorem Fsm.nextGap_toNat (f : Fsm) : f.nextGap.toNat = if f.gap = 0 then 0 else min (f.gap.toNat + 1) 255 := by
  unfold Fsm.nextGap
  split
  · rfl
  · exact satInc_toNat f.gap

/-- Whatever LK is, a detection ends the silence, counts the gap and leaves COOL alone. -/
theorem Fsm.keyStep_counters (f : Fsm) (guard : Byte) (k : BitVec 4) :
    (f.keyStep guard k).cool = f.cool ∧ (f.keyStep guard k).sil = 0 ∧ (f.keyStep guard k).gap = f.nextGap := by
  obtain ⟨-, h⟩ | ⟨-, -, h⟩ | ⟨-, -, -, h⟩ | ⟨-, -, -, h⟩ := f.keyStep_cases guard k <;> simp [h]

theorem Fsm.keyStep_held {f : Fsm} (guard : Byte) (h : f.lk ≠ 0) :
    f.keyStep guard f.lk = ⟨f.lk, satInc f.same, f.press, 0, f.nextGap, f.cool⟩ := (if_neg h).trans (if_pos rfl)

/-- Settles O40: the four cases of a detection, the guard interval read off GAP after its increment. -/
theorem keyStep : Obligations.KeyStep := by
  intro s k i hi hcool
  obtain ⟨-, henc, hk, -⟩ := keyRows_eq_decodeClass hi
  obtain ⟨hcool', hsil, hgap⟩ := s.fsm.keyStep_counters s.guard k
  refine ⟨henc, s.fsm.keyStep s.guard k, ?_, hcool'.trans hcool, hsil, ?_, ?_⟩
  · rw [exec_keyRow s hi, State.fsmStep_of_key hcool hk]
  · rw [hgap, s.fsm.nextGap_toNat]
  rw [hgap, ← guarded_iff]
  obtain ⟨hlk, h⟩ | ⟨hlk, heq, h⟩ | ⟨hlk, hne, hg, h⟩ | ⟨hlk, hne, hg, h⟩ := s.fsm.keyStep_cases s.guard k <;> rw [h]
  case inl =>
    exact ⟨fun _ => ⟨rfl, rfl, rfl⟩, fun h0 => absurd hlk h0, fun h0 => absurd hlk h0, fun h0 => absurd hlk h0⟩
  case inr.inl =>
    exact ⟨fun h0 => absurd h0 hlk, fun _ _ => ⟨rfl, satInc_toNat _, rfl⟩, fun _ hne => absurd heq hne,
      fun _ hne => absurd heq hne⟩
  case inr.inr.inl =>
    exact ⟨fun h0 => absurd h0 hlk, fun _ heq => absurd heq hne, fun _ _ _ => ⟨rfl, satInc_toNat _, rfl⟩,
      fun _ _ hng => absurd hg hng⟩
  case inr.inr.inr =>
    exact ⟨fun h0 => absurd h0 hlk, fun _ heq => absurd heq hne, fun _ _ hg' => absurd hg' (ne_true_of_eq_false hg),
      fun _ _ _ => ⟨rfl, rfl, rfl⟩⟩

/-- Settles O42: the cooldown test comes before the class is looked at. -/
theorem cooldownTakesWindow : Obligations.CooldownTakesWindow := by
  intro s i hi hcool
  have hexec : ∃ c, exec i s = .next (s.fsmStep c) := by
    obtain rfl | ⟨k, hk⟩ := hi
    · exact ⟨0, exec_fsmStepSilence s⟩
    · exact ⟨k, exec_keyRow s hk⟩
  obtain ⟨c, hexec⟩ := hexec
  exact ⟨s.fsm.cool - 1, by bv_omega, by rw [hexec, State.fsmStep_cooldown c hcool]⟩

/-! A silent window (R228 to R230). -/

/-- A run that met CONFIRM counts as one press more, saturating (R229). -/
theorem Fsm.silenceCount_press_toNat (f : Fsm) (confirm : Byte) : (f.silenceCount confirm).press.toNat
    = if confirm.toNat ≤ f.same.toNat then min (f.press.toNat + 1) 255 else f.press.toNat := by
  rw [Fsm.silenceCount, apply_ite BitVec.toNat, satInc_toNat]

/-- The counters after a silent window, from their values as numbers. -/
theorem Fsm.silenceCount_eq {f : Fsm} {confirm sil gap press : Byte} (hsil : sil.toNat = min (f.sil.toNat + 1) 255)
    (hgap : gap.toNat = if f.sil = 0 then 1 else min (f.gap.toNat + 1) 255)
    (hpress : press.toNat = if confirm.toNat ≤ f.same.toNat then min (f.press.toNat + 1) 255 else f.press.toNat) :
    f.silenceCount confirm = ⟨f.lk, 0, press, sil, gap, f.cool⟩ := by
  have hsil' : sil = satInc f.sil := BitVec.eq_of_toNat_eq (hsil.trans (satInc_toNat _).symm)
  have hgap' : gap = if f.sil = 0 then 1 else satInc f.gap := by
    refine BitVec.eq_of_toNat_eq ?_
    rw [apply_ite BitVec.toNat, satInc_toNat, hgap]
    rfl
  have hpress' : press = (f.silenceCount confirm).press :=
    BitVec.eq_of_toNat_eq (hpress.trans (f.silenceCount_press_toNat confirm).symm)
  rw [hsil', hgap', hpress']
  rfl

section Silence
variable {s : State} {f : Fsm} (hf : s.fsm.silenceCount s.confirm = f)
include hf

theorem State.silenceStep_counts (h : ¬(s.pause.toNat ≤ f.sil.toNat ∧ f.lk ≠ 0)) : s.silenceStep = { s with fsm := f } := by
  subst hf
  exact if_neg h

theorem State.silenceStep_emits (h : s.pause.toNat ≤ f.sil.toNat ∧ f.lk ≠ 0) (hp : f.press ≠ 0) :
    s.silenceStep = { s.emit f.lk f.press with fsm := { f.toStart with cool := s.cooldown } } := by
  subst hf
  exact (if_pos h).trans (if_pos hp)

theorem State.silenceStep_drops (h : s.pause.toNat ≤ f.sil.toNat ∧ f.lk ≠ 0) (hp : f.press = 0) :
    s.silenceStep = { s with fsm := f.toStart } := by
  subst hf
  exact (if_pos h).trans (if_neg (not_not.mpr hp))

end Silence

theorem one_le_toNat_iff (p : Byte) : 1 ≤ p.toNat ↔ p ≠ 0 := by
  bv_omega

/-- Settles O41: the counters are the given ones, and then the pause test and the press test decide. -/
theorem silenceStep : Obligations.SilenceStep := by
  refine ⟨rfl, fun s sil gap press hcool hsil hgap hpress => ?_⟩
  have hcount := Fsm.silenceCount_eq hsil hgap hpress
  rw [exec_fsmStepSilence, State.fsmStep_silence hcool]
  rw [hcool] at hcount
  simp only [one_le_toNat_iff]
  by_cases hpause : s.pause.toNat ≤ sil.toNat ∧ s.fsm.lk ≠ 0
  · by_cases hp : press ≠ 0
    · rw [if_pos hpause, if_pos hp, State.silenceStep_emits hcount hpause hp]
      rfl
    · rw [if_pos hpause, if_neg hp, State.silenceStep_drops hcount hpause (not_not.mp hp)]
      rfl
  · rw [if_neg hpause, State.silenceStep_counts hcount hpause]

/-! The flush (R231). -/

/-- The flush counts the presses a silent window would. -/
theorem State.flushPresses_eq (s : State) : s.flushPresses = (s.fsm.silenceCount s.confirm).press := rfl

/-- Settles O43: the presses are those the flush counts, and an emission leaves the position alone. -/
theorem flush : Obligations.Flush := by
  refine ⟨rfl, fun s p hp => ⟨_, rfl, ?_⟩⟩
  have hpresses : s.flushPresses = p := by
    refine BitVec.eq_of_toNat_eq ?_
    rw [s.flushPresses_eq, Fsm.silenceCount_press_toNat, hp]
    have := s.fsm.press.isLt
    split <;> omega
  have hemit : s.flushEmit = if s.fsm.lk ≠ 0 ∧ 1 ≤ p.toNat then s.emit s.fsm.lk p else s := by
    simp only [State.flushEmit, hpresses, one_le_toNat_iff]
  have hpos : s.flushEmit.pos = s.pos := by
    obtain ⟨-, -, -, -, -, -, -, -, -, hpos, -⟩ := s.flushEmit_frame
    exact hpos
  rw [← hemit, ← hpos]
  rfl

/-! A run of windows of the held key (R224, R229). -/

/-- The FSM registers `g` reached from `f` by a run of `m` windows of the held key. -/
structure Fsm.HeldRun (f g : Fsm) (m : Nat) : Prop where
  lk : g.lk = f.lk
  same : g.same.toNat = min (f.same.toNat + m) 255
  press : g.press = f.press
  cool : g.cool = f.cool
  sil : 1 ≤ m → g.sil = 0

theorem Fsm.HeldRun.zero (f : Fsm) : f.HeldRun f 0 where
  lk := rfl
  same := by have := f.same.isLt; omega
  press := rfl
  cool := rfl
  sil := by omega

/-- One window more of the held key. -/
theorem Fsm.HeldRun.succ {f g : Fsm} {m : Nat} (h : f.HeldRun g m) (guard : Byte) (hlk : f.lk ≠ 0) :
    f.HeldRun (g.keyStep guard f.lk) (m + 1) := by
  rw [← h.lk, Fsm.keyStep_held guard (h.lk ▸ hlk)]
  exact
    { lk := h.lk
      same := by rw [satInc_toNat, h.same]; omega
      press := h.press
      cool := h.cool
      sil := fun _ => rfl }

/-- Without a cooldown a run of the held key moves the FSM registers alone, as many windows as it has. -/
theorem State.foldl_heldKey {s : State} (hcool : s.fsm.cool = 0) (hlk : s.fsm.lk ≠ 0) (m : Nat) :
    ∃ g, s.fsm.HeldRun g m ∧ (List.replicate m s.fsm.lk).foldl State.fsmStep s = { s with fsm := g } := by
  induction m with
  | zero => exact ⟨s.fsm, .zero s.fsm, rfl⟩
  | succ m ih =>
    obtain ⟨g, hg, h⟩ := ih
    refine ⟨_, hg.succ s.guard hlk, ?_⟩
    rw [List.replicate_succ', List.foldl_append, h]
    exact State.fsmStep_of_key (s := { s with fsm := g }) (hg.cool.trans hcool) hlk

/-- The first silent window after a detection only counts, as PAUSE is above 1. -/
theorem State.fsmStep_firstSilence {s : State} (hcool : s.fsm.cool = 0) (hsil : s.fsm.sil = 0)
    (hpause : 2 ≤ s.pause.toNat) : s.fsmStep 0 = { s with fsm := s.fsm.silenceCount s.confirm } := by
  have hsil1 : (s.fsm.silenceCount s.confirm).sil = 1 := by
    rw [Fsm.silenceCount, hsil]
    rfl
  rw [State.fsmStep_silence hcool]
  refine State.silenceStep_counts rfl fun h => ?_
  rw [hsil1] at h
  exact absurd h.1 (Nat.not_le.mpr hpause)

/-- Settles O46: the run leaves its length in SAME, up to 255, and the first silent window after it compares SAME with
CONFIRM. -/
theorem shortRunsAddNoPress : Obligations.ShortRunsAddNoPress := by
  intro s m hm hcool hlk hsame hpause f
  obtain ⟨g, hg, hrun⟩ := State.foldl_heldKey hcool hlk m
  have hf : f = g.silenceCount s.confirm := by
    show (List.foldl State.fsmStep s (List.replicate m s.fsm.lk ++ [0])).fsm = _
    rw [List.foldl_append, hrun]
    exact congrArg State.fsm
      (State.fsmStep_firstSilence (s := { s with fsm := g }) (hg.cool.trans hcool) (hg.sil hm) hpause)
  have hconfirm : s.confirm.toNat ≤ g.same.toNat ↔ s.confirm.toNat ≤ m := by
    have := s.confirm.isLt
    have hzero : s.fsm.same.toNat = 0 := by rw [hsame]; rfl
    have hlen := hg.same
    omega
  rw [hf]
  refine ⟨hg.lk, rfl, ?_⟩
  rw [Fsm.silenceCount_press_toNat, hg.press]
  simp only [hconfirm]

end Sys2Proof.Machine
end

section
/-! SUPPORT. What each transaction does, an equation per kind of row and branch (R97, R270 to R286). -/

namespace Sys2Proof.Machine

/-- The response of a refused transaction: read data 0 for a read, none for a write (R84, R270). -/
theorem State.refuse_eq (s : State) (we : Bool) : s.refuse we = s.respond ⟨.error, if we then none else some 0⟩ := by
  cases we <;> rfl

/-! Register reads (R272). -/

theorem exec_readRow (s : State) (r : Reg) : exec r.readRow s = .next (s.respond ⟨.okay, some (regValue s r)⟩) := by
  cases r <;> rfl

section Fields
variable (s : State)

/-- The fields of STATUS (R38). -/
theorem statusWord_fields : (statusWord s).getLsbD 0 = s.status.busy ∧ (statusWord s).getLsbD 1 = s.status.done
    ∧ (statusWord s).getLsbD 2 = s.status.err ∧ (statusWord s).getLsbD 3 = s.status.outOvf
    ∧ (statusWord s).extractLsb' 4 4 = s.status.errCode ∧ (statusWord s).extractLsb' 8 3 = s.pos.phase
    ∧ (statusWord s).extractLsb' 11 21 = 0 := by
  refine ⟨?_, ?_, ?_, ?_, ?_, ?_, ?_⟩
  case refine_5 | refine_6 | refine_7 =>
    simp (disch := decide) only [statusWord, BitVec.extractLsb'_append_eq_of_le, Nat.reduceSub,
      BitVec.extractLsb'_append_eq_right, BitVec.extractLsb'_eq_self]
  all_goals simp only [statusWord, BitVec.getLsbD_append]; simp

/-- The fields of CTRL: the two actions read 0 (R37). -/
theorem ctrlWord_fields : (ctrlWord s).getLsbD 0 = false ∧ (ctrlWord s).getLsbD 1 = false
    ∧ (ctrlWord s).getLsbD 2 = s.irqEn ∧ (ctrlWord s).extractLsb' 3 29 = 0 := by
  refine ⟨?_, ?_, ?_, ?_⟩
  case refine_4 =>
    simp (disch := decide) only [ctrlWord, BitVec.extractLsb'_append_eq_of_le, Nat.reduceSub, BitVec.extractLsb'_eq_self]
  all_goals simp only [ctrlWord, BitVec.getLsbD_append]; simp

/-- The fields of CAPS (R33). -/
theorem capsWord_fields (b : Build) : (capsWord b).extractLsb' 0 2 = b.detector
    ∧ (capsWord b).getLsbD 2 = b.halfStride ∧ (capsWord b).extractLsb' 3 29 = 0 := by
  refine ⟨BitVec.extractLsb'_append_eq_right, ?_, ?_⟩
  · simp only [capsWord, BitVec.getLsbD_append]; simp
  · simp (disch := decide) only [capsWord, BitVec.extractLsb'_append_eq_of_le, Nat.reduceSub, BitVec.extractLsb'_eq_self]

/-- The fields of PLACEHOLDER (R44). -/
theorem placeholder_fields : (regValue s .placeholder).extractLsb' 0 8 = s.cfg.pchar
    ∧ (regValue s .placeholder).extractLsb' 8 24 = 0 :=
  ⟨BitVec.extractLsb'_append_eq_right, BitVec.extractLsb'_append_eq_left⟩

end Fields

/-! Register writes, but those of CTRL (R273, R276 to R280): one of the read-only registers, of the configuration
registers, or of STATUS. -/

/-- The read-only registers (R273). -/
def readOnlyRegs : List Reg := [.id, .caps, .winCfg, .bufLen, .outLen, .outCount, .winCount, .errInfo]

/-- The registers of `ConfigRegs` (R277 to R280). -/
def configRegs : List Reg := [.sampleCount, .fsmCfg, .placeholder] ++ binary32Regs

/-- The configuration with WDATA stored in a register of it; no other register stores it. -/
def ConfigRegs.store (c : ConfigRegs) (w : Word) : Reg → ConfigRegs
  | .sampleCount => { c with sampleCount := w }
  | .fsmCfg => { c with fsmCfg := w }
  | .placeholder => { c with pchar := w.extractLsb' 0 8 }
  | .gateFactor => { c with gateFactor := w }
  | .normEps => { c with normEps := w }
  | .noiseFloor => { c with noiseFloor := w }
  | .toneFloor => { c with toneFloor := w }
  | .ratioThr => { c with ratioThr := w }
  | .emphCoef => { c with emphCoef := w }
  | .bpB0 => { c with bpB0 := w }
  | .bpB1 => { c with bpB1 := w }
  | .bpB2 => { c with bpB2 := w }
  | .bpB3 => { c with bpB3 := w }
  | .bpB4 => { c with bpB4 := w }
  | .bpA1 => { c with bpA1 := w }
  | .bpA2 => { c with bpA2 := w }
  | .bpA3 => { c with bpA3 := w }
  | .bpA4 => { c with bpA4 := w }
  | _ => c

/-- The four kinds of registers, by what a write of one does. -/
theorem write_kinds (r : Reg) : r ∈ readOnlyRegs ∨ r ∈ configRegs ∨ r = .status ∨ r = .ctrl := by
  cases r <;> decide

section Writes
variable {s : State} {r : Reg} (w : Word)

theorem exec_writeRow_readOnly (hr : r ∈ readOnlyRegs) : exec (r.writeRow w) s = .next (s.respond ⟨.error, none⟩) := by
  fin_cases hr <;> rfl

theorem exec_writeRow_config (hr : r ∈ configRegs) : exec (r.writeRow w) s = .next (s.writeConfig (s.cfg.store w r)) := by
  fin_cases hr <;> rfl

theorem exec_writeRow_config_idle (hr : r ∈ configRegs) (hb : s.status.busy = false) :
    exec (r.writeRow w) s = .next ({ s with cfg := s.cfg.store w r }.respond ⟨.okay, none⟩) :=
  (exec_writeRow_config w hr).trans (congrArg _ (State.gatedWrite_idle hb))

/-- A binary32 register stores WDATA as it is, and no register but itself (R280). -/
theorem regValue_store (hr : r ∈ binary32Regs) (q : Reg) :
    regValue { s with cfg := s.cfg.store w r } q = if q = r then w else regValue s q := by
  fin_cases hr <;> cases q <;> rfl

theorem exec_wrStatus_idle (hb : s.status.busy = false) :
    exec (.wrStatus w) s = .next ((s.acknowledge (w.getLsbD 1) (w.getLsbD 2)).respond ⟨.okay, none⟩) :=
  congrArg _ (State.gatedWrite_idle hb)

/-- While BUSY = 1 no register but CTRL is written (R286). -/
theorem exec_writeRow_busy (hr : r ≠ .ctrl) (hb : s.status.busy = true) :
    exec (r.writeRow w) s = .next (s.respond ⟨.error, none⟩) := by
  obtain hr' | hr' | rfl | hr' := write_kinds r
  · exact exec_writeRow_readOnly w hr'
  · exact (exec_writeRow_config w hr').trans (congrArg _ (State.gatedWrite_busy hb))
  · exact congrArg _ (State.gatedWrite_busy hb)
  · exact absurd hr' hr

end Writes

/-! RAM words (R281 to R285). -/

section Ram
variable {s : State} {ok : Bool} {w : Word} {n : BitVec 20}

theorem readRam_idle (hb : s.status.busy = false) (hok : ok = true) :
    readRam s ok w = .next (s.respond ⟨.okay, some w⟩) := by
  simp [readRam, hb, hok]

theorem readRam_busy (hb : s.status.busy = true) : readRam s ok w = .next (s.respond ⟨.error, some 0⟩) := by
  simp [readRam, hb]

theorem readRam_beyond (hok : ok = false) : readRam s ok w = .next (s.respond ⟨.error, some 0⟩) := by
  simp [readRam, hok]

theorem exec_rdSample_beyond (hn : s.build.bufLen ≤ n.toNat) :
    exec (.rdSample n) s = .next (s.respond ⟨.error, some 0⟩) :=
  readRam_beyond (decide_eq_false (Nat.not_lt.mpr hn))

theorem exec_rdOut_beyond {i : BitVec 10} (hi : s.build.outLen ≤ i.toNat) :
    exec (.rdOut i) s = .next (s.respond ⟨.error, some 0⟩) :=
  readRam_beyond (decide_eq_false (Nat.not_lt.mpr hi))

theorem exec_wrSample_idle (hn : n.toNat < s.build.bufLen) (hb : s.status.busy = false) :
    exec (.wrSample n w) s = .next ((s.setSample n.toNat w).respond ⟨.okay, none⟩) :=
  congrArg _ ((if_pos hn).trans (State.gatedWrite_idle hb))

theorem exec_wrSample_beyond (hn : s.build.bufLen ≤ n.toNat) :
    exec (.wrSample n w) s = .next (s.respond ⟨.error, none⟩) :=
  congrArg _ (if_neg (Nat.not_lt.mpr hn))

theorem exec_wrSample_busy (hb : s.status.busy = true) : exec (.wrSample n w) s = .next (s.respond ⟨.error, none⟩) := by
  by_cases hn : n.toNat < s.build.bufLen
  · exact congrArg _ ((if_pos hn).trans (State.gatedWrite_busy hb))
  · exact exec_wrSample_beyond (Nat.not_lt.mp hn)

end Ram

/-! Control writes (R274, R331). -/

section Control
variable {s : State} {w : Word}

theorem exec_wrCtrl_softReset (h1 : w.getLsbD 1 = true) :
    exec (.wrCtrl w) s = .next (s.softReset.respond ⟨.okay, none⟩) := if_pos h1

theorem exec_wrCtrl_start_busy (h1 : w.getLsbD 1 = false) (h0 : w.getLsbD 0 = true) (hb : s.status.busy = true) :
    exec (.wrCtrl w) s = .next (s.respond ⟨.error, none⟩) :=
  (if_neg (ne_true_of_eq_false h1)).trans (if_pos (Bool.and_eq_true_iff.mpr ⟨h0, hb⟩))

theorem exec_wrCtrl_start (h1 : w.getLsbD 1 = false) (h0 : w.getLsbD 0 = true) (hb : s.status.busy = false) :
    exec (.wrCtrl w) s = .next (State.respond { s with irqEn := w.getLsbD 2 }.start ⟨.okay, none⟩) :=
  (if_neg (ne_true_of_eq_false h1)).trans ((if_neg (ne_true_of_eq_false (Bool.and_eq_false_iff.mpr (.inr hb)))).trans
    (congrArg _ (if_pos h0)))

theorem exec_wrCtrl_irqEn (h1 : w.getLsbD 1 = false) (h0 : w.getLsbD 0 = false) :
    exec (.wrCtrl w) s = .next (State.respond { s with irqEn := w.getLsbD 2 } ⟨.okay, none⟩) :=
  (if_neg (ne_true_of_eq_false h1)).trans ((if_neg (ne_true_of_eq_false (Bool.and_eq_false_iff.mpr (.inl h0)))).trans
    (congrArg _ (if_neg (ne_true_of_eq_false h0))))

end Control

/-! The rows of a transaction (R112). -/

/-- The rows a transaction with WE = `we` can be decoded as. -/
inductive BusRow (we : Bool) : Instr → Prop
  | illegal (addr : BitVec 24) (size : Size) (w : Word) : BusRow we (.busIllegal we addr size w)
  | reserved (addr : BitVec 24) (w : Word) : BusRow we (.busReserved we addr w)
  | sample (n : BitVec 20) (w : Word) : BusRow we (if we then .wrSample n w else .rdSample n)
  | out (i : BitVec 10) (w : Word) : BusRow we (if we then .wrOut i w else .rdOut i)
  | reg (r : Reg) (w : Word) : BusRow we (if we then r.writeRow w else r.readRow)

theorem busRow_decodeTransaction (we : Bool) (addr : BitVec 24) (size : Size) (w : Word) :
    BusRow we (decodeTransaction we addr size w) := by
  unfold decodeTransaction
  split
  · exact .illegal addr size _
  unfold decodeLegal
  split
  · exact .sample _ w
  split
  · exact .out _ w
  split
  · exact .reg _ w
  · exact .reserved addr _

/-- The busy gate (R286): what is neither a register read nor a control write is refused. -/
theorem BusRow.exec_busy {we : Bool} {i : Instr} {s : State} (h : BusRow we i) (hb : s.status.busy = true)
    (hread : ∀ r : Reg, i ≠ r.readRow) (hctrl : ∀ w, i ≠ .wrCtrl w) : exec i s = .next (s.refuse we) := by
  cases h with
  | illegal addr size w => rfl
  | reserved addr w => rfl
  | sample n w =>
    cases we
    · exact readRam_busy hb
    · exact exec_wrSample_busy hb
  | out i w =>
    cases we
    · exact readRam_busy hb
    · rfl
  | reg r w =>
    cases we
    · exact absurd rfl (hread r)
    · refine exec_writeRow_busy w ?_ hb
      rintro rfl
      exact hctrl w rfl

/-- Every transaction completes with its one response: none stops the block (R97, R110). -/
theorem exec_busRow_next {i : Instr} (s : State) (hi : isBusRow i = true) : ∃ t, exec i s = .next t := by
  cases i
  case wrCtrl w =>
    obtain ⟨-, h⟩ | ⟨-, -, -, h⟩ | ⟨-, -, -, h⟩ | ⟨-, -, h⟩ := execWrCtrl_cases w s <;> exact ⟨_, h⟩
  all_goals first
    | exact ⟨_, rfl⟩
    | cases hi

end Sys2Proof.Machine
end

section
/-! PROOFS. Register reads and writes (R272, R276 to R280). -/

namespace Sys2Proof.Machine

/-- Settles O10: a read answers the register's value, which for the four registers with fields has them at their bits. -/
theorem registerReads : Obligations.RegisterReads := by
  intro s r
  refine ⟨_, rfl, exec_readRow s r, fun h => h ▸ statusWord_fields s, fun h => h ▸ ctrlWord_fields s,
    fun h => h ▸ placeholder_fields s, fun h => h ▸ capsWord_fields s.build, fun h => h ▸ rfl,
    fun h => h ▸ winCfgWord_eq s.build, ?_⟩
  and_intros <;> exact fun h => h ▸ rfl

/-- Settles O11: a binary32 register is a configuration register that holds its pattern as written. -/
theorem binary32Writes : Obligations.Binary32Writes := fun s w r hr hb =>
  ⟨s.cfg.store w r, exec_writeRow_config_idle w (List.mem_append_right _ hr) hb,
    (regValue_store w hr r).trans (if_pos rfl), fun q hq => (regValue_store w hr q).trans (if_neg hq)⟩

/-- Settles O12: the three configuration registers that hold no pattern. -/
theorem integerWrites : Obligations.IntegerWrites := fun s w hb =>
  ⟨exec_writeRow_config_idle (r := .sampleCount) w (by decide) hb,
    ⟨s.cfg.store w .fsmCfg, rfl, exec_writeRow_config_idle (r := .fsmCfg) w (by decide) hb, rfl, rfl, rfl, rfl⟩,
    exec_writeRow_config_idle (r := .placeholder) w (by decide) hb⟩

/-- A flag after an acknowledgement by a W1C bit (R276). -/
theorem flag_acknowledged (bit flag : Bool) : (if bit then false else flag) = (flag && !bit) := by
  cases bit <;> simp

/-- Settles O13: the acknowledgement writes DONE, ERR, ERR_CODE and ERR_INFO alone. -/
theorem statusWrite : Obligations.StatusWrite := fun _ w hb =>
  ⟨_, exec_wrStatus_idle w hb, flag_acknowledged _ _, flag_acknowledged _ _, rfl, rfl, rfl⟩

end Sys2Proof.Machine
end

section
/-! PROOFS. Control writes: the soft reset, START, and a write that begins nothing (R263, R264, R274, R331, R332, R339). -/

namespace Sys2Proof.Machine

/-- A byte outside OUT_RAM and the run's sample words is not forgotten (R332). -/
theorem forgotten_eq_false {n a : Nat} (hout : ¬(0x1000 ≤ a ∧ a < 0x2000))
    (hsample : ¬(0x400000 ≤ a ∧ a < sampleAddr n)) : forgotten n a = false := by
  simp only [forgotten, inOutRam, inSampleRam, Bool.or_eq_false_iff, Bool.and_eq_false_iff, decide_eq_false_iff_not]
  omega

/-- The bytes a soft reset keeps (R332). -/
theorem State.softReset_read {s : State} {a : Nat} (ha : forgotten s.total a = false) :
    s.softReset.mem.read a = s.mem.read a := by
  rw [s.softReset_mem]
  split
  · exact s.mem.read_forget _ _ ha
  · rfl

/-- Settles O14: a soft reset leaves the registers of the reset state, and forgets the bytes of an abandoned run alone. -/
theorem softReset : Obligations.SoftReset := fun s _ h1 =>
  ⟨_, exec_wrCtrl_softReset h1, regValue_resetOf s.build _ _, rfl, rfl, rfl, rfl, rfl, rfl, rfl,
    fun hb => s.softReset_mem.trans (if_neg (ne_true_of_eq_false hb)),
    fun _ hout hsample => State.softReset_read (forgotten_eq_false hout hsample)⟩

/-- The run has no sample exactly when SAMPLE_COUNT is 0 (R39, R263). -/
theorem State.total_eq_zero_iff (s : State) : s.total = 0 ↔ s.cfg.sampleCount = 0 :=
  BitVec.toNat_inj (y := 0)

/-- Settles O15: by the capacity, a START is refused or begins the run. -/
theorem startAction : Obligations.StartAction := by
  intro s w h1 h0 hb
  rw [exec_wrCtrl_start h1 h0 hb]
  obtain ⟨hN, h⟩ | ⟨hN, h⟩ := State.start_cases { s with irqEn := w.getLsbD 2 } <;> rw [h]
  · exact (if_pos hN).symm
  · refine Eq.trans ?_ (if_neg (Nat.not_lt.mpr hN)).symm
    simp only [State.beginRun, State.total_eq_zero_iff]
    rfl

/-- Settles O16. -/
theorem controlWriteWithoutStart : Obligations.ControlWriteWithoutStart := fun _ _ h1 =>
  ⟨exec_wrCtrl_start_busy h1, exec_wrCtrl_irqEn h1⟩

end Sys2Proof.Machine
end

section
/-! PROOFS. Transactions on the RAMs, transactions that are refused, and the busy gate (R261, R270, R273, R281 to R286, R336,
R337). -/

namespace Sys2Proof.Machine

/-- Settles O17: by the index, the word is read or the read is refused. -/
theorem ramReads : Obligations.RamReads := by
  refine fun s hb => ⟨fun n => ?_, fun i => ?_⟩
  · split
    · exact readRam_idle hb (decide_eq_true ‹_›)
    · exact exec_rdSample_beyond (Nat.not_lt.mp ‹_›)
  · split
    · exact readRam_idle hb (decide_eq_true ‹_›)
    · exact exec_rdOut_beyond (Nat.not_lt.mp ‹_›)

/-- Settles O18: the memory is the one with the word written. -/
theorem sampleWrite : Obligations.SampleWrite := fun s n w hm hb =>
  ⟨fun hn => ⟨(s.setSample n.toNat w).mem, exec_wrSample_idle hn hb, State.setSample_readWord w hm _,
    fun _ => State.setSample_read w hm _⟩,
    exec_wrSample_beyond⟩

/-- Settles O19. -/
theorem refusedTransactions : Obligations.RefusedTransactions := fun s w =>
  ⟨fun we _ _ => congrArg _ (s.refuse_eq we), fun we _ => congrArg _ (s.refuse_eq we),
    fun _ hr => exec_writeRow_readOnly w hr, fun _ => rfl,
    fun _ hn => ⟨exec_rdSample_beyond hn, exec_wrSample_beyond hn⟩, fun _ => exec_rdOut_beyond⟩

/-- Settles O20, row by row of what a transaction can be decoded as. -/
theorem busyGate : Obligations.BusyGate := fun s we addr size w hb hread hctrl =>
  ((busRow_decodeTransaction we addr size w).exec_busy hb hread hctrl).trans (congrArg _ (s.refuse_eq we))

/-- A control write while BUSY that is no soft reset changes at most IRQ_EN and the response (R274). -/
theorem wrCtrl_core {w : Word} {s t : State} (hb : s.status.busy = true) (h1 : w.getLsbD 1 = false)
    (h : execWrCtrl w s = .next t) : t.core = s.core := by
  obtain ⟨h1', -⟩ | ⟨-, -, -, he⟩ | ⟨-, -, hb', -⟩ | ⟨-, -, he⟩ := execWrCtrl_cases w s
  · exact absurd (h1.symm.trans h1') (by decide)
  · obtain rfl := Host.Outcome.next.inj (he.symm.trans h)
    rfl
  · exact absurd (hb.symm.trans hb') (by decide)
  · obtain rfl := Host.Outcome.next.inj (he.symm.trans h)
    rfl

/-- A transaction while BUSY that is no soft reset changes at most IRQ_EN and the response. -/
theorem exec_busRow_core {i : Instr} {s t : State} (hi : isBusRow i = true) (hb : s.status.busy = true)
    (hctrl : ∀ w, i = .wrCtrl w → w.getLsbD 1 = false) (hexec : exec i s = .next t) : t.core = s.core := by
  have hidle : s.status.busy ≠ false := ne_false_of_eq_true hb
  cases exec_cases hexec with
  | respond r _ h => rw [h]; rfl
  | config c r _ hb' _ => exact absurd hb' hidle
  | acknowledge w r _ hb' _ => exact absurd hb' hidle
  | control w hw h => exact wrCtrl_core hb (hctrl w hw) h
  | sample n w r _ hb' _ _ => exact absurd hb' hidle
  | silence hi' _ => subst hi'; cases hi
  | key k hk _ _ _ =>
    have hrow : ∀ x ∈ keyRows, isBusRow x.2 = false := by decide
    exact absurd hi (ne_true_of_eq_false (hrow _ hk))
  | micro hm _ => exact absurd hi (ne_true_of_eq_false (not_isBusRow_of_isMicroOp hm))
  | classify hd _ =>
    have hrow : ∀ x ∈ [Instr.detClassifyGoertzel, .detClassifyGoertzelStrict, .detClassifySpectral],
        isBusRow x = false := by decide
    exact absurd hi (ne_true_of_eq_false (hrow _ hd))

/-- Settles O21. -/
theorem hostCannotDisturbRun : Obligations.HostCannotDisturbRun := by
  intro s i hb hi hctrl
  obtain ⟨t, h⟩ := exec_busRow_next s hi
  exact ⟨t, h, exec_busRow_core hi hb hctrl h⟩

end Sys2Proof.Machine
end

section
/-! PROOFS. Error entry, and what a micro-operation neither reads nor changes: IRQ_EN and the latest response (R261, R268, R301,
R303). -/

namespace Sys2Proof.Machine

/-! Error entry (R268, R303). -/

/-- The operation of an error, with its code and info (R301). -/
def ErrorOf (i : Instr) (s : State) (code : BitVec 4) (info : Nat) : Prop :=
  (i = .seqStatsStep ∧ code = 2 ∧ info = s.pos.n) ∨ (i = .seqStatsEnd ∧ code = 3 ∧ info = 0)
    ∨ (i = .seqVarEnd ∧ code = 3 ∧ info = 0) ∨ (i = .seqFilterStep ∧ code = 4 ∧ info = s.pos.n)
    ∨ (i = .seqDetectStep ∧ code = 5 ∧ info = s.pos.j)

/-- A micro-operation that sets ERR makes an error entry, and before it writes working registers only. -/
theorem MicroCases.raised {i : Instr} {s t : State} (h : MicroCases i s t) (hs : s.status.err = false)
    (ht : t.status.err = true) : ∃ w c k, t = { s with work := w }.raise c k ∧ ErrorOf i s c k := by
  have hne : t.status.err ≠ s.status.err := by simp [hs, ht]
  cases h with
  | raise w c k h _ hc => exact ⟨w, c, k, h, hc⟩
  | detectStep c _ _ h =>
    obtain ⟨-, -, -, -, herr, -⟩ := State.fsmStep_frame { s with port := { s.port with cls := c } } c
    exact absurd (congrArg (fun u : State => u.status.err) h |>.trans herr) hne
  | flush _ h =>
    obtain ⟨-, -, -, -, herr, -⟩ := s.flushEmit_frame
    exact absurd (congrArg (fun u : State => u.status.err) h |>.trans herr) hne
  | _ => subst t; exact absurd rfl hne

/-- Settles O48: what the error entry writes, and the row of R301's table. -/
theorem errorEntry : Obligations.ErrorEntry := by
  intro s t i hm hs h ht
  obtain ⟨w, c, k, rfl, hc⟩ := (micro_cases hm h).raised hs ht
  refine ⟨rfl, rfl, rfl, rfl, rfl, rfl, rfl, rfl, ?_⟩
  obtain ⟨hi, rfl, rfl⟩ | ⟨hi, rfl, rfl⟩ | ⟨hi, rfl, rfl⟩ | ⟨hi, rfl, rfl⟩ | ⟨hi, rfl, rfl⟩ := hc
  · exact .inl ⟨hi, rfl, rfl⟩
  · exact .inr (.inl ⟨hi, rfl, rfl⟩)
  · exact .inr (.inr (.inl ⟨hi, rfl, rfl⟩))
  · exact .inr (.inr (.inr (.inl ⟨hi, rfl, rfl⟩)))
  · exact .inr (.inr (.inr (.inr ⟨hi, rfl, rfl⟩)))

/-! The host's part of the state (R261). -/

/-- The state with IRQ_EN and the latest response replaced. -/
def State.withHost (e : Bool) (r : Option Response) (s : State) : State :=
  { s with irqEn := e, port := { s.port with resp := r } }

/-- What an operation answers, with IRQ_EN and the latest response of its next state replaced. -/
def hostReplaced (e : Bool) (r : Option Response) : Result → Result
  | .next t => .next (t.withHost e r)
  | .fault q => .fault q
  | .refused q => .refused q

/-- Two states that differ in IRQ_EN and the latest response alone. -/
theorem State.eq_withHost {s t : State} (h : s.core = t.core) : t = s.withHost t.irqEn t.port.resp := by
  have hs : s.withHost t.irqEn t.port.resp = s.core.withHost t.irqEn t.port.resp := rfl
  rw [hs, h]
  rfl

theorem State.withHost_core (e : Bool) (r : Option Response) (s : State) : (s.withHost e r).core = s.core := rfl

section WithHost
variable (e : Bool) (r : Option Response) (s : State)

/-- An update by cases that commutes in each case. -/
theorem withHost_ite {c : Prop} [Decidable c] {a b a' b' : State} (ha : a' = a.withHost e r) (hb : b' = b.withHost e r) :
    (if c then a' else b') = (if c then a else b).withHost e r := by
  rw [ha, hb, apply_ite (State.withHost e r)]

theorem State.emit_withHost (k : BitVec 4) (p : Byte) : (s.withHost e r).emit k p = (s.emit k p).withHost e r :=
  withHost_ite e r rfl rfl

theorem State.silenceStep_withHost : (s.withHost e r).silenceStep = s.silenceStep.withHost e r := by
  refine withHost_ite e r (withHost_ite e r ?_ rfl) rfl
  exact congrArg (fun u : State => { u with fsm := { (s.fsm.silenceCount s.confirm).toStart with cool := s.cooldown } })
    (s.emit_withHost e r _ _)

theorem State.fsmStep_withHost (c : BitVec 4) : (s.withHost e r).fsmStep c = (s.fsmStep c).withHost e r :=
  withHost_ite e r rfl (withHost_ite e r rfl (s.silenceStep_withHost e r))

theorem State.flushEmit_withHost : (s.withHost e r).flushEmit = s.flushEmit.withHost e r :=
  withHost_ite e r (s.emit_withHost e r _ _) rfl

theorem withSample_withHost {act act' : Word → State} (h : ∀ w, act' w = (act w).withHost e r) :
    withSample (s.withHost e r) act' = hostReplaced e r (withSample s act) := by
  have hs : (s.withHost e r).sample? (s.withHost e r).pos.n = s.sample? s.pos.n := rfl
  unfold withSample
  rw [hs]
  cases s.sample? s.pos.n with
  | none => rfl
  | some w => exact congrArg _ (h w)

theorem stepWindow_withHost (c : BitVec 4) :
    stepWindow c (s.withHost e r) = hostReplaced e r (stepWindow c s) := by
  unfold stepWindow presentClass
  split_ifs
  · rfl
  · exact congrArg (fun u : State => Host.Outcome.next u.nextWindow) (s.fsmStep_withHost e r c)

theorem execSeqDetectStep_withHost : execSeqDetectStep (s.withHost e r) = hostReplaced e r (execSeqDetectStep s) := by
  have hb : (s.withHost e r).build = s.build := rfl
  have hw : (s.withHost e r).window? (s.withHost e r).pos.j = s.window? s.pos.j := rfl
  unfold execSeqDetectStep
  rw [hb]
  cases hd : detectorOf s.build.detector with
  | none => rfl
  | some classify =>
    dsimp only
    unfold classifyWindow
    rw [hw]
    cases s.window? s.pos.j with
    | none => rfl
    | some x =>
      have hc : classify (s.withHost e r) x = classify s x := detectorOf_congr x hd rfl rfl rfl
      dsimp only
      rw [hc]
      cases classify s x with
      | none => rfl
      | some c => exact stepWindow_withHost e r { s with port := { s.port with cls := c } } c

/-- A micro-operation answers the same whatever IRQ_EN and the latest response are, and leaves them. -/
theorem exec_withHost {i : Instr} (hm : isMicroOp i = true) :
    exec i (s.withHost e r) = hostReplaced e r (exec i s) := by
  cases i <;> try (cases hm; done)
  case seqStatsStep => exact withSample_withHost e r s fun _ => withHost_ite e r rfl rfl
  case seqStatsEnd => exact congrArg Host.Outcome.next (withHost_ite e r rfl rfl)
  case seqVarStep => exact withSample_withHost e r s fun _ => rfl
  case seqVarEnd => exact congrArg Host.Outcome.next (withHost_ite e r (withHost_ite e r rfl rfl) rfl)
  case seqGateStep => exact withSample_withHost e r s fun _ => rfl
  case seqGateEnd => rfl
  case seqFilterStep => exact withSample_withHost e r s fun _ => withHost_ite e r rfl rfl
  case seqFilterEnd => rfl
  case seqDetectStep => exact execSeqDetectStep_withHost e r s
  case seqDetectEnd => rfl
  case seqFlush =>
    exact congrArg (fun u : State => Host.Outcome.next { u with fsm := .reset }.complete) (s.flushEmit_withHost e r)

end WithHost

/-- Settles O54: the second state is the first with IRQ_EN and the latest response replaced. -/
theorem runIgnoresHostState : Obligations.RunIgnoresHostState := by
  intro s t i hm hcore
  have ht : exec i t = hostReplaced t.irqEn t.port.resp (exec i s) :=
    (congrArg (exec i) (State.eq_withHost hcore)).trans (exec_withHost _ _ s hm)
  rw [ht]
  cases h : exec i s with
  | next u => exact ⟨(u.withHost_core _ _).symm, micro_irqEn (micro_cases hm h), rfl⟩
  | fault q => rfl
  | refused q => rfl

end Sys2Proof.Machine
end

section
/-! PROOFS. A run left to the sequencer: no micro-step of it stops, each brings it one micro-step nearer its end or ends it with
an error, and so it ends (R263, R269, R321, R351). -/

namespace Sys2Proof.Machine

/-! The micro-steps left (R269). -/

section Remaining
variable {s : State}

/-- In a pass: the rest of it, the passes after it, and the windows and the ends behind them. -/
theorem State.remaining_pass (hpass : 1 ≤ s.pos.phase.toNat ∧ s.pos.phase.toNat ≤ 4) :
    s.remaining = s.total - s.pos.n + 1 + (4 - s.pos.phase.toNat) * (s.total + 1) + (s.windows + 2) := by
  obtain ⟨h1, h4⟩ := hpass
  unfold State.remaining
  interval_cases s.pos.phase.toNat <;> simp

theorem State.remaining_detect (hp : s.pos.phase = 5) : s.remaining = s.windows - s.pos.j + 2 := by
  simp [State.remaining, hp]

theorem State.remaining_flush (hp : s.pos.phase = 6) : s.remaining = 1 := by simp [State.remaining, hp]

theorem State.remaining_idle (hp : s.pos.phase = 0) : s.remaining = 0 := by simp [State.remaining, hp]

/-- An accepted START has the whole run left: each of the four passes takes N + 1 micro-steps, the detect loop NW + 1 and the
flush one; without a sample only the flush is left. -/
theorem State.remaining_beginRun (s : State) :
    s.beginRun.remaining = if s.total = 0 then 1 else 4 * s.total + s.windows + 6 := by
  by_cases h : s.total = 0
  · rw [if_pos h, State.remaining_flush (by simp [h])]
  · have hp : s.beginRun.pos.phase = 1 := if_neg h
    rw [if_neg h, State.remaining_pass (by rw [hp]; decide), hp]
    show s.total - 0 + 1 + 3 * (s.total + 1) + (s.windows + 2) = _
    omega

end Remaining

/-! What one micro-step does to a run. -/

/-- What a micro-step can do to a run: it brings it one micro-step nearer its end, or it is the last one and completes it,
or it ends it early with an error. -/
inductive RunStep (s t : State) : Prop
  | next (hphase : t.pos.phase ≠ 0) (hrem : t.remaining + 1 = s.remaining)
  | completed (hlast : s.remaining = 1) (hphase : t.pos.phase = 0) (hdone : t.status.done = true)
      (herr : t.status.err = s.status.err)
  | failed (hearly : 2 ≤ s.remaining) (hphase : t.pos.phase = 0) (herr : t.status.err = true)
      (hdone : t.status.done = s.status.done)

section Moves
variable {s t : State} (hb : t.build = s.build) (hc : t.cfg = s.cfg)
include hb hc

/-- The next sample of a pass (R265). -/
theorem RunStep.of_nextSample (hpass : 1 ≤ s.pos.phase.toNat ∧ s.pos.phase.toNat ≤ 4) (hn : s.pos.n < s.total)
    (hpos : t.pos = { s.pos with n := s.pos.n + 1 }) : RunStep s t := by
  have hphase : t.pos.phase = s.pos.phase := by rw [hpos]
  refine .next ?_ ?_
  · intro h0
    rw [← hphase, h0] at hpass
    exact absurd hpass.1 (by decide)
  · rw [State.remaining_pass hpass, State.remaining_pass (hphase ▸ hpass), State.total_congr hc, State.windows_congr hb hc,
      hpos]
    dsimp only
    omega

/-- The pass after a pass (R265). -/
theorem RunStep.of_enterPass {p : BitVec 3} (hpass : 1 ≤ s.pos.phase.toNat) (hp : p.toNat = s.pos.phase.toNat + 1)
    (h4 : p.toNat ≤ 4) (hn : s.pos.n = s.total) (hpos : t.pos = { s.pos with phase := p, n := 0 }) : RunStep s t := by
  have hphase : t.pos.phase = p := by rw [hpos]
  refine .next ?_ ?_
  · rw [hphase]
    rintro rfl
    simp at hp
  · have hpasses : 4 - s.pos.phase.toNat = 4 - p.toNat + 1 := by omega
    rw [State.remaining_pass ⟨hpass, by omega⟩, State.remaining_pass (by rw [hphase]; omega), State.total_congr hc,
      State.windows_congr hb hc, hpos, hpasses, Nat.succ_mul]
    dsimp only
    omega

/-- The detect loop after the last pass (R151). -/
theorem RunStep.of_enterDetect (hp : s.pos.phase = 4) (hn : s.pos.n = s.total) (hpos : t.pos = ⟨5, 0, 0⟩) :
    RunStep s t := by
  have hphase : t.pos.phase = 5 := by rw [hpos]
  refine .next (by simp [hphase]) ?_
  rw [State.remaining_pass (s := s) (by simp [hp]), State.remaining_detect hphase, State.windows_congr hb hc, hpos, hp, hn]
  show s.windows - 0 + 2 + 1 = s.total - s.total + 1 + 0 * (s.total + 1) + (s.windows + 2)
  omega

/-- The next window of the detect loop (R196). -/
theorem RunStep.of_nextWindow (hp : s.pos.phase = 5) (hj : s.pos.j < s.windows)
    (hpos : t.pos = { s.pos with j := s.pos.j + 1 }) : RunStep s t := by
  have hphase : t.pos.phase = 5 := by rw [hpos, ← hp]
  refine .next (by simp [hphase]) ?_
  rw [State.remaining_detect hp, State.remaining_detect hphase, State.windows_congr hb hc, hpos]
  dsimp only
  omega

omit hb hc in
/-- The flush after the last window (R197). -/
theorem RunStep.of_enterFlush (hp : s.pos.phase = 5) (hj : s.pos.j = s.windows) (hphase : t.pos.phase = 6) :
    RunStep s t := by
  refine .next (by simp [hphase]) ?_
  rw [State.remaining_detect hp, State.remaining_flush hphase, hj]
  omega

end Moves

/-- Before the flush at least two micro-steps are left: the end of the detect loop and the flush. -/
theorem State.Selects.two_le_remaining {s : State} {i : Instr} (hi : s.Selects i) (hf : i ≠ .seqFlush) :
    2 ≤ s.remaining := by
  cases hi with
  | flush _ => exact absurd rfl hf
  | detectStep hp _ | detectEnd hp _ =>
    rw [State.remaining_detect hp]
    omega
  | statsStep hp _ | statsEnd hp _ | varStep hp _ | varEnd hp _ | gateStep hp _ | gateEnd hp _ | filterStep hp _
  | filterEnd hp _ =>
    rw [State.remaining_pass (by simp [hp])]
    omega

/-- What the micro-operation the position selects does to a legal run. -/
theorem micro_runStep {i : Instr} {s t : State} (hs : s.Inv) (hi : s.Selects i) (h : MicroCases i s t) : RunStep s t := by
  have hlt (hpass : 1 ≤ s.pos.phase.toNat ∧ s.pos.phase.toNat ≤ 4) (hn : s.pos.n ≠ s.total) : s.pos.n < s.total :=
    have ⟨_, _, hle, _⟩ := hs.in_pass hpass
    Nat.lt_of_le_of_ne hle hn
  cases h with
  | raise w c k h _ hc =>
    subst h
    refine .failed (hi.two_le_remaining ?_) rfl rfl rfl
    rintro rfl
    simp at hc
  | statsStep v hi' _ _ h =>
    subst hi' h
    cases hi with | statsStep hp hn =>
    exact .of_nextSample rfl rfl (by simp [hp]) (hlt (by simp [hp]) hn) rfl
  | statsEnd hi' h =>
    subst hi' h
    cases hi with | statsEnd hp hn =>
    exact .of_enterPass (p := 2) rfl rfl (by simp [hp]) (by simp [hp]) (by decide) hn rfl
  | varStep d hi' _ h =>
    subst hi' h
    cases hi with | varStep hp hn =>
    exact .of_nextSample rfl rfl (by simp [hp]) (hlt (by simp [hp]) hn) rfl
  | varEnd hi' h =>
    subst hi' h
    cases hi with | varEnd hp hn =>
    exact .of_enterPass (p := 3) rfl rfl (by simp [hp]) (by simp [hp]) (by decide) hn rfl
  | gateStep w hi' _ h =>
    subst hi' h
    cases hi with | gateStep hp hn =>
    exact .of_nextSample rfl rfl (by simp [hp]) (hlt (by simp [hp]) hn) rfl
  | gateEnd b hi' h =>
    subst hi' h
    cases hi with | gateEnd hp hn =>
    exact .of_enterPass (p := 4) rfl rfl (by simp [hp]) (by simp [hp]) (by decide) hn rfl
  | filterStep w x hi' _ h =>
    subst hi' h
    cases hi with | filterStep hp hn =>
    exact .of_nextSample rfl rfl (by simp [hp]) (hlt (by simp [hp]) hn) rfl
  | filterEnd hi' h =>
    subst hi' h
    cases hi with | filterEnd hp hn =>
    exact .of_enterDetect rfl rfl hp hn rfl
  | detectStep c hi' _ h =>
    subst hi'
    cases hi with | detectStep hp hj =>
    obtain ⟨hle, -⟩ := hs.position.detect hp
    obtain ⟨hbuild, -, -, -, -, -, -, -, hcfg, hpos, -⟩ :=
      State.fsmStep_frame { s with port := { s.port with cls := c } } c
    subst h
    refine .of_nextWindow hbuild hcfg hp (Nat.lt_of_le_of_ne hle hj) ?_
    rw [State.nextWindow_pos, hpos]
  | detectEnd hi' h =>
    subst hi' h
    cases hi with | detectEnd hp hj =>
    exact .of_enterFlush hp hj rfl
  | flush hi' h =>
    subst hi' h
    cases hi with | flush hp =>
    obtain ⟨-, -, -, -, herr, -⟩ := s.flushEmit_frame
    exact .completed (State.remaining_flush hp) rfl rfl herr

/-! No micro-step of a legal run stops (R321). -/

/-- Every phase of a run selects a row (R119). -/
theorem State.exists_selects {s : State} (h0 : s.pos.phase ≠ 0) (h7 : s.pos.phase ≠ 7) : ∃ i, s.Selects i := by
  obtain hp | hp | hp | hp | hp | hp | hp | hp := phase_cases s.pos.phase
  · exact absurd hp h0
  · exact absurd hp h7
  · by_cases hn : s.pos.n = s.total
    exacts [⟨_, .statsEnd hp hn⟩, ⟨_, .statsStep hp hn⟩]
  · by_cases hn : s.pos.n = s.total
    exacts [⟨_, .varEnd hp hn⟩, ⟨_, .varStep hp hn⟩]
  · by_cases hn : s.pos.n = s.total
    exacts [⟨_, .gateEnd hp hn⟩, ⟨_, .gateStep hp hn⟩]
  · by_cases hn : s.pos.n = s.total
    exacts [⟨_, .filterEnd hp hn⟩, ⟨_, .filterStep hp hn⟩]
  · by_cases hj : s.pos.j = s.windows
    exacts [⟨_, .detectEnd hp hj⟩, ⟨_, .detectStep hp hj⟩]
  · exact ⟨_, .flush hp⟩

/-- The words of a window of the run are samples of the run (R171). -/
theorem window_le_of_lt_windowCount {j n stride : Nat} (h : j < windowCount n stride) :
    j * stride + Config.windowLength ≤ n := by
  unfold windowCount at h
  split at h
  · omega
  · have := Nat.mul_le_of_le_div stride j (n - Config.windowLength) (by omega)
    omega

/-- Every build there is has a detector (R13, R120). -/
theorem exists_detectorOf {d : BitVec 2} (hd : d ≠ 3) : ∃ classify, detectorOf d = some classify := by
  have hcases : d = 0 ∨ d = 1 ∨ d = 2 := by
    revert d
    decide
  obtain rfl | rfl | rfl := hcases <;> exact ⟨_, rfl⟩

/-- A micro-operation over a sample that exists answers. -/
theorem withSample_exists {s : State} (act : Word → State) (h : s.pos.n < s.build.bufLen) :
    ∃ t, withSample s act = .next t := ⟨_, withSample_of_lt act h⟩

/-- SEQ_DETECT_STEP answers where its window exists: the class code is at most 12 (R195). -/
theorem exec_seqDetectStep_exists {s : State} (hw : s.windowExists s.pos.j) (hd : s.build.detector ≠ 3) :
    ∃ t, exec .seqDetectStep s = .next t := by
  obtain ⟨classify, hcl⟩ := exists_detectorOf hd
  cases hc : classify s (s.windowAt s.pos.j) with
  | none => exact ⟨_, exec_seqDetectStep_none hw hcl hc⟩
  | some c => exact ⟨_, exec_seqDetectStep_class hw hcl hc⟩

/-- The micro-operation the position of a legal state selects does not stop. -/
theorem exec_selected_next {i : Instr} {s : State} (hs : s.Inv) (hi : s.Selects i) : ∃ t, exec i s = .next t := by
  obtain ⟨-, -, -, hfits⟩ := hs.in_run hi.phase_ne.1
  have hlt (hpass : 1 ≤ s.pos.phase.toNat ∧ s.pos.phase.toNat ≤ 4) (hn : s.pos.n ≠ s.total) :
      s.pos.n < s.build.bufLen :=
    have ⟨_, _, hle, _⟩ := hs.in_pass hpass
    Nat.lt_of_lt_of_le (Nat.lt_of_le_of_ne hle hn) hfits
  cases hi with
  | statsStep hp hn | varStep hp hn | gateStep hp hn | filterStep hp hn =>
    exact withSample_exists _ (hlt (by simp [hp]) hn)
  | detectStep hp hj =>
    obtain ⟨hle, -⟩ := hs.position.detect hp
    obtain ⟨hd, -⟩ := hs.build
    exact exec_seqDetectStep_exists
      ((window_le_of_lt_windowCount (Nat.lt_of_le_of_ne hle hj)).trans hfits) hd
  | statsEnd | varEnd | gateEnd | filterEnd | detectEnd | flush => exact ⟨_, rfl⟩

/-- A micro-operation leaves the stimuli to come. -/
theorem micro_agenda {i : Instr} {s t : State} (h : MicroCases i s t) : t.port.agenda = s.port.agenda := by
  cases h with
  | detectStep c _ _ h =>
    obtain ⟨-, -, -, -, -, -, -, -, -, -, -, -, hport⟩ := State.fsmStep_frame { s with port := { s.port with cls := c } } c
    rw [h, State.nextWindow_port, hport]
  | flush _ h =>
    obtain ⟨-, -, -, -, -, -, -, -, -, -, -, -, hport⟩ := s.flushEmit_frame
    rw [h]
    exact congrArg Port.agenda hport
  | _ => subst t; rfl

/-- With no stimulus left a legal run makes its next micro-step, and no stimulus comes of it. -/
theorem step_runStep {s : State} (hs : s.Inv) (ha : s.port.agenda = []) (h0 : s.pos.phase ≠ 0) :
    ∃ t, step s = .next t ∧ RunStep s t ∧ t.port.agenda = [] := by
  obtain ⟨i, hi⟩ := State.exists_selects h0 hs.status.phase_legal
  obtain ⟨hd, -⟩ := hs.build
  obtain ⟨t, ht⟩ := exec_selected_next hs hi
  have hcases := micro_cases hi.isMicroOp ht
  exact ⟨t, (step_selected hd (.inl ⟨ha, rfl⟩) hi).trans ht, micro_runStep hs hi hcases, (micro_agenda hcases).trans ha⟩

/-- Settles O55: the last micro-step leaves none. -/
theorem microStepMakesProgress : Obligations.MicroStepMakesProgress := by
  intro s t hs ha h0 h
  have hbusy := (stepKeepsLegal s t hs h).status.busy_iff
  obtain ⟨t', h', hstep, -⟩ := step_runStep hs ha h0
  obtain rfl := Host.Outcome.next.inj (h.symm.trans h')
  cases hstep with
  | next _ hrem => exact .inl hrem
  | completed hlast hphase => exact .inl (by rw [State.remaining_idle hphase, hlast])
  | failed _ hphase herr => exact .inr ⟨herr, by simpa [hphase] using hbusy⟩

/-! The whole run (R269, R351). -/

/-- The run in `s` ends in `u` after `k` micro-steps, with DONE when none of them raises an error; BUSY is 1 until then. -/
structure State.EndsAfter (s u : State) (k : Nat) : Prop where
  run : Sys2Proof.core.run k s = .next u
  busy : ∀ m < k, ∃ v : State, Sys2Proof.core.run m s = .next v ∧ v.status.busy = true
  idle : u.status.busy = false
  ending : (u.status.done = true ∧ u.status.err = false ∧ k = s.remaining)
    ∨ (u.status.err = true ∧ u.status.done = false ∧ 1 ≤ k ∧ k < s.remaining)

theorem run_succ {s t : State} (h : step s = .next t) (k : Nat) :
    Sys2Proof.core.run (k + 1) s = Sys2Proof.core.run k t := by
  have h' : Sys2Proof.core.step s = .next t := h
  simp only [Host.Core.run, h']

/-- The run's last micro-step. -/
theorem State.EndsAfter.last {s u : State} (h : step s = .next u) (hb : s.status.busy = true)
    (hidle : u.status.busy = false) (hend : (u.status.done = true ∧ u.status.err = false ∧ 1 = s.remaining)
      ∨ (u.status.err = true ∧ u.status.done = false ∧ 1 < s.remaining)) : s.EndsAfter u 1 where
  run := run_succ h 0
  busy m hm := by
    obtain rfl := Nat.lt_one_iff.mp hm
    exact ⟨s, rfl, hb⟩
  idle := hidle
  ending := hend.imp_right fun ⟨herr, hdone, hrem⟩ => ⟨herr, hdone, Nat.le_refl 1, hrem⟩

/-- A micro-step before the rest of the run. -/
theorem State.EndsAfter.cons {s t u : State} {k : Nat} (h : step s = .next t) (hb : s.status.busy = true)
    (hrem : t.remaining + 1 = s.remaining) (ht : t.EndsAfter u k) : s.EndsAfter u (k + 1) where
  run := (run_succ h k).trans ht.run
  busy
    | 0, _ => ⟨s, rfl, hb⟩
    | m + 1, hm => by
      rw [run_succ h m]
      exact ht.busy m (by omega)
  idle := ht.idle
  ending := by
    obtain ⟨hdone, herr, hk⟩ | ⟨herr, hdone, h1, hk⟩ := ht.ending
    · exact .inl ⟨hdone, herr, by omega⟩
    · exact .inr ⟨herr, hdone, by omega, by omega⟩

/-- A legal run left to the sequencer ends, by induction on the micro-steps left. -/
theorem exists_endsAfter {s : State} (hs : s.Inv) (ha : s.port.agenda = []) (h0 : s.pos.phase ≠ 0) :
    ∃ u k, s.EndsAfter u k := by
  induction hn : s.remaining generalizing s with
  | zero =>
    obtain ⟨_, -, hstep, -⟩ := step_runStep hs ha h0
    cases hstep <;> omega
  | succ n ih =>
    obtain ⟨t, h, hstep, hta⟩ := step_runStep hs ha h0
    obtain ⟨hbusy, hdone, herr, -⟩ := hs.in_run h0
    have ht := stepKeepsLegal s t hs h
    have hidle (hphase : t.pos.phase = 0) : t.status.busy = false := by simpa [hphase] using ht.status.busy_iff
    cases hstep with
    | next hphase hrem =>
      obtain ⟨u, k, hu⟩ := ih ht hta hphase (by omega)
      exact ⟨u, k + 1, .cons h hbusy hrem hu⟩
    | completed hlast hphase hdone' herr' =>
      exact ⟨t, 1, .last h hbusy (hidle hphase) (.inl ⟨hdone', herr'.trans herr, hlast.symm⟩)⟩
    | failed hearly hphase herr' hdone' =>
      exact ⟨t, 1, .last h hbusy (hidle hphase) (.inr ⟨herr', hdone'.trans hdone, hearly⟩)⟩

/-- Settles O56: the accepted START leaves a legal state with the whole run to come; a run of one micro-step is the flush
alone, which raises no error. -/
theorem runEnds : Obligations.RunEnds := by
  intro s w hs ha hb h1 h0 hN
  have hstart : ({ s with irqEn := w.getLsbD 2 } : State).start = State.beginRun { s with irqEn := w.getLsbD 2 } :=
    if_neg (Nat.not_lt.mpr hN)
  have ht := hstart ▸ exec_wrCtrl_start h1 h0 hb
  have hinv := wrCtrl_keeps_inv hs ht
  obtain ⟨u, k, hu⟩ := exists_endsAfter hinv ha (hinv.status.busy_iff.mp rfl)
  have hrem : (State.respond (State.beginRun { s with irqEn := w.getLsbD 2 }) ⟨.okay, none⟩).remaining
      = if s.total = 0 then 1 else 4 * s.total + s.windows + 6 := State.remaining_beginRun { s with irqEn := w.getLsbD 2 }
  refine ⟨_, u, k, ht, hu.run, hu.busy, hu.idle, ?_⟩
  obtain ⟨hdone, herr, hk⟩ | ⟨herr, hdone, hpos, hk⟩ := hu.ending <;> rw [hrem] at hk
  · exact .inl ⟨hdone, herr, hk⟩
  · split at hk
    · omega
    · exact .inr ⟨herr, hdone, by omega, hk⟩

end Sys2Proof.Machine
end

section
/-! PROOFS. No legal state stops: a step takes one stimulus of the agenda and adds none, and each that real hardware meets has
a next state (R116, R122, R261, R321, log entry 1). -/

namespace Sys2Proof.Machine

/-! The agenda after an operation and after a step. -/

theorem State.fsmStep_agenda (s : State) (c : BitVec 4) : (s.fsmStep c).port.agenda = s.port.agenda := by
  obtain ⟨-, -, -, -, -, -, -, -, -, -, -, -, hport⟩ := s.fsmStep_frame c
  rw [hport]

theorem State.start_agenda (s : State) : s.start.port.agenda = s.port.agenda := by
  obtain ⟨-, h⟩ | ⟨-, h⟩ := s.start_cases <;> rw [h] <;> rfl

/-- A control write leaves the stimuli to come, a soft reset too (R274, R331). -/
theorem wrCtrl_agenda {w : Word} {s t : State} (h : execWrCtrl w s = .next t) : t.port.agenda = s.port.agenda := by
  obtain ⟨-, he⟩ | ⟨-, -, -, he⟩ | ⟨-, -, -, he⟩ | ⟨-, -, he⟩ := execWrCtrl_cases w s <;>
    obtain rfl := Host.Outcome.next.inj (he.symm.trans h)
  · rfl
  · rfl
  · exact State.start_agenda { s with irqEn := w.getLsbD 2 }
  · rfl

/-- No operation touches the stimuli to come. -/
theorem exec_agenda {i : Instr} {s t : State} (hexec : exec i s = .next t) : t.port.agenda = s.port.agenda := by
  cases exec_cases hexec with
  | control w _ h => exact wrCtrl_agenda h
  | silence _ h => rw [h, State.fsmStep_agenda]
  | key k _ _ _ h => rw [h, State.fsmStep_agenda]
  | micro hm h => exact micro_agenda (micro_cases hm h)
  | classify _ h => obtain rfl | ⟨c, rfl⟩ := h <;> rfl
  | _ => subst t; rfl

theorem State.TurnOf.agenda {s u : State} (hu : s.TurnOf u) : u.port.agenda = s.port.agenda.tail := by
  obtain ⟨ha, rfl⟩ | ⟨rest, ha, rfl⟩ := hu <;> simp [ha]

/-- A step takes at most the first stimulus, and adds none. -/
theorem step_agenda {s t : State} (h : step s = .next t) : t.port.agenda = s.port.agenda.tail := by
  cases step_cases h with
  | idle u hu _ h => rw [h, hu.agenda]
  | reset rest ha h => rw [h, ha]; rfl
  | micro u i hu _ _ h => rw [exec_agenda h, hu.agenda]
  | present raw rest i ha _ _ h => rw [exec_agenda h, ha]; rfl

theorem step_keeps_physicalAgenda {s t : State} (hp : s.PhysicalAgenda) (h : step s = .next t) : t.PhysicalAgenda :=
  fun x hx => hp x (List.mem_of_mem_tail (step_agenda h ▸ hx))

/-! No step of a legal state stops. -/

/-- The row the position selects does not depend on the agenda (R119). -/
theorem State.Selects.withAgenda {s : State} {i : Instr} (h : s.Selects i) (rest : List Stimulus) :
    (s.withAgenda rest).Selects i := State.selects_of_decode (s := s.withAgenda rest) h.decode

/-- The sequencer's turn in a legal state: the block idles, or performs the row its position selects. -/
theorem step_turn_next {s u : State} (hs : s.Inv) (hu : s.TurnOf u) : ∃ t, step s = .next t := by
  obtain ⟨hd, -⟩ := hs.build
  by_cases h0 : s.pos.phase = 0
  · exact ⟨u, step_idle hd hu h0⟩
  · obtain ⟨i, hi⟩ := State.exists_selects h0 hs.status.phase_legal
    obtain ⟨rest, rfl⟩ := hu.eq_withAgenda
    obtain ⟨t, ht⟩ := exec_selected_next (s := s.withAgenda rest) (hs.withPort _) (hi.withAgenda rest)
    exact ⟨t, (step_selected hd hu hi).trans ht⟩

/-- A transaction at the head of the agenda, of any size and offset, completes (R97, R112). -/
theorem step_transaction_next {s : State} {we : Bool} {addr : BitVec 24} {size : Size} {w : Word} {rest : List Stimulus}
    (hd : s.build.detector ≠ 3) (ha : s.port.agenda = .op (busRaw we addr size w) :: rest) : ∃ t, step s = .next t := by
  obtain ⟨t, ht⟩ := exec_busRow_next (s.withAgenda rest) (isBusRow_decodeTransaction we addr size w)
  exact ⟨t, (step_present hd ha rfl (decode_busRaw we addr size w)).trans ht⟩

/-- A legal state has a next state, whichever stimulus real hardware meets is the next one. -/
theorem step_next_of_inv {s : State} (hs : s.Inv) (hp : s.PhysicalAgenda) : ∃ t, step s = .next t := by
  obtain ⟨hd, -⟩ := hs.build
  cases ha : s.port.agenda with
  | nil => exact step_turn_next hs (.inl ⟨ha, rfl⟩)
  | cons x rest =>
    cases x with
    | tick => exact step_turn_next hs (.inr ⟨rest, ha, rfl⟩)
    | rst => exact ⟨_, step_rst hd ha⟩
    | op raw =>
      obtain ⟨we, addr, size, w, rfl⟩ : (Stimulus.op raw).Physical := hp _ (ha ▸ List.mem_cons_self)
      exact step_transaction_next hd ha

/-- Settles O57, by induction on the number of steps: a step of a legal state has a next state, which is legal and has a
physical agenda again. -/
theorem legalMachineNeverStops : Obligations.LegalMachineNeverStops := by
  intro k
  induction k with
  | zero => exact fun s _ _ => ⟨s, rfl⟩
  | succ k ih =>
    intro s hs hp
    obtain ⟨t, h⟩ := step_next_of_inv hs hp
    obtain ⟨u, hu⟩ := ih t (stepKeepsLegal s t hs h) (step_keeps_physicalAgenda hp h)
    exact ⟨u, (run_succ h k).trans hu⟩

end Sys2Proof.Machine
end
